-- ==== Sys2Proof/Word.lean ====
section
/-! DEFINITION. The word types of HMP-FPE and the plain-data form of its memories. -/

namespace Sys2Proof

/-- A byte of `OUT` (20_memory.md R60). -/
abbrev Byte := BitVec 8

/-- A 32-bit register, sample word or sub-fingerprint (20_memory.md R60, 10_state.md R23). -/
abbrev Word := BitVec 32

/-- The bit pattern of an IEEE 754-2008 binary64 value (00_scope.md R9). -/
abbrev F64 := BitVec 64

/-- An array the machine holds, as the list of the elements that have been written: pairs of an
element index and its value, indices strictly rising. An index not listed has not been written. -/
abbrev Memory (β : Type) := List (Nat × β)

/-- A memory of `w`-bit elements. `Cells 8` is a list of the host's cells. -/
abbrev Cells (w : Nat) := Memory (BitVec w)

end Sys2Proof
end

