-- ==== Sys2Proof/Config.lean ====
section
/-! DEFINITION. What the spec leaves to the environment, the platform or the arithmetic: free values,
opaque constants that nothing can evaluate. The numeric parameters, whose values the spec gives for
this hardware, stand in Machine/Params.lean. -/

namespace Sys2Proof

/-- The five host-visible spaces (20_memory.md R60). -/
inductive Space where
  | csr | sin | fb | subfp | out
  deriving DecidableEq, Repr

/-- The arrays whose contents are unspecified after reset (10_state.md R51). `AUX_k` has a free value
of its own, `Config.auxContents`. -/
inductive ArrayName where
  | sin | fb | subfp | out | carry | ring | chroma | sym | raw
  deriving DecidableEq, Repr

/-- The binary64 operations that can produce a NaN (00_scope.md R9). -/
inductive FpOp where
  | add | sub | mul | div | sqrt
  deriving DecidableEq, Repr

/-- The configuration functions of 00_scope.md R9. -/
inductive ElemFn where
  | cos | sin | log
  deriving DecidableEq, Repr

/-- The element at `index` of an array after the platform reset numbered `epoch`, until it is
written (10_state.md R51, 93_implementation_defined.md U1). Free; log entry 4. -/
opaque Config.powerOn (w : Nat) (array : ArrayName) (epoch index : Nat) : BitVec w

/-- Element `index`, below `4 * 2^k`, of `AUX_k` after `runs` transforms of size `2^k` since the reset numbered `epoch`
(10_state.md R47, 93_implementation_defined.md U2). Free; log entry 5. -/
opaque Config.auxContents (epoch k runs index : Nat) : F64

/-- The environment's draw `alloc_ok` numbered `draw` (40_fft.md R101,
93_implementation_defined.md P4). Free; log entry 3. -/
opaque Config.allocOk (draw : Nat) : Bool

/-- The sign (bit 51) and the low 51 payload bits of the quiet NaN an operation delivers
(00_scope.md R9). Free; log entry 6. -/
opaque Config.nanBits (op : FpOp) (a b : F64) : BitVec 52

/-- The value of a configuration function where the model does not compute it (00_scope.md R9,
93_implementation_defined.md P2). Free; log entry 7. -/
opaque Config.elementary (f : ElemFn) (a : F64) : F64

/-- Where the platform places a space on its bus (20_memory.md R72, 93_implementation_defined.md P6).
Free, and no rule reads it; log entry 13. -/
opaque Config.spaceBase (space : Space) : Nat

end Sys2Proof
end

