-- ==== Sys2Proof/Syntax.lean ====
section
/-! DEFINITION. The ten commands (30_encoding.md R82) and the actions of the agents outside the
engine (20_memory.md R61, 70_reset_and_hazards.md R301). -/

namespace Sys2Proof

/-- The commands of 30_encoding.md R82, one constructor per row of the opcode table. None has an
operand field: the only operand is the register `ARG0` (30_encoding.md R80, R83). -/
inductive Instr where
  | nop
  | sessionOpen
  | sessionClose
  | addSamples
  | needsSamples
  | canCalculate
  | calculateFingerprint
  | fftForward
  | window
  | compress
  deriving DecidableEq, Repr

/-- One action on the block from outside the engine: a host access of 20_memory.md R61, each moving
one whole element, or the platform's reset (70_reset_and_hazards.md R301). A write of CSR offset 0
issues a command. -/
inductive HostAction where
  | read (space : Space) (index : Nat)
  | writeCsr (offset : Nat) (value : Word)
  | writeSin (index : Nat) (value : Word)
  | writeFb (index : Nat) (value : F64)
  | writeSubfp (index : Nat) (value : Word)
  | writeOut (index : Nat) (value : Byte)
  | reset
  deriving DecidableEq, Repr

/-- What a host read returns: one whole element of its space (20_memory.md R61). -/
inductive ReadData where
  | word (value : Word)
  | real (value : F64)
  | byte (value : Byte)
  deriving DecidableEq, Repr

end Sys2Proof
end

