-- ==== Sys2Proof/WellFormed.lean ====
section
/-! DEFINITION. Which commands, command words and host accesses are well formed. -/

namespace Sys2Proof

/-- Every command is well formed: a command has no operand field that could be out of range
(30_encoding.md R80). The range of `ARG0` is checked when the command runs (60_exceptions.md R282). -/
def Instr.wellFormed : Instr → Bool
  | .nop => true
  | .sessionOpen => true
  | .sessionClose => true
  | .addSamples => true
  | .needsSamples => true
  | .canCalculate => true
  | .calculateFingerprint => true
  | .fftForward => true
  | .window => true
  | .compress => true

/-- The number of elements of a space, in bytes for CSR (20_memory.md R60). -/
def Space.extent : Space → Nat
  | .csr => 4096
  | .sin => 65536
  | .fb => 4096
  | .subfp => 256
  | .out => 8192

/-- The index lies in the space; a CSR offset is a multiple of 4 as well (20_memory.md R64). -/
def Space.admits (space : Space) (index : Nat) : Bool :=
  decide (index < space.extent) && (space != .csr || index % 4 == 0)

/-- A host access is admitted (20_memory.md R64): its index is in the space, a CSR offset is aligned,
and it does not write `OUT`. Reset is always admitted. -/
def HostAction.wellFormed : HostAction → Bool
  | .read space index => space.admits index
  | .writeCsr offset _ => Space.csr.admits offset
  | .writeSin index _ => Space.sin.admits index
  | .writeFb index _ => Space.fb.admits index
  | .writeSubfp index _ => Space.subfp.admits index
  | .writeOut _ _ => false
  | .reset => true

end Sys2Proof
end

