-- ==== Sys2Proof/Decode.lean ====
section
/-! DEFINITION. The command decoder, total on all 2^32 words, and the encoder (30_encoding.md R80 to
R85). -/

namespace Sys2Proof

/-- Why a command word is illegal (30_encoding.md R81, R85). -/
inductive DecodeReject where
  /-- A bit of `[31:8]` is set. -/
  | reservedBits
  /-- The opcode is 0x07 to 0x0F or 0x13 to 0xFF. -/
  | reservedOpcode (opcode : BitVec 8)
  deriving DecidableEq, Repr

/-- The opcode map of 30_encoding.md R82. -/
def decodeOpcode (opcode : BitVec 8) : Except DecodeReject Instr :=
  match opcode.toNat with
  | 0x00 => .ok .nop
  | 0x01 => .ok .sessionOpen
  | 0x02 => .ok .sessionClose
  | 0x03 => .ok .addSamples
  | 0x04 => .ok .needsSamples
  | 0x05 => .ok .canCalculate
  | 0x06 => .ok .calculateFingerprint
  | 0x10 => .ok .fftForward
  | 0x11 => .ok .window
  | 0x12 => .ok .compress
  | _ => .error (.reservedOpcode opcode)

/-- `decode` of 30_encoding.md R81: the reserved bits are checked first. -/
def decode (w : Word) : Except DecodeReject Instr :=
  if w.extractLsb' 8 24 ≠ 0 then .error .reservedBits
  else decodeOpcode (w.extractLsb' 0 8)

/-- The opcode of a command (30_encoding.md R82). -/
def Instr.opcode : Instr → BitVec 8
  | .nop => 0x00#8
  | .sessionOpen => 0x01#8
  | .sessionClose => 0x02#8
  | .addSamples => 0x03#8
  | .needsSamples => 0x04#8
  | .canCalculate => 0x05#8
  | .calculateFingerprint => 0x06#8
  | .fftForward => 0x10#8
  | .window => 0x11#8
  | .compress => 0x12#8

/-- The command word: `OPCODE` in `[7:0]`, zeros in `[31:8]` (30_encoding.md R80). -/
def encode (i : Instr) : Word :=
  0#24 ++ i.opcode

/-- The command the decoder reads from an instruction whose `nbits` bits are `w`, bit 0 the least
significant bit of the command word and every bit above `nbits` zero. A command word is one value
written whole to `CMD` (20_memory.md R69), so it has no byte order. -/
def decodeTableWord (nbits w : Nat) : Option Instr :=
  (decode (BitVec.ofNat 32 (w % 2 ^ nbits))).toOption

end Sys2Proof
end

