-- ==== Sys2Proof/Machine/Memory.lean ====
section
/-! DEFINITION. The operations on a memory: read an element, write a run of elements, read a run
(20_memory.md R61, R71), and the canonical form every operation keeps. -/

namespace Sys2Proof

/-- The canonical form: indices strictly rising, all below the capacity. -/
abbrev Memory.wf {β : Type} (capacity : Nat) (m : Memory β) : Prop :=
  m.Pairwise (fun a b => a.1 < b.1) ∧ ∀ e ∈ m, e.1 < capacity

/-- The element at `i`; an unlisted index has not been written and reads as no value. -/
def Memory.read? {β : Type} : Memory β → Nat → Option β
  | [], _ => none
  | e :: m, i => if e.1 = i then some e.2 else Memory.read? m i

/-- Writes `vs` to the elements from `lo` on, and keeps every other element. -/
def Memory.splice {β : Type} (m : Memory β) (lo : Nat) (vs : List β) : Memory β :=
  m.filter (fun e => decide (e.1 < lo)) ++ (vs.zipIdx lo).map (fun p => (p.2, p.1)) ++
    m.filter (fun e => decide (lo + vs.length ≤ e.1))

/-- The `n` elements from `lo` on, `unwritten i` standing for an unlisted element `i`. -/
def Memory.slice {β : Type} (m : Memory β) (unwritten : Nat → β) (lo n : Nat) : List β :=
  (List.range' lo n).map fun i => (m.read? i).getD (unwritten i)

/-! A faster form of `slice` for compiled runs, equal to it. -/

/-- The indices strictly rise. -/
def Memory.rising {β : Type} : Memory β → Bool
  | [] => true
  | [_] => true
  | a :: b :: m => decide (a.1 < b.1) && Memory.rising (b :: m)

/-- One walk along a rising list whose indices are at least `lo`. -/
def Memory.sliceWalk {β : Type} (unwritten : Nat → β) : Nat → Nat → Memory β → List β → List β
  | 0, _, _, acc => acc.reverse
  | n + 1, lo, [], acc => Memory.sliceWalk unwritten n (lo + 1) [] (unwritten lo :: acc)
  | n + 1, lo, e :: m, acc =>
    if e.1 = lo then Memory.sliceWalk unwritten n (lo + 1) m (e.2 :: acc)
    else Memory.sliceWalk unwritten n (lo + 1) (e :: m) (unwritten lo :: acc)

/-- `slice` in one walk where the list is rising. -/
def Memory.sliceFast {β : Type} (m : Memory β) (unwritten : Nat → β) (lo n : Nat) : List β :=
  if m.rising then Memory.sliceWalk unwritten n lo (m.dropWhile fun e => decide (e.1 < lo)) []
  else m.slice unwritten lo n

theorem Memory.rising_pairwise {β : Type} :
    ∀ m : Memory β, m.rising = true → m.Pairwise (fun a b => a.1 < b.1)
  | [], _ => .nil
  | [_], _ => List.pairwise_singleton _ _
  | a :: b :: m, h => by
    simp only [Memory.rising, Bool.and_eq_true, decide_eq_true_eq] at h
    have ih := Memory.rising_pairwise (b :: m) h.2
    refine List.pairwise_cons.2 ⟨fun c hc => ?_, ih⟩
    rcases List.mem_cons.1 hc with rfl | hc
    · exact h.1
    · exact h.1.trans ((List.pairwise_cons.1 ih).1 c hc)

theorem Memory.read?_none_of_below {β : Type} (m : Memory β) (i : Nat)
    (h : ∀ e ∈ m, i < e.1) : m.read? i = none := by
  induction m with
  | nil => rfl
  | cons e m ih =>
    have he := h e (by simp)
    simp only [Memory.read?, if_neg he.ne']
    exact ih fun x hx => h x (by simp [hx])

theorem Memory.read?_dropWhile {β : Type} (m : Memory β) (lo i : Nat) (h : lo ≤ i) :
    Memory.read? (m.dropWhile fun e => decide (e.1 < lo)) i = m.read? i := by
  induction m with
  | nil => rfl
  | cons e m ih =>
    by_cases he : e.1 < lo
    · rw [List.dropWhile_cons_of_pos (by simpa using he), ih]
      simp [Memory.read?, show e.1 ≠ i by omega]
    · rw [List.dropWhile_cons_of_neg (by simpa using he)]

theorem Memory.sliceWalk_eq {β : Type} (unwritten : Nat → β) :
    ∀ (n lo : Nat) (m : Memory β) (acc : List β), m.Pairwise (fun a b => a.1 < b.1) →
      (∀ e ∈ m, lo ≤ e.1) →
      Memory.sliceWalk unwritten n lo m acc = acc.reverse ++ m.slice unwritten lo n
  | 0, _, _, _, _, _ => by simp [Memory.sliceWalk, Memory.slice]
  | n + 1, lo, [], acc, _, _ => by
    rw [Memory.sliceWalk, Memory.sliceWalk_eq unwritten n (lo + 1) [] _ .nil (by simp)]
    simp [Memory.slice, List.range'_succ, Memory.read?]
  | n + 1, lo, e :: m, acc, hs, hlo => by
    have hm := List.pairwise_cons.1 hs
    have hrest : ∀ x ∈ m, lo < x.1 := fun x hx =>
      (hlo e (by simp)).trans_lt (hm.1 x hx)
    rw [Memory.sliceWalk]
    split
    · rename_i he
      rw [Memory.sliceWalk_eq unwritten n (lo + 1) m _ hm.2 (fun x hx => hrest x hx)]
      have : ∀ i ∈ List.range' (lo + 1) n, Memory.read? (e :: m) i = Memory.read? m i := by
        intro i hi
        have := (List.mem_range'_1.1 hi).1
        simp [Memory.read?, show e.1 ≠ i by omega]
      simp only [Memory.slice, List.range'_succ, List.map_cons, List.reverse_cons, List.append_assoc,
        List.singleton_append]
      rw [show (Memory.read? (e :: m) lo) = some e.2 by simp [Memory.read?, he], Option.getD_some,
        List.map_congr_left (fun i hi => congrArg (·.getD (unwritten i)) (this i hi))]
    · rename_i he
      have hlt : lo < e.1 := lt_of_le_of_ne (hlo e (by simp)) (fun h => he h.symm)
      have hall : ∀ x ∈ e :: m, lo < x.1 := by
        intro x hx
        rcases List.mem_cons.1 hx with rfl | hx
        · exact hlt
        · exact hrest x hx
      rw [Memory.sliceWalk_eq unwritten n (lo + 1) (e :: m) _ hs hall]
      simp [Memory.slice, List.range'_succ, Memory.read?_none_of_below _ _ hall]

theorem Memory.dropWhile_ge {β : Type} (lo : Nat) :
    ∀ m : Memory β, m.Pairwise (fun a b => a.1 < b.1) →
      ∀ e ∈ m.dropWhile (fun e => decide (e.1 < lo)), lo ≤ e.1
  | [], _, _, h => by simp at h
  | x :: m, hs, e, h => by
    by_cases hx : x.1 < lo
    · rw [List.dropWhile_cons_of_pos (by simpa using hx)] at h
      exact Memory.dropWhile_ge lo m (List.pairwise_cons.1 hs).2 e h
    · rw [List.dropWhile_cons_of_neg (by simpa using hx)] at h
      rcases List.mem_cons.1 h with rfl | h
      · omega
      · have := (List.pairwise_cons.1 hs).1 e h
        omega

@[csimp] theorem Memory.slice_eq_sliceFast : @Memory.slice = @Memory.sliceFast := by
  funext β m unwritten lo n
  unfold Memory.sliceFast
  split
  · rename_i h
    have hs := Memory.rising_pairwise m h
    rw [Memory.sliceWalk_eq unwritten n lo _ [] (hs.sublist (List.dropWhile_sublist _))
      (Memory.dropWhile_ge lo m hs)]
    simp only [List.reverse_nil, List.nil_append, Memory.slice]
    exact List.map_congr_left fun i hi => by
      rw [Memory.read?_dropWhile m lo i (List.mem_range'_1.1 hi).1]
  · rfl

end Sys2Proof
end

