-- ==== Sys2Proof/Machine/Float64.lean ====
section
/-! DEFINITION. IEEE 754-2008 binary64 arithmetic on bit patterns, rounding to nearest, ties to even,
each operation rounded once (00_scope.md R9). Every operation forms its exact result as a rational
times a power of two and narrows it with one rounding function. -/

namespace Sys2Proof.Machine

/-! ## Reading a bit pattern -/

/-- The biased exponent field. -/
def f64Exponent (a : F64) : Nat := a.toNat / 2 ^ 52 % 2 ^ 11

/-- The fraction field. -/
def f64Fraction (a : F64) : Nat := a.toNat % 2 ^ 52

/-- The sign bit. -/
def f64Negative (a : F64) : Bool := a.msb

def f64IsNaN (a : F64) : Bool := f64Exponent a == 2047 && f64Fraction a != 0

def f64IsInf (a : F64) : Bool := f64Exponent a == 2047 && f64Fraction a == 0

def f64IsZero (a : F64) : Bool := f64Exponent a == 0 && f64Fraction a == 0

def f64IsFinite (a : F64) : Bool := f64Exponent a != 2047

/-- The integer significand of a finite value: a finite value is
`± f64Significand * 2 ^ f64Scale`. -/
def f64Significand (a : F64) : Nat :=
  if f64Exponent a = 0 then f64Fraction a else f64Fraction a + 2 ^ 52

/-- The power of two that scales the significand; subnormals share the scale of exponent field 1. -/
def f64Scale (a : F64) : Int := (max (f64Exponent a) 1 : Nat) - 1075

/-! ## Rounding an exact value -/

/-- `n / d` to the nearest integer, ties to even. -/
def roundHalfEven (n d : Nat) : Nat :=
  let q := n / d
  let r := n % d
  if d < 2 * r ∨ (2 * r = d ∧ q % 2 = 1) then q + 1 else q

/-- The integer `e` with `2 ^ e ≤ n / d < 2 ^ (e + 1)`, for positive `n` and `d`. -/
def floorLog2Ratio (n d : Nat) : Int :=
  let e : Int := (Nat.log2 n : Int) - Nat.log2 d
  if d * 2 ^ e.toNat ≤ n * 2 ^ (-e).toNat then e else e - 1

/-- The pattern of magnitude `m * 2 ^ q` for `m ≤ 2 ^ 53` and `q ≥ -1074`, with `m ≥ 2 ^ 52` when
`q > -1074`; a magnitude past the largest finite value is infinity. -/
def packMagnitude (negative : Bool) (m : Nat) (q : Int) : F64 :=
  let magnitude := min ((q + 1074).toNat * 2 ^ 52 + m) (2047 * 2 ^ 52)
  BitVec.ofNat 64 (magnitude + if negative then 2 ^ 63 else 0)

/-- The binary64 value nearest `± (n / d) * 2 ^ e`, ties to even, for positive `d` (00_scope.md R9):
the quantum is that of the value's binade, or of the subnormals below it. -/
def roundRatio (negative : Bool) (n d : Nat) (e : Int) : F64 :=
  if n = 0 then packMagnitude negative 0 (-1074)
  else
    let q := max (floorLog2Ratio n d + e - 52) (-1074)
    packMagnitude negative (roundHalfEven (n * 2 ^ (e - q).toNat) (d * 2 ^ (q - e).toNat)) q

/-! ## Special values -/

def f64Zero (negative : Bool) : F64 := packMagnitude negative 0 (-1074)

def f64Inf (negative : Bool) : F64 :=
  BitVec.ofNat 64 (2047 * 2 ^ 52 + if negative then 2 ^ 63 else 0)

/-- The quiet NaN an operation delivers; its sign and payload are free (log entry 6). -/
def f64NaN (op : FpOp) (a b : F64) : F64 :=
  let r := Config.nanBits op a b
  r.extractLsb' 51 1 ++ 0xFFF#12 ++ r.extractLsb' 0 51

/-! ## Operations -/

/-- The exact sum of two finite values as an integer at the smaller of their scales. -/
def exactSum (a b : F64) (negateB : Bool) : Int × Int :=
  let e := min (f64Scale a) (f64Scale b)
  let x : Int := f64Significand a * 2 ^ (f64Scale a - e).toNat
  let y : Int := f64Significand b * 2 ^ (f64Scale b - e).toNat
  ((if f64Negative a then -x else x) + (if f64Negative b != negateB then -y else y), e)

/-- `a + b`, or `a - b` when `negateB`. An exact zero sum is `+0` unless both operands are negative
zeros after the negation (IEEE 754-2008 6.3). -/
def addWith (op : FpOp) (negateB : Bool) (a b : F64) : F64 :=
  let nb := f64Negative b != negateB
  if f64IsNaN a || f64IsNaN b then f64NaN op a b
  else if f64IsInf a then
    if f64IsInf b && (f64Negative a != nb) then f64NaN op a b else f64Inf (f64Negative a)
  else if f64IsInf b then f64Inf nb
  else
    let s := exactSum a b negateB
    if s.1 = 0 then f64Zero (f64Negative a && nb)
    else roundRatio (decide (s.1 < 0)) s.1.natAbs 1 s.2

/-- The `+` of 00_scope.md R9. -/
def fadd (a b : F64) : F64 := addWith .add false a b

/-- The `−` of 00_scope.md R9. -/
def fsub (a b : F64) : F64 := addWith .sub true a b

/-- The `*` of 00_scope.md R9. -/
def fmul (a b : F64) : F64 :=
  let negative := f64Negative a != f64Negative b
  if f64IsNaN a || f64IsNaN b then f64NaN .mul a b
  else if f64IsInf a || f64IsInf b then
    if f64IsZero a || f64IsZero b then f64NaN .mul a b else f64Inf negative
  else roundRatio negative (f64Significand a * f64Significand b) 1 (f64Scale a + f64Scale b)

/-- The `/` of 00_scope.md R9. -/
def fdiv (a b : F64) : F64 :=
  let negative := f64Negative a != f64Negative b
  if f64IsNaN a || f64IsNaN b then f64NaN .div a b
  else if f64IsInf a then
    if f64IsInf b then f64NaN .div a b else f64Inf negative
  else if f64IsInf b then f64Zero negative
  else if f64IsZero b then
    if f64IsZero a then f64NaN .div a b else f64Inf negative
  else roundRatio negative (f64Significand a) (f64Significand b) (f64Scale a - f64Scale b)

/-- The integer square root of `n`, for `n < 4 ^ bits`. -/
def isqrtBits : (bits : Nat) → (n : Nat) → Nat
  | 0, _ => 0
  | bits + 1, n =>
    let r := 2 * isqrtBits bits (n / 4)
    if (r + 1) * (r + 1) ≤ n then r + 1 else r

/-- The integer part of the square root of `n`. -/
def isqrt (n : Nat) : Nat := isqrtBits (Nat.log2 n / 2 + 1) n

/-- The correctly rounded `sqrt` of 00_scope.md R9. The root is taken to more than 53 bits and a last
bit records whether it is inexact, which settles the rounding. -/
def fsqrt (a : F64) : F64 :=
  if f64IsNaN a then f64NaN .sqrt a a
  else if f64IsZero a then a
  else if f64Negative a then f64NaN .sqrt a a
  else if f64IsInf a then a
  else
    let e := f64Scale a
    let m := if e % 2 = 0 then f64Significand a else 2 * f64Significand a
    let n := m * 2 ^ 128
    let r := isqrt n
    roundRatio false (2 * r + if r * r = n then 0 else 1) 1 ((e - e % 2 - 128) / 2 - 1)

/-! ## Comparisons -/

/-- The order of a non-NaN value: both zeros are 0. -/
def f64Order (a : F64) : Int :=
  let magnitude : Int := (a.toNat % 2 ^ 63 : Nat)
  if f64Negative a then -magnitude else magnitude

/-- The IEEE `<` of 00_scope.md R9: false when an operand is a NaN. -/
def flt (a b : F64) : Bool :=
  !f64IsNaN a && !f64IsNaN b && decide (f64Order a < f64Order b)

/-- The IEEE `≤` of 00_scope.md R9. -/
def fle (a b : F64) : Bool :=
  !f64IsNaN a && !f64IsNaN b && decide (f64Order a ≤ f64Order b)

/-! ## Conversions -/

/-- An integer as a binary64 value. -/
def f64OfInt (v : Int) : F64 := roundRatio (decide (v < 0)) v.natAbs 1 0

/-- The binary64 value nearest the decimal `± digits / 10 ^ places`. -/
def f64OfDecimal (negative : Bool) (digits places : Nat) : F64 :=
  roundRatio negative digits (10 ^ places) 0

/-- The pattern is a binary32 NaN. -/
def f32IsNaN (w : Word) : Bool := w.toNat / 2 ^ 23 % 2 ^ 8 == 255 && w.toNat % 2 ^ 23 != 0

/-- A binary32 value that is not a NaN, converted exactly to binary64 (41_window.md R131). -/
def f64OfF32 (w : Word) : F64 :=
  let exponent := w.toNat / 2 ^ 23 % 2 ^ 8
  let fraction := w.toNat % 2 ^ 23
  if exponent = 255 then f64Inf w.msb
  else roundRatio w.msb (if exponent = 0 then fraction else fraction + 2 ^ 23) 1
    ((max exponent 1 : Nat) - 150)

end Sys2Proof.Machine
end

