-- ==== Sys2Proof/Machine/Params.lean ====
section
/-! DEFINITION. The implementation parameters of 00_scope.md R5, R6 and R11, at this hardware's
values (log entry 11). -/

namespace Sys2Proof.Machine

/-- `FRAMES`: samples per frame, the transform size of the pipeline (00_scope.md R5). -/
def frameSize : Nat := 4096

/-- `OVERLAP`: samples consumed between successive frames (00_scope.md R5). -/
def overlap : Nat := 1365

/-- `RING_SLOTS` (00_scope.md R5). -/
def ringSlots : Nat := 8

/-- `NOTES` (00_scope.md R5). -/
def notes : Nat := 12

/-- `ROW_EVERY`: processed frames per chromagram row (00_scope.md R5). -/
def rowEvery : Nat := 5

/-- `MAX_W`: the window width that fixes the fingerprint length (00_scope.md R5). -/
def maxWidth : Nat := 16

/-- `BUDGET`: 120 s at 11025 Hz (00_scope.md R6). -/
def budget : Nat := 120 * 11025

/-- `MIN_CALC`: 7 s at 11025 Hz (00_scope.md R6). -/
def minCalc : Nat := 7 * 11025

/-- `MIN_CHUNK`: two frames (00_scope.md R6). -/
def minChunk : Nat := 2 * frameSize

/-- `BAND_LO` (00_scope.md R6). -/
def bandLo : Nat := 8

/-- `BAND_HI` (00_scope.md R6). -/
def bandHi : Nat := 1857

/-- `SIN_CAP` (00_scope.md R6). -/
def sinCap : Nat := 65536

/-- `SUBFP_CAP` (00_scope.md R6). -/
def subfpCap : Nat := 256

/-- `OUT_CAP` (00_scope.md R6). -/
def outCap : Nat := 8192

/-- `CARRY_CAP` (00_scope.md R6). -/
def carryCap : Nat := frameSize - 1

/-- `MAX_FRAMES`: the most frames a session processes (00_scope.md R11). -/
def maxFrames : Nat := (budget - frameSize) / overlap + 1

/-- `ROWS_CAP` (00_scope.md R11). -/
def rowsCap : Nat := maxFrames / rowEvery

/-- The symbols `SYM` can hold (10_state.md R49). -/
def symCap : Nat := 33 * subfpCap

/-- The bytes `RAW` can hold (10_state.md R49). -/
def rawCap : Nat := 4 + 3 * symCap / 8 + 5 * 4 * subfpCap / 8

/-- The elements of `AUX_k`, for the transform size `N = 2^k`: `4 N` (10_state.md R47, 40_fft.md
R101). -/
def auxElements (k : Nat) : Nat := 4 * 2 ^ k

/-- `ALG_ID` (00_scope.md R5). -/
def algId : Byte := 1

/-- `NORMAL_BITS` (00_scope.md R5). -/
def normalBits : Nat := 3

/-- `EXC_BITS` (00_scope.md R5). -/
def excBits : Nat := 5

/-- `MAX_NORMAL` (00_scope.md R5). -/
def maxNormal : Nat := 7

/-- `PI`: the binary64 value nearest π (00_scope.md R9). -/
def f64Pi : F64 := 0x400921FB54442D18#64

def f64One : F64 := 0x3FF0000000000000#64

def f64Two : F64 := 0x4000000000000000#64

def f64Half : F64 := 0x3FE0000000000000#64

def f64MinusOne : F64 := 0xBFF0000000000000#64

/-- `+0.0`. -/
def f64PlusZero : F64 := 0#64

/-- `WIN_A` = 0.54 (00_scope.md R5, 41_window.md R132). -/
def winA : F64 := 0x3FE147AE147AE148#64

/-- `WIN_B` = 0.46 (00_scope.md R5, 41_window.md R132). -/
def winB : F64 := 0x3FDD70A3D70A3D71#64

/-- `SILENCE` = 0.01 (00_scope.md R5, 42_chroma.md R160). -/
def silence : F64 := 0x3F847AE147AE147B#64

/-- `FULL_SCALE` = 32768 (00_scope.md R6). -/
def fullScale : F64 := 0x40E0000000000000#64

/-- `FIR` = [0.25, 0.75, 1.0, 0.75, 0.25], the oldest slot's tap first (00_scope.md R5,
42_chroma.md R159). -/
def firTaps : List F64 :=
  [0x3FD0000000000000#64, 0x3FE8000000000000#64, 0x3FF0000000000000#64, 0x3FE8000000000000#64,
   0x3FD0000000000000#64]

end Sys2Proof.Machine
end

