-- ==== Sys2Proof/Machine/State.lean ====
section
/-! DEFINITION. The state of HMP-FPE (10_state.md, 20_memory.md R60) as plain data, why a step can
stop, and the state after reset (10_state.md R51, 70_reset_and_hazards.md R300). -/

namespace Sys2Proof.Machine

/-- The error codes of `STATUS.ERR` (60_exceptions.md R281). Codes 8 to 15 never occur. -/
inductive ErrCode where
  | ok
  | allocationFailed
  | insufficientLength
  | invalidFrameLength
  | alreadyInUse
  | invalidState
  | invalidArgument
  | illegalCommand
  deriving DecidableEq, Repr

/-- The PCM sample formats of `CTRL.FMT` and `SESSION_FMT.FMT` (10_state.md R28). -/
inductive SampleFormat where
  | int16
  | float32
  deriving DecidableEq, Repr

/-- What is built for one transform size `N = 2^k`: `TAB_COS_k`, `TAB_SIN_k` (10_state.md R46) and
`AUX_k` (10_state.md R47): `auxLen` elements, whose contents are free and named by the number of
transforms that have used it (log entry 5). -/
structure SizeCache where
  tabCos : List F64
  tabSin : List F64
  auxLen : Nat
  auxRuns : Nat
  deriving DecidableEq, Repr

/-- The whole state. An array's unlisted elements have not been written since the last reset. -/
structure State where
  /-- `STATUS.ERR` (10_state.md R25). `STATE` and `BUSY` are derived. -/
  err : ErrCode
  /-- `ARG0` (10_state.md R26). -/
  arg0 : Word
  /-- `RESULT.RES` (10_state.md R27). -/
  result : Bool
  /-- `CTRL.FMT` (10_state.md R28). -/
  ctrlFmt : SampleFormat
  /-- `FRAMES_PROCESSED` (10_state.md R29). -/
  framesProcessed : Word
  /-- `ROW` (10_state.md R30). -/
  row : Word
  /-- `COEFF[2:0]` (10_state.md R31). -/
  coeff : BitVec 3
  /-- `NOTE_INDEX[2:0]` (10_state.md R32). -/
  noteIndex : BitVec 3
  /-- `CARRY_LEN` (10_state.md R33). -/
  carryLen : Word
  /-- `BITS_INDEX` (10_state.md R34). -/
  bitsIndex : Word
  /-- `FP_LEN` (10_state.md R35). -/
  fpLen : Word
  /-- `BYTES_LEN` (10_state.md R36). -/
  bytesLen : Word
  /-- `OUT_LEN` (10_state.md R37). -/
  outLen : Word
  /-- `TABLE_VALID` (10_state.md R38). -/
  tableValid : Word
  /-- `SESSION_FMT.FMT` (10_state.md R39). -/
  sessionFmt : SampleFormat
  /-- `LIVE` (10_state.md R41). -/
  live : Bool
  /-- `FINAL` (10_state.md R41). -/
  finalized : Bool
  /-- `IMG` (10_state.md R45). -/
  img : Bool
  /-- `SIN` (20_memory.md R60). -/
  sin : Cells 32
  /-- `FB` (10_state.md R42). -/
  fb : Cells 64
  /-- `SUBFP` (20_memory.md R60). -/
  subfp : Cells 32
  /-- `OUT` (20_memory.md R60). -/
  out : Cells 8
  /-- `CARRY` (10_state.md R43). -/
  carry : Cells 64
  /-- `RING`, element `[s][n]` at `12 * s + n` (10_state.md R44). -/
  ring : Cells 64
  /-- `CHROMA`, element `[r][n]` at `12 * r + n` (10_state.md R45). -/
  chroma : Cells 64
  /-- `SYM` (10_state.md R49). -/
  sym : Cells 6
  /-- `RAW` (10_state.md R49). -/
  raw : Cells 8
  /-- The built sizes, by `k` (10_state.md R46, R47). -/
  caches : Memory SizeCache
  /-- The model's own: the actions of host and platform not yet performed, oldest first (log entry
  1). -/
  pending : List HostAction
  /-- The model's own: what the host's last read returned (log entry 2). -/
  lastRead : Option ReadData
  /-- The model's own: draws of `alloc_ok` the environment has settled, next first; past them the
  draws are `Config.allocOk` (log entry 3). -/
  allocDraws : List Bool
  /-- The model's own: how many draws have been made (log entry 3). -/
  drawCount : Nat
  /-- The model's own: how many platform resets there have been (log entry 4). -/
  resetCount : Nat
  deriving DecidableEq, Repr

/-- Why the machine stops: host accesses that are not admitted, so that the host is stuck
(20_memory.md R64, 60_exceptions.md R294). Each is raised by `step` only, on the host's action, and
is safe: the spec gives such an access no step. No command raises one. -/
inductive Fault where
  /-- A CSR access whose byte offset is not a multiple of 4. Raised by a host read or write. Safe. -/
  | misalignedCsrOffset
  /-- An index outside its space. Raised by a host read or write. Safe. -/
  | indexOutsideSpace
  /-- A host write to `OUT`. Safe. -/
  | writeToOut
  deriving DecidableEq, Repr

/-- Why the model has no meaning to give. -/
inductive Refusal where
  /-- The instruction of that mnemonic has no meaning yet. Raised by `exec` alone; safe. No arm of
  `exec` answers it. -/
  | notModelled (mnemonic : String)
  deriving DecidableEq, Repr

/-- The state right after reset (10_state.md R51): every register 0, no session, no table built, no
array element written. The model's own fields are empty or 0 (log entries 1 to 4). -/
def State.reset : State where
  err := .ok
  arg0 := 0
  result := false
  ctrlFmt := .int16
  framesProcessed := 0
  row := 0
  coeff := 0
  noteIndex := 0
  carryLen := 0
  bitsIndex := 0
  fpLen := 0
  bytesLen := 0
  outLen := 0
  tableValid := 0
  sessionFmt := .int16
  live := false
  finalized := false
  img := false
  sin := []
  fb := []
  subfp := []
  out := []
  carry := []
  ring := []
  chroma := []
  sym := []
  raw := []
  caches := []
  pending := []
  lastRead := none
  allocDraws := []
  drawCount := 0
  resetCount := 0

end Sys2Proof.Machine
end

