-- ==== Sys2Proof/Machine/Ops.lean ====
section
/-! DEFINITION. The named operations over registers and memories that the meanings share. -/

namespace Sys2Proof.Machine

/-! ## Ending a command -/

/-- `raise E` (00_scope.md R10): the error code is written and nothing else changes. There is no
handler, saved state or return (60_exceptions.md R280, R286). -/
def State.raise (e : ErrCode) (s : State) : State := { s with err := e }

/-- A command that completes writes `ERR` 0 (00_scope.md R10). -/
def State.complete (s : State) : State := { s with err := .ok }

/-! ## Reading arrays

An element that has not been written since reset reads as a free value (93_implementation_defined.md
U1). -/

/-- The content after reset of element `index` of an array. -/
def State.unwritten (s : State) (w : Nat) (array : ArrayName) (index : Nat) : BitVec w :=
  Config.powerOn w array s.resetCount index

/-- `MemRead(SIN, i)`. -/
def State.sinAt (s : State) (i : Nat) : Word := (s.sin.read? i).getD (s.unwritten 32 .sin i)

/-- `MemRead(FB, i)`. -/
def State.fbAt (s : State) (i : Nat) : F64 := (s.fb.read? i).getD (s.unwritten 64 .fb i)

/-- `MemRead(SUBFP, i)`. -/
def State.subfpAt (s : State) (i : Nat) : Word := (s.subfp.read? i).getD (s.unwritten 32 .subfp i)

/-- `MemRead(OUT, i)`. -/
def State.outAt (s : State) (i : Nat) : Byte := (s.out.read? i).getD (s.unwritten 8 .out i)

/-- `CARRY[i]`. -/
def State.carryAt (s : State) (i : Nat) : F64 := (s.carry.read? i).getD (s.unwritten 64 .carry i)

/-- Element `i` of `RING`; `RING[slot][n]` is element `12 * slot + n`. -/
def State.ringAt (s : State) (i : Nat) : F64 := (s.ring.read? i).getD (s.unwritten 64 .ring i)

/-- Element `i` of `CHROMA`; `CHROMA[r][n]` is element `12 * r + n`. -/
def State.chromaAt (s : State) (i : Nat) : F64 := (s.chroma.read? i).getD (s.unwritten 64 .chroma i)

/-- Element `i` of `SYM`, read by no rule (10_state.md R49). -/
def State.symAt (s : State) (i : Nat) : BitVec 6 := (s.sym.read? i).getD (s.unwritten 6 .sym i)

/-- Element `i` of `RAW`, read by no rule (10_state.md R49). -/
def State.rawAt (s : State) (i : Nat) : Byte := (s.raw.read? i).getD (s.unwritten 8 .raw i)

/-- Element `i` of `AUX_k`, if `AUX_k` is allocated and has that element: read by no rule (10_state.md
R47). -/
def State.auxAt (s : State) (k i : Nat) : Option F64 :=
  (s.caches.read? k).bind fun c =>
    if i < c.auxLen then some (Config.auxContents s.resetCount k c.auxRuns i) else none

/-- `SIN[0..n)`. -/
def State.sinSlice (s : State) (n : Nat) : List Word := s.sin.slice (s.unwritten 32 .sin) 0 n

/-- `FB[0..n)`. -/
def State.fbSlice (s : State) (n : Nat) : List F64 := s.fb.slice (s.unwritten 64 .fb) 0 n

/-- `SUBFP[0..n)`. -/
def State.subfpSlice (s : State) (n : Nat) : List Word := s.subfp.slice (s.unwritten 32 .subfp) 0 n

/-- `CARRY[0..n)`. -/
def State.carrySlice (s : State) (n : Nat) : List F64 := s.carry.slice (s.unwritten 64 .carry) 0 n

/-- The first `n` elements of `CHROMA`. -/
def State.chromaSlice (s : State) (n : Nat) : List F64 :=
  s.chroma.slice (s.unwritten 64 .chroma) 0 n

/-! ## Writing arrays -/

/-- Writes `FB[0..|vs|)`. -/
def State.writeFb (s : State) (vs : List F64) : State := { s with fb := s.fb.splice 0 vs }

/-- Writes `SUBFP[0..|vs|)`. -/
def State.writeSubfp (s : State) (vs : List Word) : State := { s with subfp := s.subfp.splice 0 vs }

/-- Writes the 12 notes of one slot of `RING`. -/
def State.writeRingSlot (s : State) (slot : Nat) (vs : List F64) : State :=
  { s with ring := s.ring.splice (notes * slot) vs }

/-- Appends one row to `CHROMA` at `ROW` and increments `ROW` (42_chroma.md R158, R161). -/
def State.appendRow (s : State) (vs : List F64) : State :=
  { s with chroma := s.chroma.splice (notes * s.row.toNat) vs, row := s.row + 1 }

/-- Replaces the first elements of `CHROMA` by the integral image and sets `IMG`
(43_classifier.md R181). -/
def State.writeImage (s : State) (vs : List F64) : State :=
  { s with chroma := s.chroma.splice 0 vs, img := true }

/-- Keeps `vs` as the carry-over (45_controller.md R250). -/
def State.storeCarry (s : State) (vs : List F64) : State :=
  { s with carry := s.carry.splice 0 vs, carryLen := BitVec.ofNat 32 vs.length }

/-- Discards the carry-over (45_controller.md R253). -/
def State.dropCarry (s : State) : State := { s with carryLen := 0 }

/-! ## Registers of the session -/

/-- Takes the session slot (45_controller.md R244). -/
def State.openSession (s : State) : State :=
  { s with
    live := true, finalized := false, img := false
    framesProcessed := 0, row := 0, coeff := 0, noteIndex := 0, carryLen := 0, bitsIndex := 0
    sessionFmt := s.ctrlFmt }

/-- Releases the session slot (45_controller.md R246). -/
def State.closeSession (s : State) : State :=
  { s with
    live := false, finalized := false, img := false
    framesProcessed := 0, row := 0, coeff := 0, noteIndex := 0, carryLen := 0 }

/-- Marks the session finalized (45_controller.md R262). -/
def State.finalize (s : State) : State := { s with finalized := true }

/-- Writes `RESULT.RES` (10_state.md R27). -/
def State.answer (s : State) (b : Bool) : State := { s with result := b }

/-- Advances `NOTE_INDEX`, modulo 8 by its width (42_chroma.md R156). -/
def State.advanceNote (s : State) : State := { s with noteIndex := s.noteIndex + 1 }

/-- Writes `COEFF`. -/
def State.setCoeff (s : State) (v : BitVec 3) : State := { s with coeff := v }

/-- Counts one processed frame: `FRAMES_PROCESSED` rises by 1365 (45_controller.md R252). -/
def State.countFrame (s : State) : State :=
  { s with framesProcessed := s.framesProcessed + BitVec.ofNat 32 overlap }

/-! ## The agents outside the engine -/

/-- Replaces the list of actions not yet performed. -/
def State.withPending (s : State) (actions : List HostAction) : State :=
  { s with pending := actions }

/-- The state after a platform reset: that of 70_reset_and_hazards.md R300, with the actions still to
come and the environment's draws as they were. The contents of the arrays are new free values. -/
def State.platformReset (s : State) : State :=
  { State.reset with
    pending := s.pending
    lastRead := s.lastRead
    allocDraws := s.allocDraws
    drawCount := s.drawCount
    resetCount := s.resetCount + 1 }

/-- The value of the next draw of `alloc_ok` (40_fft.md R101): settled by the environment, or free. -/
def State.nextDraw (s : State) : Bool := s.allocDraws.head?.getD (Config.allocOk s.drawCount)

/-- The draw has been made. -/
def State.drawn (s : State) : State :=
  { s with allocDraws := s.allocDraws.tail, drawCount := s.drawCount + 1 }

end Sys2Proof.Machine
end

