-- ==== Sys2Proof/Machine/Operands.lean ====
section
/-! DEFINITION. The operand `ARG0`, its range checks (60_exceptions.md R282) and the sample words. -/

namespace Sys2Proof.Machine

/-- `zext_32(csr[ARG0])` (30_encoding.md R83). -/
def State.arg (s : State) : Nat := s.arg0.toNat

/-- `log2 N` for an admitted transform size, `N` in {4, 8, ..., 4096} (40_fft.md R112). -/
def transformLog? (n : Nat) : Option Nat := (List.range' 2 11).find? fun k => n == 2 ^ k

/-- `Norm(word, fmt)` of 41_window.md R131; `none` marks a NaN. -/
def norm (fmt : SampleFormat) (w : Word) : Option F64 :=
  match fmt with
  | .int16 => some (fdiv (f64OfInt (w.extractLsb' 0 16).toInt) fullScale)
  | .float32 =>
    if f32IsNaN w then none
    else
      let f := f64OfF32 w
      if flt f f64MinusOne then some f64MinusOne
      else if flt f64One f then some f64One
      else some f

/-- The normalised samples of some words, or none if one of them is a NaN. -/
def normAll (fmt : SampleFormat) (ws : List Word) : Option (List F64) :=
  let x := ws.map (norm fmt)
  if x.any (·.isNone) then none else some (x.filterMap id)

end Sys2Proof.Machine
end

