-- ==== Sys2Proof/Machine/Elementary.lean ====
section
/-! DEFINITION. `COS`, `SIN` and `LOG`, correctly rounded (00_scope.md R9). Each encloses the true
value between two fixed-point numbers and answers where both round to the same binary64 value; where
they do not, or for an argument no rule of the spec applies the function to, the value is the free
`Config.elementary` (log entry 7). -/

namespace Sys2Proof.Machine

/-- `v / 2 ^ p` rounded to binary64. -/
def roundFixed (p : Nat) (v : Int) : F64 := roundRatio (decide (v < 0)) v.natAbs 1 (-(p : Int))

/-- The rounding of every number between `lo / 2 ^ p` and `hi / 2 ^ p`, if they all round alike:
rounding is monotone, so the ends decide. -/
def roundEnclosure (p : Nat) (lo hi : Int) : Option F64 :=
  if roundFixed p lo = roundFixed p hi then some (roundFixed p lo) else none

/-! ## Sine and cosine -/

/-- Adds `count` terms of the Taylor series in fixed point, from the term `x ^ j / j!`, taking every
second term with alternating sign: the sum of `(-1)^i x^(j + 2 i) / (j + 2 i)!`. -/
def taylorSum (p x : Nat) : (count j term : Nat) → Int
  | 0, _, _ => 0
  | count + 1, j, term =>
    let t₁ := term * x / (2 ^ p * (j + 1))
    let t₂ := t₁ * x / (2 ^ p * (j + 2))
    (term : Int) - taylorSum p x count (j + 2) t₂

/-- `|a| * 2 ^ p` for a finite `a`, rounded down. -/
def fixedOf (p : Nat) (a : F64) : Nat :=
  let e := f64Scale a + p
  f64Significand a * 2 ^ e.toNat / 2 ^ (-e).toNat

/-- The error bound of `taylorSum` for `|x| < 8`, in units of `2 ^ -p`: a truncation of one unit grows
by at most `8 ^ 8 / 8! < 417` on its way through the later terms, so each of at most 112 terms is off
by less than `224 * 417`; the first omitted term is below 1. -/
def taylorSlack : Int := 2 ^ 32

/-- The enclosure of the cosine of `a`, `|a| < 8`, with `p` fractional bits and `count` terms. -/
def cosEnclosure (p count : Nat) (a : F64) : Option F64 :=
  let v := taylorSum p (fixedOf p a) count 0 (2 ^ p)
  roundEnclosure p (v - taylorSlack) (v + taylorSlack)

/-- The enclosure of the sine of `a`, `|a| < 8`: the series of `|a|`, with the sign of `a`. -/
def sinEnclosure (p count : Nat) (a : F64) : Option F64 :=
  let x := fixedOf p a
  let v := taylorSum p x count 1 x
  let v := if f64Negative a then -v else v
  roundEnclosure p (v - taylorSlack) (v + taylorSlack)

/-- The arguments the trigonometric tables and the window use lie in `[0, 2π)` (40_fft.md R102,
41_window.md R132); the model computes for `|a| < 8`. -/
def trigComputed (a : F64) : Bool :=
  f64IsFinite a && decide (a.toNat % 2 ^ 63 < 0x4020000000000000)

/-- `COS` of 00_scope.md R9. -/
def fcos (a : F64) : F64 :=
  if f64IsZero a then f64One
  else if trigComputed a then
    (cosEnclosure 256 64 a <|> cosEnclosure 512 112 a).getD (Config.elementary .cos a)
  else Config.elementary .cos a

/-- `SIN` of 00_scope.md R9. -/
def fsin (a : F64) : F64 :=
  if f64IsZero a then a
  else if trigComputed a then
    (sinEnclosure 256 64 a <|> sinEnclosure 512 112 a).getD (Config.elementary .sin a)
  else Config.elementary .sin a

/-! ## Natural logarithm -/

/-- The sum of `count` terms of `z + z^3/3 + z^5/5 + …` in fixed point, from `power = z ^ j`, where
`zz` is `z²`; every operation rounds down. -/
def atanhSum (p zz : Nat) : (count j power : Nat) → Nat
  | 0, _, _ => 0
  | count + 1, j, power => power / j + atanhSum p zz count (j + 2) (power * zz / 2 ^ p)

/-- The error bound of `atanhSum` for `z ≤ 1/3` and `3 * count ≥ p`, in units of `2 ^ -p`. -/
def atanhSlack (count : Nat) : Nat := 4 * count + 4

/-- `atanh (n / d)` in fixed point, rounded down within `atanhSlack`, for `3 n ≤ d`. -/
def atanhFixed (p count n d : Nat) : Nat :=
  atanhSum p (n * n * 2 ^ p / (d * d)) count 1 (n * 2 ^ p / d)

/-- The enclosure of `ln a` for a positive finite `a`: with `a = f * 2 ^ k` and `1 ≤ f < 2`, it is
`k * ln 2 + ln f`, where `ln 2 = 2 atanh (1/3)` and `ln f = 2 atanh ((f - 1) / (f + 1))`. -/
def logEnclosure (p count : Nat) (a : F64) : Option F64 :=
  let m := f64Significand a
  let l := Nat.log2 m
  let k : Int := f64Scale a + l
  let lnTwo : Int := 2 * atanhFixed p count 1 3
  let lnF : Int := 2 * atanhFixed p count (m - 2 ^ l) (m + 2 ^ l)
  let slack : Int := 2 * atanhSlack count
  let lo := lnF + k * lnTwo + min 0 (k * slack)
  let hi := lnF + slack + k * lnTwo + max 0 (k * slack)
  roundEnclosure p lo hi

/-- `LOG` of 00_scope.md R9, the natural logarithm (43_classifier.md R184). -/
def flog (a : F64) : F64 :=
  if a = f64One then f64PlusZero
  else if f64IsFinite a && !f64IsZero a && !f64Negative a then
    (logEnclosure 256 128 a <|> logEnclosure 512 256 a).getD (Config.elementary .log a)
  else Config.elementary .log a

end Sys2Proof.Machine
end

