-- ==== Sys2Proof/Machine/TrigTables.lean ====
section
/-! DEFINITION. The trigonometric table cache (40_fft.md R101 to R103). -/

namespace Sys2Proof.Machine

/-- The angle of entry `i` of the tables for `N = 2^k`: `((2.0 * PI) * i) / N` (40_fft.md R102). -/
def tableAngle (k i : Nat) : F64 :=
  fdiv (fmul (fmul f64Two f64Pi) (f64OfInt i)) (f64OfInt (2 ^ k : Nat))

/-- `TAB_COS_k` (40_fft.md R102). -/
def cosTable (k : Nat) : List F64 := (List.range (2 ^ k)).map fun i => fcos (tableAngle k i)

/-- `TAB_SIN_k` (40_fft.md R102). -/
def sinTable (k : Nat) : List F64 := (List.range (2 ^ k)).map fun i => fsin (tableAngle k i)

/-- Builds the tables and allocates the `4 N` elements of the auxiliary buffer for `N = 2^k`, and sets
the valid bit (40_fft.md R101). -/
def State.buildTables (s : State) (k : Nat) : State :=
  { s with
    caches := s.caches.splice k [⟨cosTable k, sinTable k, auxElements k, 0⟩]
    tableValid := s.tableValid ||| BitVec.ofNat 32 (2 ^ k) }

/-- `EnsureTables(k)` of 40_fft.md R101: whether it succeeds, and the state after it. A failed draw
builds nothing. -/
def State.ensureTables (s : State) (k : Nat) : Bool × State :=
  if s.tableValid.getLsbD k then (true, s)
  else if s.nextDraw then (true, s.drawn.buildTables k)
  else (false, s.drawn)

/-- The cache entry a transform of size `2^k` reads. -/
def State.cacheOf (s : State) (k : Nat) : SizeCache := (s.caches.read? k).getD ⟨[], [], 0, 0⟩

/-- A transform of size `2^k` has used `AUX_k`, whose contents are now other free values (10_state.md
R47). -/
def State.touchAux (s : State) (k : Nat) : State :=
  match s.caches.read? k with
  | none => s
  | some c => { s with caches := s.caches.splice k [{ c with auxRuns := c.auxRuns + 1 }] }

end Sys2Proof.Machine
end

