-- ==== Sys2Proof/Machine/Fft.lean ====
section
/-! DEFINITION. The real FFT engine (40_fft.md R104 to R111) and `FFT_FORWARD` (R112). -/

namespace Sys2Proof.Machine

/-- `rev_b(i)`: the reversal of the low `b` bits of `i` (00_scope.md R7). -/
def reverseBits : (b : Nat) → (i : Nat) → Nat
  | 0, _ => 0
  | b + 1, i => i % 2 * 2 ^ b + reverseBits b (i / 2)

/-- The real and imaginary parts of the half-size transform, `zr` and `zi` of 40_fft.md R111. -/
abbrev Complexes := Array F64 × Array F64

/-- Element `i` of an array of the engine. The rules read only elements they wrote. -/
def elem (a : Array F64) (i : Nat) : F64 := a.getD i f64PlusZero

/-- Packing and bit-reversal reorder of `x[0..2^k)` (40_fft.md R105, R106). -/
def fftReorder (k : Nat) (x : Array F64) : Complexes :=
  let r := (List.range (2 ^ (k - 1))).map (reverseBits (k - 1))
  ((r.map fun j => elem x (2 * j)).toArray, (r.map fun j => elem x (2 * j + 1)).toArray)

/-- One butterfly: values `u` and `v`, the twiddle at table index `tw` (40_fft.md R111). -/
def butterfly (cosT sinT : Array F64) (tw u v : Nat) (z : Complexes) : Complexes :=
  match z with
  | (zr, zi) =>
    let c := elem cosT tw
    let sn := elem sinT tw
    let ar := elem zr v
    let ai := elem zi v
    let vr := fadd (fmul ar c) (fmul ai sn)
    let vi := fsub (fmul ai c) (fmul ar sn)
    let ur := elem zr u
    let ui := elem zi u
    ((zr.setIfInBounds u (fadd ur vr)).setIfInBounds v (fsub ur vr),
     (zi.setIfInBounds u (fadd ui vi)).setIfInBounds v (fsub ui vi))

/-- The stage of size `s = 2^stage`: blocks of `s` values, `s/2` butterflies each, the twiddle of
butterfly `j` at index `j * (N/s)` (40_fft.md R107, R111). -/
def fftStage (cosT sinT : Array F64) (k : Nat) (z : Complexes) (stage : Nat) : Complexes :=
  let s := 2 ^ stage
  (List.range (2 ^ (k - 1) / s)).foldl (fun z block =>
    (List.range (s / 2)).foldl (fun z j =>
      butterfly cosT sinT (j * (2 ^ k / s)) (block * s + j) (block * s + j + s / 2) z) z) z

/-- The half-size complex FFT, stage sizes 2, 4, ..., M (40_fft.md R107). -/
def halfFft (cosT sinT : Array F64) (k : Nat) (x : Array F64) : Complexes :=
  (List.range' 1 (k - 1)).foldl (fftStage cosT sinT k) (fftReorder k x)

/-- What the combine loop carries: the twiddle of the last bin and the output. -/
structure CombineState where
  wr : F64
  wi : F64
  y : Array F64

/-- Split and combine of bin `q`, after one step of the twiddle recurrence (40_fft.md R108, R109,
R111), into the layout of R110. -/
def combineBin (c1 s1 : F64) (m : Nat) (z : Complexes) (st : CombineState) (q : Nat) :
    CombineState :=
  match z, st with
  | (zr, zi), ⟨wr₀, wi₀, y⟩ =>
    let wr := fadd (fmul wr₀ c1) (fmul wi₀ s1)
    let wi := fsub (fmul wi₀ c1) (fmul wr₀ s1)
    let p := m - q
    let er := fmul (fadd (elem zr q) (elem zr p)) f64Half
    let ei := fmul (fsub (elem zi q) (elem zi p)) f64Half
    let or := fmul (fadd (elem zi q) (elem zi p)) f64Half
    let oi := fmul (fsub (elem zr p) (elem zr q)) f64Half
    let tr := fsub (fmul or wr) (fmul oi wi)
    let ti := fadd (fmul or wi) (fmul oi wr)
    ⟨wr, wi, (y.setIfInBounds q (fadd er tr)).setIfInBounds (m + q) (fadd ei ti)⟩

/-- `FFT_k` of 40_fft.md R111 with the tables `cosT` and `sinT`. -/
def fftWith (cosT sinT : Array F64) (k : Nat) (x : Array F64) : Array F64 :=
  let m := 2 ^ (k - 1)
  let z := halfFft cosT sinT k x
  let y := (Array.replicate (2 ^ k) f64PlusZero).setIfInBounds 0 (fadd (elem z.1 0) (elem z.2 0))
  let y := y.setIfInBounds m (fsub (elem z.1 0) (elem z.2 0))
  ((List.range' 1 (m - 1)).foldl (combineBin (elem cosT 1) (elem sinT 1) m z)
    ⟨f64One, f64PlusZero, y⟩).y

/-- `FFT_k(x)` with the tables the state holds (40_fft.md R111, R113). -/
def State.fft (s : State) (k : Nat) (x : List F64) : List F64 :=
  let c := s.cacheOf k
  (fftWith c.tabCos.toArray c.tabSin.toArray k x.toArray).toList

/-- The transform of `FB[0..2^k)` in place (40_fft.md R112), once the tables are built. -/
def State.transformFb (s : State) (k : Nat) : State :=
  (s.writeFb (s.fft k (s.fbSlice (2 ^ k)))).touchAux k

/-- `FFT_FORWARD` (40_fft.md R112). -/
def execFftForward (s : State) : Host.Outcome State Fault Refusal :=
  match transformLog? s.arg with
  | none => .next (s.raise .invalidArgument)
  | some k =>
    match s.ensureTables k with
    | (false, s₁) => .next (s₁.raise .allocationFailed)
    | (true, s₁) => .next (s₁.transformFb k).complete

end Sys2Proof.Machine
end

