-- ==== Sys2Proof/Machine/Classifier.lean ====
section
/-! DEFINITION. The integral image and the classifier bank (43_classifier.md R180 to R196). -/

namespace Sys2Proof.Machine

/-! ## Integral image -/

/-- The running sums of a row's notes (43_classifier.md R181, row 0). -/
def prefixSums : (left : F64) → List F64 → List F64
  | _, [] => []
  | left, c :: cs =>
    let v := fadd c left
    v :: prefixSums v cs

/-- Row 0 of the integral image (43_classifier.md R181). -/
def integralRow0 : List F64 → List F64
  | [] => []
  | c :: cs => c :: prefixSums c cs

/-- The notes after the first of a later row: `((C + left) + up) - diagonal`. -/
def integralNotes : (left diagonal : F64) → (up cur : List F64) → List F64
  | left, diagonal, u :: us, c :: cs =>
    let v := fsub (fadd (fadd c left) u) diagonal
    v :: integralNotes v u us cs
  | _, _, _, _ => []

/-- Row `x ≥ 1` of the integral image from row `x - 1` of the image and row `x` of the chromagram
(43_classifier.md R181). -/
def integralRow : (up cur : List F64) → List F64
  | u :: us, c :: cs =>
    let v := fadd c u
    v :: integralNotes v u us cs
  | _, _ => []

/-- The rows after `up`. -/
def integralRows : (up : List F64) → List (List F64) → List (List F64)
  | _, [] => []
  | up, r :: rs =>
    let v := integralRow up r
    v :: integralRows v rs

/-- `Integral()` of 43_classifier.md R181 on the rows of the chromagram. -/
def integralImage : List (List F64) → List (List F64)
  | [] => []
  | r :: rs =>
    let v := integralRow0 r
    v :: integralRows v rs

/-- The first `n` rows of 12 notes of a list of elements. -/
def rowsOf : (n : Nat) → List F64 → List (List F64)
  | 0, _ => []
  | n + 1, vs => vs.take notes :: rowsOf n (vs.drop notes)

/-- The integral image of `CHROMA[0..ROW-1]`, row after row. -/
def State.imageOf (s : State) : List F64 :=
  (integralImage (rowsOf s.row.toNat (s.chromaSlice (notes * s.row.toNat)))).flatten

/-- `Area` of 43_classifier.md R183 on the image `img`: rows `x1..x2`, notes `y1..y2`. The bounds are
integers, since an empty rectangle may end before row or note 0. -/
def area (img : Array F64) (x1 y1 x2 y2 : Int) : F64 :=
  let cell (x y : Int) : F64 := elem img (notes * x.toNat + y.toNat)
  if x2 < x1 ∨ y2 < y1 then f64PlusZero
  else if x1 = 0 ∧ y1 = 0 then cell x2 y2
  else if x1 = 0 then fsub (cell x2 y2) (cell x2 (y1 - 1))
  else if y1 = 0 then fsub (cell x2 y2) (cell (x1 - 1) y2)
  else fadd (fsub (fsub (cell x2 y2) (cell (x1 - 1) y2)) (cell x2 (y1 - 1)))
    (cell (x1 - 1) (y1 - 1))

/-! ## Shapes -/

/-- The six shapes, numbered 0 to 5 (43_classifier.md R185 to R190). -/
inductive Shape where
  | whole | noteHalves | rowHalves | checkerboard | noteThirds | rowThirds
  deriving DecidableEq, Repr

/-- The two compared sums of a shape at origin `(x, y)`, `h` notes by `w` rows (43_classifier.md R185
to R190). -/
def shapeSums (img : Array F64) (shape : Shape) (x y h w : Int) : F64 × F64 :=
  let a := area img
  let h2 := h / 2
  let w2 := w / 2
  let h3 := h / 3
  let w3 := w / 3
  match shape with
  | .whole => (a x y (x + w - 1) (y + h - 1), f64PlusZero)
  | .noteHalves =>
    (a x (y + h2) (x + w - 1) (y + h - 1),
     a x y (x + w - 1) (y + h2 - 1))
  | .rowHalves =>
    (a (x + w2) y (x + w - 1) (y + h - 1),
     a x y (x + w2 - 1) (y + h - 1))
  | .checkerboard =>
    (fadd (a x (y + h2) (x + w2 - 1) (y + h - 1)) (a (x + w2) y (x + w - 1) (y + h2 - 1)),
     fadd (a x y (x + w2 - 1) (y + h2 - 1)) (a (x + w2) (y + h2) (x + w - 1) (y + h - 1)))
  | .noteThirds =>
    (a x (y + h3) (x + w - 1) (y + 2 * h3 - 1),
     fadd (a x y (x + w - 1) (y + h3 - 1)) (a x (y + 2 * h3) (x + w - 1) (y + h - 1)))
  | .rowThirds =>
    (a (x + w3) y (x + 2 * w3 - 1) (y + h - 1),
     fadd (a x y (x + w3 - 1) (y + h - 1)) (a (x + 2 * w3) y (x + w - 1) (y + h - 1)))

/-- `Compare` of 43_classifier.md R184. -/
def compareAreas (a b : F64) : F64 := fsub (flog (fadd f64One a)) (flog (fadd f64One b))

/-- `Quantise` of 43_classifier.md R192: the Gray code of the band. -/
def quantise (v t0 t1 t2 : F64) : Nat :=
  if flt v t0 then 0
  else if flt v t1 then 1
  else if flt v t2 then 3
  else 2

/-! ## The bank -/

/-- One row of the classifier table (43_classifier.md R195). -/
structure Classifier where
  shape : Shape
  y : Nat
  h : Nat
  w : Nat
  t0 : F64
  t1 : F64
  t2 : F64
  deriving DecidableEq, Repr

/-- `CLASSIFIERS`: the table of 43_classifier.md R195, each threshold the binary64 value nearest its
decimal. -/
def classifiers : List Classifier :=
  let pos := f64OfDecimal false
  let neg := f64OfDecimal true
  [⟨.whole, 4, 3, 15, pos 198215 5, pos 235817 5, pos 263523 5⟩,
   ⟨.noteThirds, 4, 6, 15, neg 103809 5, neg 651211 6, neg 282167 6⟩,
   ⟨.noteHalves, 0, 4, 16, neg 298702 6, pos 119262 6, pos 558497 6⟩,
   ⟨.checkerboard, 8, 2, 12, neg 105439 6, pos 153946 7, pos 135898 6⟩,
   ⟨.checkerboard, 4, 4, 8, neg 142891 6, pos 258736 7, pos 200632 6⟩,
   ⟨.noteThirds, 0, 3, 5, neg 826319 6, neg 590612 6, neg 368214 6⟩,
   ⟨.noteHalves, 2, 2, 9, neg 557409 6, neg 233035 6, pos 534525 7⟩,
   ⟨.rowHalves, 7, 3, 4, neg 646826 7, pos 620476 8, pos 784847 7⟩,
   ⟨.rowHalves, 6, 2, 16, neg 192387 6, neg 29699 6, pos 215855 6⟩,
   ⟨.rowHalves, 1, 3, 2, neg 397818 7, neg 568076 8, pos 292026 7⟩,
   ⟨.rowThirds, 10, 1, 15, neg 53823 5, neg 369934 6, neg 190235 6⟩,
   ⟨.checkerboard, 6, 2, 10, neg 124877 6, pos 296483 7, pos 139239 6⟩,
   ⟨.rowHalves, 1, 1, 14, neg 101475 6, pos 225617 7, pos 231971 6⟩,
   ⟨.checkerboard, 5, 6, 4, neg 799915 7, neg 729616 8, pos 63262 6⟩,
   ⟨.noteHalves, 9, 2, 12, neg 272556 6, pos 19424 6, pos 302559 6⟩,
   ⟨.checkerboard, 4, 2, 14, neg 164292 6, neg 321188 7, pos 8463 5⟩]

/-- The 2-bit code of a classifier at row `i` of the image (43_classifier.md R194). -/
def Classifier.code (img : Array F64) (i : Nat) (c : Classifier) : Nat :=
  let s := shapeSums img c.shape i c.y c.h c.w
  quantise (compareAreas s.1 s.2) c.t0 c.t1 c.t2

/-- `SubFp(i)` of 43_classifier.md R194: classifier 0 gives the two highest bits. -/
def subFp (img : Array F64) (i : Nat) : Word :=
  classifiers.foldl (fun bits c => bits <<< 2 ||| BitVec.ofNat 32 (c.code img i)) 0

end Sys2Proof.Machine
end

