-- ==== Sys2Proof/Machine/Compress.lean ====
section
/-! DEFINITION. The fingerprint compressor (44_compress.md R210 to R219) and `COMPRESS` (R220). -/

namespace Sys2Proof.Machine

/-! ## Deltas and symbols -/

/-- The XOR of each value with the one before it. -/
def deltasAfter : (previous : Word) → List Word → List Word
  | _, [] => []
  | previous, s :: ss => (s ^^^ previous) :: deltasAfter s ss

/-- The deltas of 44_compress.md R211; the first value is unchanged. -/
def deltas : List Word → List Word
  | [] => []
  | s :: ss => s :: deltasAfter s ss

/-- The symbols of a delta from the listed bit positions on, `last` being the 1-based position of the
last set bit (44_compress.md R212). -/
def symbolsFrom (d : Word) : (positions : List Nat) → (last : Nat) → List Nat
  | [], _ => [0]
  | p :: ps, last =>
    if d.getLsbD p then (p + 1 - last) :: symbolsFrom d ps (p + 1) else symbolsFrom d ps last

/-- The symbols of one delta and its terminator (44_compress.md R212). -/
def deltaSymbols (d : Word) : List Nat := symbolsFrom d (List.range 32) 0

/-- `SYM` (44_compress.md R212). -/
def symbols (s : List Word) : List Nat := (deltas s).flatMap deltaSymbols

/-! ## Packing -/

/-- The low `count` bytes of `acc`, lowest first. -/
def lowBytes : (count acc : Nat) → List Byte
  | 0, _ => []
  | count + 1, acc => BitVec.ofNat 8 acc :: lowBytes count (acc / 256)

/-- `Pack` of 44_compress.md R214, from an accumulator `acc` that holds `n` bits: each value enters
above them, and the whole bytes leave. -/
def packFrom (width : Nat) : (acc n : Nat) → List Nat → List Byte
  | acc, n, [] => if 0 < n then [BitVec.ofNat 8 acc] else []
  | acc, n, v :: vs =>
    let acc := acc ||| (v % 2 ^ width) <<< n
    let n := n + width
    lowBytes (n / 8) acc ++ packFrom width (acc >>> (8 * (n / 8))) (n % 8) vs

/-- `Pack(v, width)` of 44_compress.md R214. -/
def pack (width : Nat) (v : List Nat) : List Byte := packFrom width 0 0 v

/-- Pass 1 (44_compress.md R213). -/
def pass1 (sym : List Nat) : List Byte := pack normalBits (sym.map fun x => min x maxNormal)

/-- Pass 2 (44_compress.md R215). -/
def pass2 (sym : List Nat) : List Byte :=
  pack excBits ((sym.filter fun x => decide (maxNormal ≤ x)).map fun x => x - maxNormal)

/-- `RAW` (44_compress.md R216): the header, its length `L` big-endian, then the two passes. -/
def rawBytes (s : List Word) : List Byte :=
  let l := s.length
  [algId, BitVec.ofNat 8 (l >>> 16), BitVec.ofNat 8 (l >>> 8), BitVec.ofNat 8 l] ++
    pass1 (symbols s) ++ pass2 (symbols s)

/-! ## Base64 -/

/-- The ASCII code of the base64 character of value `v` (44_compress.md R217). -/
def base64Char (v : Nat) : Byte :=
  BitVec.ofNat 8 <|
    if v < 26 then 0x41 + v
    else if v < 52 then 0x61 + (v - 26)
    else if v < 62 then 0x30 + (v - 52)
    else if v = 62 then 0x2D
    else 0x5F

/-- The four characters of a 24-bit group. -/
def base64Group (t : Nat) : List Byte :=
  [base64Char ((t >>> 18) % 64), base64Char ((t >>> 12) % 64), base64Char ((t >>> 6) % 64),
   base64Char (t % 64)]

/-- `B64` of 44_compress.md R217: three bytes to four characters, a last group of two bytes to three
characters, of one byte to two. -/
def base64 : List Byte → List Byte
  | a :: b :: c :: r =>
    base64Group (a.toNat <<< 16 ||| b.toNat <<< 8 ||| c.toNat) ++ base64 r
  | [a, b] => (base64Group (a.toNat <<< 16 ||| b.toNat <<< 8)).take 3
  | [a] => (base64Group (a.toNat <<< 16)).take 2
  | [] => []

/-! ## The function and the command -/

/-- `Compress(s)` of 44_compress.md R218. `SYM` and `RAW` are left in their buffers (R210, 10_state.md
R49). -/
def State.compress (s : State) (ws : List Word) : State :=
  let sym := symbols ws
  let raw := rawBytes ws
  let text := base64 raw
  { s with
    sym := s.sym.splice 0 (sym.map (BitVec.ofNat 6))
    raw := s.raw.splice 0 raw
    out := s.out.splice 0 text
    fpLen := BitVec.ofNat 32 ws.length
    bitsIndex := BitVec.ofNat 32 sym.length
    bytesLen := BitVec.ofNat 32 raw.length
    outLen := BitVec.ofNat 32 text.length }

/-- `COMPRESS` (44_compress.md R220). -/
def execCompress (s : State) : Host.Outcome State Fault Refusal :=
  if s.arg < 2 then .next (s.raise .insufficientLength)
  else if subfpCap < s.arg then .next (s.raise .invalidArgument)
  else .next (s.compress (s.subfpSlice s.arg)).complete

end Sys2Proof.Machine
end

