-- ==== Sys2Proof/Machine/Fingerprint.lean ====
section
/-! DEFINITION. `CALCULATE_FINGERPRINT` (45_controller.md R262). -/

namespace Sys2Proof.Machine

/-- The sub-fingerprints of rows 0 to `l - 1` of an image (43_classifier.md R194). -/
def subFingerprints (img : List F64) (l : Nat) : List Word :=
  (List.range l).map (subFp img.toArray)

/-- The fingerprint of the session, of length `l`: the integral image once, the sub-fingerprints into
`SUBFP`, then the compressor (45_controller.md R262). -/
def State.fingerprint (s : State) (l : Nat) : State :=
  let fp := subFingerprints s.imageOf l
  (((s.writeImage s.imageOf).writeSubfp fp).compress fp).finalize

/-- `CALCULATE_FINGERPRINT` (45_controller.md R262). The fingerprint length is `ROW - 15`, below 2
when `ROW < 17`. -/
def execCalculateFingerprint (s : State) : Host.Outcome State Fault Refusal :=
  if !s.live || s.finalized then .next (s.raise .invalidState)
  else if s.row.toNat < maxWidth - 1 + 2 then .next (s.raise .insufficientLength)
  else .next (s.fingerprint (s.row.toNat - (maxWidth - 1))).complete

end Sys2Proof.Machine
end

