-- ==== Sys2Proof/Machine/Chroma.lean ====
section
/-! DEFINITION. The chroma extractor (42_chroma.md R150 to R161). -/

namespace Sys2Proof.Machine

/-- `NOTE_TABLE[b]` of 42_chroma.md R151, in exact arithmetic. With `x = f_b / 27.5 =
2205 b / 22528` and `22528 = 11 * 2^11`, the note is `floor (12 log2 x) mod 12`, and
`floor (12 log2 x) = floor (log2 ((2205 b)^12 / 11^12)) - 132`, where 132 is a multiple of 12. -/
def noteOf (b : Nat) : Nat := Nat.log2 ((2205 * b) ^ 12 / 11 ^ 12) % 12

/-- The energy of bin `b` of the spectrum `y` (42_chroma.md R154). -/
def binEnergy (y : Array F64) (b : Nat) : F64 :=
  let re := elem y b
  let im := elem y (frameSize / 2 + b)
  fadd (fmul re re) (fmul im im)

/-- The 12 notes of a cleared ring slot after the energies of the analysis band are added to it in
increasing bin order (42_chroma.md R153, R155). -/
def noteEnergies (y : Array F64) : Array F64 :=
  (List.range' bandLo (bandHi + 1 - bandLo)).foldl (fun slot b =>
    slot.setIfInBounds (noteOf b) (fadd (elem slot (noteOf b)) (binEnergy y b)))
    (Array.replicate notes f64PlusZero)

/-- The slot tap `j` multiplies, for the write pointer `i` (42_chroma.md R159). -/
def tapSlot (i : BitVec 3) (j : Nat) : Nat := (i.toNat + ringSlots - rowEvery + j) % ringSlots

/-- The filtered value of note `n`: five taps, oldest slot first, from +0.0 (42_chroma.md R158). -/
def State.filteredNote (s : State) (n : Nat) : F64 :=
  firTaps.zipIdx.foldl (fun acc t =>
    fadd acc (fmul (s.ringAt (notes * tapSlot s.noteIndex t.2 + n)) t.1)) f64PlusZero

/-- The L2 norm of a vector, its squares summed in note order (42_chroma.md R158, R160). -/
def l2Norm (v : List F64) : F64 := fsqrt (v.foldl (fun ss x => fadd ss (fmul x x)) f64PlusZero)

/-- The vector over its norm, or all +0.0 when the norm is below the silence threshold (42_chroma.md
R158, R160). -/
def normaliseRow (v : List F64) : List F64 :=
  let n := l2Norm v
  v.map fun x => if flt n silence then f64PlusZero else fdiv x n

/-- `EmitRow` of 42_chroma.md R158. -/
def State.emitRow (s : State) : State :=
  s.appendRow (normaliseRow ((List.range notes).map s.filteredNote))

/-- The row gate (42_chroma.md R157): `COEFF` counts to 5, then a row is emitted. -/
def State.gateRow (s : State) : State :=
  let c := s.coeff + 1
  if c.toNat = rowEvery then (s.setCoeff 0).emitRow else s.setCoeff c

/-- `ChromaStep` of 42_chroma.md R153 on the spectrum of one processed frame. -/
def State.chromaStep (s : State) (y : List F64) : State :=
  ((s.writeRingSlot s.noteIndex.toNat (noteEnergies y.toArray).toList).advanceNote).gateRow

end Sys2Proof.Machine
end

