-- ==== Sys2Proof/Machine/Flags.lean ====
section
/-! DEFINITION. The conditions the block computes: the two session predicates, the session state and
the `STATUS` word. The block has no arithmetic flags (10_state.md R52). -/

namespace Sys2Proof.Machine

/-- `NeedsSamples()` (45_controller.md R241). -/
def State.needsSamples (s : State) : Bool :=
  decide (s.framesProcessed.toNat + (frameSize - 1) < budget)

/-- `CanCalculate()` (45_controller.md R242). -/
def State.canCalculate (s : State) : Bool := decide (minCalc ≤ s.framesProcessed.toNat)

/-- The session states of 45_controller.md R243. -/
inductive SessionState where
  | none | empty | accumulating | ready | finalized
  deriving DecidableEq, Repr

/-- `state()` of 10_state.md R41. -/
def State.sessionState (s : State) : SessionState :=
  if !s.live then .none
  else if s.finalized then .finalized
  else if s.framesProcessed = 0 then .empty
  else if s.canCalculate then .ready
  else .accumulating

/-- `STATUS.STATE` (10_state.md R25). -/
def SessionState.code : SessionState → Nat
  | .none => 0
  | .empty => 1
  | .accumulating => 2
  | .ready => 3
  | .finalized => 4

/-- `STATUS.ERR` (60_exceptions.md R281). -/
def ErrCode.code : ErrCode → Nat
  | .ok => 0
  | .allocationFailed => 1
  | .insufficientLength => 2
  | .invalidFrameLength => 3
  | .alreadyInUse => 4
  | .invalidState => 5
  | .invalidArgument => 6
  | .illegalCommand => 7

/-- `STATUS` (10_state.md R23): `ERR` in `[3:0]`, `STATE` in `[6:4]`; `BUSY` reads 0 (R25). -/
def State.statusWord (s : State) : Word :=
  BitVec.ofNat 32 (s.err.code + 16 * s.sessionState.code)

/-- The `FMT` bit of a format (10_state.md R28). -/
def SampleFormat.bit : SampleFormat → Bool
  | .int16 => false
  | .float32 => true

/-- The format a `FMT` bit selects (10_state.md R28). -/
def sampleFormatOfBit (b : Bool) : SampleFormat := if b then .float32 else .int16

end Sys2Proof.Machine
end

