-- ==== Sys2Proof/Machine/Window.lean ====
section
/-! DEFINITION. The frame windower (41_window.md R130 to R133) and `WINDOW` (R135). -/

namespace Sys2Proof.Machine

/-- The step of the window angle, `2π/N` for `N` = 4096 (41_window.md R132). -/
def windowDelta : F64 := fdiv (fmul f64Two f64Pi) (f64OfInt (frameSize : Nat))

/-- The rest of the windowed frame from the recurrence values `c` and `s` of its first sample
(41_window.md R132, R133). -/
def windowFrom (cd sd : F64) : (c s : F64) → List F64 → List F64
  | _, _, [] => []
  | c, s, x :: xs =>
    fmul x (fsub winA (fmul winB c)) ::
      windowFrom cd sd (fsub (fmul c cd) (fmul s sd)) (fadd (fmul s cd) (fmul c sd)) xs

/-- `WindowFn` of 41_window.md R133. -/
def windowFn (x : List F64) : List F64 :=
  windowFrom (fcos windowDelta) (fsin windowDelta) f64One f64PlusZero x

/-- `WINDOW` (41_window.md R135). -/
def execWindow (s : State) : Host.Outcome State Fault Refusal :=
  if s.arg ≠ frameSize then .next (s.raise .invalidFrameLength)
  else
    match normAll s.ctrlFmt (s.sinSlice frameSize) with
    | none => .next (s.raise .invalidArgument)
    | some x => .next (s.writeFb (windowFn x)).complete

end Sys2Proof.Machine
end

