-- ==== Sys2Proof/Machine/Samples.lean ====
section
/-! DEFINITION. `ADD_SAMPLES` (45_controller.md R250 to R254). -/

namespace Sys2Proof.Machine

/-- `ProcessFrame` of 45_controller.md R252: window, transform, chroma step, count. -/
def State.processFrame (s : State) (f : List F64) : State :=
  let y := s.fft 12 (windowFn f)
  (((s.writeFb y).touchAux 12).chromaStep y).countFrame

/-- The frame loop of 45_controller.md R250 on the samples `b[p..|b|)`, and what is left of them.
Each pass drops 1365 samples, so `|b|` passes are more than enough. -/
def frameLoop : (passes : Nat) → (b : List F64) → State → List F64 × State
  | 0, b, s => (b, s)
  | passes + 1, b, s =>
    if frameSize ≤ b.length ∧ s.needsSamples then
      frameLoop passes (b.drop overlap) (s.processFrame (b.take frameSize))
    else (b, s)

/-- The carry-over after the frame loop (45_controller.md R250, R253): what is left, or nothing once
the budget is reached. -/
def State.keepRest (s : State) (rest : List F64) : State :=
  if s.needsSamples then s.storeCarry rest else s.dropCarry

/-- The frames of the carry-over followed by the new samples `x` (45_controller.md R250). -/
def State.consume (s : State) (x : List F64) : State :=
  let b := s.carrySlice s.carryLen.toNat ++ x
  let r := frameLoop b.length b s
  r.2.keepRest r.1

/-- `ADD_SAMPLES` (45_controller.md R250), its checks in the order of 60_exceptions.md R284. -/
def execAddSamples (s : State) : Host.Outcome State Fault Refusal :=
  if !s.live || s.finalized then .next (s.raise .invalidState)
  else if sinCap < s.arg then .next (s.raise .invalidArgument)
  else if s.arg < minChunk then .next (s.raise .insufficientLength)
  else if !s.needsSamples then .next s.complete
  else
    match normAll s.sessionFmt (s.sinSlice s.arg) with
    | none => .next (s.raise .invalidArgument)
    | some x =>
      match s.ensureTables 12 with
      | (false, s₁) => .next (s₁.raise .allocationFailed)
      | (true, s₁) => .next (s₁.consume x).complete

end Sys2Proof.Machine
end

