-- ==== Sys2Proof/Machine/Session.lean ====
section
/-! DEFINITION. `NOP`, the session commands and the queries (45_controller.md R240 to R246, R258,
R259). -/

namespace Sys2Proof.Machine

/-- `NOP` (45_controller.md R240). -/
def execNop (s : State) : Host.Outcome State Fault Refusal := .next s.complete

/-- `SESSION_OPEN` (45_controller.md R244). -/
def execSessionOpen (s : State) : Host.Outcome State Fault Refusal :=
  if s.live then .next (s.raise .alreadyInUse) else .next s.openSession.complete

/-- `SESSION_CLOSE` (45_controller.md R246). -/
def execSessionClose (s : State) : Host.Outcome State Fault Refusal :=
  if s.live then .next s.closeSession.complete else .next (s.raise .invalidState)

/-- `NEEDS_SAMPLES` (45_controller.md R258). -/
def execNeedsSamples (s : State) : Host.Outcome State Fault Refusal :=
  if s.live then .next (s.answer s.needsSamples).complete else .next (s.raise .invalidState)

/-- `CAN_CALCULATE` (45_controller.md R259). -/
def execCanCalculate (s : State) : Host.Outcome State Fault Refusal :=
  if s.live then .next (s.answer s.canCalculate).complete else .next (s.raise .invalidState)

end Sys2Proof.Machine
end

