-- ==== Sys2Proof/Machine/Dispatch.lean ====
section
/-! DEFINITION. One arm per command of 30_encoding.md R82. -/

namespace Sys2Proof.Machine

def exec (i : Instr) (s : State) : Host.Outcome State Fault Refusal :=
  match i with
  | .nop => Sys2Proof.Machine.execNop s
  | .sessionOpen => Sys2Proof.Machine.execSessionOpen s
  | .sessionClose => Sys2Proof.Machine.execSessionClose s
  | .addSamples => Sys2Proof.Machine.execAddSamples s
  | .needsSamples => Sys2Proof.Machine.execNeedsSamples s
  | .canCalculate => Sys2Proof.Machine.execCanCalculate s
  | .calculateFingerprint => Sys2Proof.Machine.execCalculateFingerprint s
  | .fftForward => Sys2Proof.Machine.execFftForward s
  | .window => Sys2Proof.Machine.execWindow s
  | .compress => Sys2Proof.Machine.execCompress s

end Sys2Proof.Machine
end

