-- ==== Sys2Proof/Machine/HostAccess.lean ====
section
/-! DEFINITION. What the agents outside the engine do to the block: host reads and writes of one
element (20_memory.md R61, R64, R65) and the platform's reset (70_reset_and_hazards.md R301). -/

namespace Sys2Proof.Machine

/-- A register that holds one bit. -/
def bitWord (b : Bool) : Word := if b then 1 else 0

/-- A host read of the register at an aligned offset (10_state.md R23, R40). -/
def State.csrAt (s : State) (offset : Nat) : Word :=
  match offset with
  | 0x04 => s.statusWord
  | 0x08 => s.arg0
  | 0x0C => bitWord s.result
  | 0x10 => bitWord s.ctrlFmt.bit
  | 0x14 => s.framesProcessed
  | 0x18 => s.row
  | 0x1C => s.coeff.setWidth 32
  | 0x20 => s.noteIndex.setWidth 32
  | 0x24 => s.carryLen
  | 0x28 => s.bitsIndex
  | 0x2C => s.fpLen
  | 0x30 => s.bytesLen
  | 0x34 => s.outLen
  | 0x38 => s.tableValid
  | 0x3C => bitWord s.sessionFmt.bit
  | _ => 0

/-- A host write of a register other than `CMD`: `ARG0` and `CTRL.FMT` are written, a write to any
other offset is ignored (10_state.md R23, R40). -/
def State.writeCsr (s : State) (offset : Nat) (v : Word) : State :=
  match offset with
  | 0x08 => { s with arg0 := v }
  | 0x10 => { s with ctrlFmt := sampleFormatOfBit (v.getLsbD 0) }
  | _ => s

/-- `HostRead(SPACE, i)` (20_memory.md R61). -/
def State.hostRead (s : State) (space : Space) (i : Nat) : ReadData :=
  match space with
  | .csr => .word (s.csrAt i)
  | .sin => .word (s.sinAt i)
  | .fb => .real (s.fbAt i)
  | .subfp => .word (s.subfpAt i)
  | .out => .byte (s.outAt i)

/-- Why an index of a space is not admitted, if it is not (20_memory.md R64). DESIGN CHOICE: a CSR
offset that is outside the space and misaligned too is named by its index (log entry 10). -/
def indexFault (space : Space) (i : Nat) : Option Fault :=
  if space.extent ≤ i then some .indexOutsideSpace
  else if space = .csr ∧ i % 4 ≠ 0 then some .misalignedCsrOffset
  else none

/-- Why a host access is not admitted, if it is not (20_memory.md R64). DESIGN CHOICE: a write to
`OUT` is named as such whatever its index, also where the index is outside the space (log entry
10). -/
def accessFault : HostAction → Option Fault
  | .read space i => indexFault space i
  | .writeCsr offset _ => indexFault .csr offset
  | .writeSin i _ => indexFault .sin i
  | .writeFb i _ => indexFault .fb i
  | .writeSubfp i _ => indexFault .subfp i
  | .writeOut _ _ => some .writeToOut
  | .reset => none

/-- The command word an action issues: a host write to `CMD`, CSR offset 0 (10_state.md R24). -/
def commandWord? : HostAction → Option Word
  | .writeCsr offset v => if offset = 0 then some v else none
  | _ => none

/-- The effect of an admitted action that issues no command (20_memory.md R65). -/
def State.hostEffect (s : State) : HostAction → State
  | .read space i => { s with lastRead := some (s.hostRead space i) }
  | .writeCsr offset v => s.writeCsr offset v
  | .writeSin i v => { s with sin := s.sin.splice i [v] }
  | .writeFb i v => { s with fb := s.fb.splice i [v] }
  | .writeSubfp i v => { s with subfp := s.subfp.splice i [v] }
  | .writeOut _ _ => s
  | .reset => s.platformReset

/-- An action that issues no command: the host is stuck if the access is not admitted. -/
def hostStep (a : HostAction) (s : State) : Host.Outcome State Fault Refusal :=
  match accessFault a with
  | some f => .fault f
  | none => .next (s.hostEffect a)

end Sys2Proof.Machine
end

