-- ==== Sys2Proof/Machine/Command.lean ====
section
/-! DEFINITION. A command word written to `CMD`, and the placing of one (10_state.md R24,
30_encoding.md R81). -/

namespace Sys2Proof.Machine

/-- A command word is decoded once and executed to completion; an illegal word raises
`IllegalCommand` (30_encoding.md R81). -/
def issueCommand (w : Word) (s : State) : Host.Outcome State Fault Refusal :=
  match decode w with
  | .ok i => exec i s
  | .error _ => .next (s.raise .illegalCommand)

/-- One action of the host or the platform. -/
def perform (a : HostAction) (s : State) : Host.Outcome State Fault Refusal :=
  match commandWord? a with
  | some w => issueCommand w s
  | none => hostStep a s

/-- The host action that writes the instruction whose `nbits` bits are `w` to `CMD`. -/
def commandWrite (nbits w : Nat) : HostAction := .writeCsr 0 (BitVec.ofNat 32 (w % 2 ^ nbits))

end Sys2Proof.Machine
end

