-- ==== Sys2Proof/Machine/Step.lean ====
section
/-! DEFINITION. One step of the machine: the oldest action not yet performed (20_memory.md R66). -/

namespace Sys2Proof.Machine

/-- One step. The host's accesses and the engine's commands form one total order (20_memory.md R66),
the order of `pending`. With no action pending the block is idle and keeps all state
(60_exceptions.md R292). -/
def step (s : State) : Host.Outcome State Fault Refusal :=
  match s.pending with
  | [] => .next s
  | a :: rest => perform a (s.withPending rest)

/-- The state in which the host's next action writes that instruction to `CMD` (log entry 1). -/
def State.withFetchWord (s : State) (nbits w : Nat) : State :=
  s.withPending (commandWrite nbits w :: s.pending)

end Sys2Proof.Machine
end

