-- ==== Sys2Proof/Machine/Decompress.lean ====
section
/-! DEFINITION. The decoder of a compressed fingerprint, `Decode(RAW)` of 44_compress.md R221. It is no
command of the block; statements about the compressor use it. -/

namespace Sys2Proof.Machine

/-- The bits of some bytes, each byte's bit 0 first (44_compress.md R214). -/
def streamBits (bytes : List Byte) : List Bool :=
  bytes.flatMap fun b => (List.range 8).map b.getLsbD

/-- The value of some bits, the least significant first. -/
def bitsValue : List Bool → Nat
  | [] => 0
  | b :: bs => b.toNat + 2 * bitsValue bs

/-- The 3-bit values of a stream until `zeros` zeros have been read. -/
def readNormals : (fuel zeros : Nat) → List Bool → List Nat
  | 0, _, _ => []
  | _, 0, _ => []
  | fuel + 1, zeros + 1, bits =>
    let v := bitsValue (bits.take normalBits)
    v :: readNormals fuel (if v = 0 then zeros else zeros + 1) (bits.drop normalBits)

/-- Adds to each 7, in order, the next 5-bit value of the stream. -/
def readExceptions : List Nat → List Bool → List Nat
  | [], _ => []
  | v :: vs, bits =>
    if v = maxNormal then
      (maxNormal + bitsValue (bits.take excBits)) :: readExceptions vs (bits.drop excBits)
    else v :: readExceptions vs bits

/-- Splits a list of symbols at its zeros, each zero ending a group; `group` is the part of the
current group already read. -/
def splitGroups : (group : List Nat) → List Nat → List (List Nat)
  | _, [] => []
  | group, v :: vs =>
    if v = 0 then group :: splitGroups [] vs else splitGroups (group ++ [v]) vs

/-- The word whose set bits have the given gaps, from 1-based position `position` on. -/
def wordOfGaps : (position : Nat) → List Nat → Word
  | _, [] => 0
  | position, g :: gs => BitVec.ofNat 32 (2 ^ (position + g - 1)) + wordOfGaps (position + g) gs

/-- Undoes the XOR of each value with the one before it. -/
def undelta : (previous : Word) → List Word → List Word
  | _, [] => []
  | previous, x :: xs => (x ^^^ previous) :: undelta (x ^^^ previous) xs

/-- `Decode(RAW)` of 44_compress.md R221. -/
def decompress (raw : List Byte) : List Word :=
  let l := (raw.getD 1 0).toNat * 65536 + (raw.getD 2 0).toNat * 256 + (raw.getD 3 0).toNat
  let body := raw.drop 4
  let bits := streamBits body
  let v := readNormals bits.length l bits
  let rest := body.drop ((normalBits * v.length + 7) / 8)
  let sym := readExceptions v (streamBits rest)
  undelta 0 ((splitGroups [] sym).map (wordOfGaps 0))

end Sys2Proof.Machine
end

