-- ==== Sys2Proof/Safety.lean ====
section
/-! DEFINITION. What counts as a sound state, and the terms the statements use. -/

namespace Sys2Proof.Machine

/-! ## The invariant -/

/-- Every array is in canonical form, within its capacity (20_memory.md R60, 10_state.md R42 to
R45, R49). -/
abbrev State.arraysWf (s : State) : Prop :=
  s.sin.wf sinCap ∧ s.fb.wf frameSize ∧ s.subfp.wf subfpCap ∧ s.out.wf outCap ∧
  s.carry.wf carryCap ∧ s.ring.wf (ringSlots * notes) ∧ s.chroma.wf (rowsCap * notes) ∧
  s.sym.wf symCap ∧ s.raw.wf rawCap

/-- The built sizes are among 2 to 12, hold the tables of 40_fft.md R102 and an `AUX_k` of `4 * 2^k`
elements (10_state.md R47), and are those `TABLE_VALID` says (10_state.md R38). -/
abbrev State.tablesWf (s : State) : Prop :=
  s.caches.wf 13 ∧
  (∀ e ∈ s.caches, 2 ≤ e.1 ∧ e.2.tabCos = cosTable e.1 ∧ e.2.tabSin = sinTable e.1 ∧
    e.2.auxLen = 4 * 2 ^ e.1) ∧
  ∀ k < 32, s.tableValid.getLsbD k = (s.caches.read? k).isSome

/-- The frames processed since SESSION_OPEN (10_state.md R50). -/
def State.frames (s : State) : Nat := s.framesProcessed.toNat / overlap

/-- The session invariants of 10_state.md R50 with the bounds of R29, R30 and R33, while a session is
live; the registers SESSION_CLOSE clears are clear while none is (45_controller.md R246). -/
abbrev State.sessionWf (s : State) : Prop :=
  if s.live then
    s.framesProcessed.toNat = overlap * s.frames ∧ s.frames ≤ maxFrames ∧
    s.row.toNat = s.frames / rowEvery ∧ s.coeff.toNat = s.frames % rowEvery ∧
    s.noteIndex.toNat = s.frames % ringSlots ∧ s.img = s.finalized ∧
    s.carryLen.toNat ≤ carryCap ∧ (s.needsSamples = false → s.carryLen = 0) ∧
    (s.frames = 0 → s.carryLen = 0) ∧
    (s.finalized = true → maxWidth < s.row.toNat)
  else
    s.framesProcessed = 0 ∧ s.row = 0 ∧ s.coeff = 0 ∧ s.noteIndex = 0 ∧ s.carryLen = 0 ∧
    s.finalized = false ∧ s.img = false

/-- The bounds of the length registers (44_compress.md R219). -/
abbrev State.lengthsWf (s : State) : Prop :=
  s.fpLen.toNat ≤ subfpCap ∧ s.bitsIndex.toNat ≤ symCap ∧ s.bytesLen.toNat ≤ rawCap ∧
  s.outLen.toNat ≤ outCap

/-- The invariant every step keeps. -/
abbrev State.Inv (s : State) : Prop := s.arraysWf ∧ s.tablesWf ∧ s.sessionWf ∧ s.lengthsWf

/-! ## Terms of the statements -/

/-- No sample of the words is a NaN in the format (41_window.md R131). -/
def noNaN (fmt : SampleFormat) (ws : List Word) : Bool :=
  ws.all fun w => fmt == .int16 || !f32IsNaN w

/-- The tables of size `2^k` are built, or the next draw lets them be (40_fft.md R101). -/
def State.tablesAvailable (s : State) (k : Nat) : Bool := s.tableValid.getLsbD k || s.nextDraw

/-- The error a command ends with, by the checks of 60_exceptions.md R282 to R284 in their order. -/
def expectedError (i : Instr) (s : State) : ErrCode :=
  match i with
  | .nop => .ok
  | .sessionOpen => if s.live then .alreadyInUse else .ok
  | .sessionClose | .needsSamples | .canCalculate => if s.live then .ok else .invalidState
  | .addSamples =>
    if s.sessionState = .none ∨ s.sessionState = .finalized then .invalidState
    else if 65536 < s.arg0.toNat then .invalidArgument
    else if s.arg0.toNat < 8192 then .insufficientLength
    else if 1323000 ≤ s.framesProcessed.toNat + 4095 then .ok
    else if noNaN s.sessionFmt ((List.range s.arg0.toNat).map s.sinAt) = false then .invalidArgument
    else if s.tablesAvailable 12 then .ok
    else .allocationFailed
  | .calculateFingerprint =>
    if s.sessionState = .none ∨ s.sessionState = .finalized then .invalidState
    else if (s.row.toNat : Int) - 15 < 2 then .insufficientLength
    else .ok
  | .fftForward =>
    if s.arg0.toNat ∉ [4, 8, 16, 32, 64, 128, 256, 512, 1024, 2048, 4096] then .invalidArgument
    else if s.tablesAvailable (Nat.log2 s.arg0.toNat) then .ok
    else .allocationFailed
  | .window =>
    if s.arg0.toNat ≠ 4096 then .invalidFrameLength
    else if noNaN s.ctrlFmt ((List.range 4096).map s.sinAt) = false then .invalidArgument
    else .ok
  | .compress =>
    if s.arg0.toNat < 2 then .insufficientLength
    else if 256 < s.arg0.toNat then .invalidArgument
    else .ok

/-- The value of a finite binary64 pattern. -/
def f64Value (a : F64) : ℚ :=
  (if f64Negative a then -1 else 1) * (f64Significand a : ℚ) * 2 ^ f64Scale a

/-- The value of a finite binary32 pattern (20_memory.md R63). -/
def f32Value (w : Word) : ℚ :=
  let exponent := w.toNat / 2 ^ 23 % 2 ^ 8
  let fraction := w.toNat % 2 ^ 23
  (if w.msb then -1 else 1) * (if exponent = 0 then fraction else fraction + 2 ^ 23 : Nat) *
    2 ^ (((max exponent 1 : Nat) : Int) - 150)

/-- The least magnitude that rounds to infinity: half a unit past the largest finite value. -/
def overflowBound : ℚ := 2 ^ 1024 - 2 ^ 970

/-- `r` is a finite value nearest the real `z`, its significand even when another value is as near
(00_scope.md R9, round to nearest, ties to even). -/
def NearestEven (r : F64) (z : ℝ) : Prop :=
  f64IsFinite r = true ∧
  ∀ c : F64, f64IsFinite c = true →
    |(f64Value r : ℝ) - z| ≤ |(f64Value c : ℝ) - z| ∧
    (|(f64Value r : ℝ) - z| = |(f64Value c : ℝ) - z| → f64Value c ≠ f64Value r →
      f64Significand r % 2 = 0)

/-- `y` is `FFT_k(x)` with the tables `cosT` and `sinT`, by the equations of 40_fft.md R111: the values
`zr i`, `zi i` after `i` stages, those before the first stage packed and reordered (R105, R106), and
the rotations `wr q`, `wi q` of the combine recurrence (R109), determine every slot of `y`. -/
def FftEquations (k : Nat) (cosT sinT x y : Array F64) : Prop :=
  let m := 2 ^ (k - 1)
  ∃ (zr zi : Nat → Nat → F64) (wr wi : Nat → F64),
    (∀ j < m, some (zr 0 j) = x[2 * reverseBits (k - 1) j]? ∧
      some (zi 0 j) = x[2 * reverseBits (k - 1) j + 1]?) ∧
    (∀ i < k - 1, ∀ block < m / 2 ^ (i + 1), ∀ j < 2 ^ i,
      let u := block * 2 ^ (i + 1) + j
      let v := u + 2 ^ i
      let c := elem cosT (j * (2 ^ k / 2 ^ (i + 1)))
      let sn := elem sinT (j * (2 ^ k / 2 ^ (i + 1)))
      let vr := fadd (fmul (zr i v) c) (fmul (zi i v) sn)
      let vi := fsub (fmul (zi i v) c) (fmul (zr i v) sn)
      zr (i + 1) u = fadd (zr i u) vr ∧ zi (i + 1) u = fadd (zi i u) vi ∧
      zr (i + 1) v = fsub (zr i u) vr ∧ zi (i + 1) v = fsub (zi i u) vi) ∧
    wr 0 = f64One ∧ wi 0 = f64PlusZero ∧
    (∀ q, wr (q + 1) = fadd (fmul (wr q) (elem cosT 1)) (fmul (wi q) (elem sinT 1)) ∧
      wi (q + 1) = fsub (fmul (wi q) (elem cosT 1)) (fmul (wr q) (elem sinT 1))) ∧
    y.size = 2 ^ k ∧
    let a := zr (k - 1)
    let b := zi (k - 1)
    y[0]? = some (fadd (a 0) (b 0)) ∧ y[m]? = some (fsub (a 0) (b 0)) ∧
    ∀ q, 1 ≤ q → q < m →
      let er := fmul (fadd (a q) (a (m - q))) f64Half
      let ei := fmul (fsub (b q) (b (m - q))) f64Half
      let or := fmul (fadd (b q) (b (m - q))) f64Half
      let oi := fmul (fsub (a (m - q)) (a q)) f64Half
      let tr := fsub (fmul or (wr q)) (fmul oi (wi q))
      let ti := fadd (fmul or (wi q)) (fmul oi (wr q))
      y[q]? = some (fadd er tr) ∧ y[m + q]? = some (fadd ei ti)

/-- The shapes by their number (43_classifier.md R185 to R190). -/
def shapesInOrder : List Shape :=
  [.whole, .noteHalves, .rowHalves, .checkerboard, .noteThirds, .rowThirds]

/-- The table of 43_classifier.md R195: shape, `y`, `h`, `w` and the three thresholds as decimals. -/
def classifierTable : List (Nat × Nat × Nat × Nat × ℚ × ℚ × ℚ) :=
  [(0, 4, 3, 15, 1.98215, 2.35817, 2.63523),
   (4, 4, 6, 15, -1.03809, -0.651211, -0.282167),
   (1, 0, 4, 16, -0.298702, 0.119262, 0.558497),
   (3, 8, 2, 12, -0.105439, 0.0153946, 0.135898),
   (3, 4, 4, 8, -0.142891, 0.0258736, 0.200632),
   (4, 0, 3, 5, -0.826319, -0.590612, -0.368214),
   (1, 2, 2, 9, -0.557409, -0.233035, 0.0534525),
   (2, 7, 3, 4, -0.0646826, 0.00620476, 0.0784847),
   (2, 6, 2, 16, -0.192387, -0.029699, 0.215855),
   (2, 1, 3, 2, -0.0397818, -0.00568076, 0.0292026),
   (5, 10, 1, 15, -0.53823, -0.369934, -0.190235),
   (3, 6, 2, 10, -0.124877, 0.0296483, 0.139239),
   (2, 1, 1, 14, -0.101475, 0.0225617, 0.231971),
   (3, 5, 6, 4, -0.0799915, -0.00729616, 0.063262),
   (1, 9, 2, 12, -0.272556, 0.019424, 0.302559),
   (3, 4, 2, 14, -0.164292, -0.0321188, 0.08463)]

/-- The window recurrence values `(c_n, s_n)` (41_window.md R132). -/
def windowAngle : (n : Nat) → F64 × F64
  | 0 => (f64One, f64PlusZero)
  | n + 1 =>
    let p := windowAngle n
    let cd := fcos windowDelta
    let sd := fsin windowDelta
    (fsub (fmul p.1 cd) (fmul p.2 sd), fadd (fmul p.2 cd) (fmul p.1 sd))

/-- The window coefficient `w_n` (41_window.md R132). -/
def windowCoefficient (n : Nat) : F64 := fsub winA (fmul winB (windowAngle n).1)

/-- Frames a chunk adds: those `blen` samples hold, up to those the budget still admits after `fp`
consumed samples (45_controller.md R250, R255). -/
def framesAdded (fp blen : Nat) : Nat :=
  min ((blen - 4096) / 1365 + 1) ((1323000 - 4096 - fp) / 1365 + 1)

/-- The host places a chunk in `SIN` and its length in `ARG0` (70_reset_and_hazards.md R303). -/
def State.placeChunk (s : State) (ws : List Word) : State :=
  { s with sin := s.sin.splice 0 ws, arg0 := BitVec.ofNat 32 ws.length }

/-- Feeds chunks to `ADD_SAMPLES`, one after another; none if a command raises an error or stops. -/
def feed : State → List (List Word) → Option State
  | s, [] => some s
  | s, ws :: rest =>
    match exec .addSamples (s.placeChunk ws) with
    | .next t => if t.err = .ok then feed t rest else none
    | _ => none

/-- The opcodes of 30_encoding.md R82 and their commands. -/
def opcodeTable : List (Nat × Instr) :=
  [(0x00, .nop), (0x01, .sessionOpen), (0x02, .sessionClose), (0x03, .addSamples),
   (0x04, .needsSamples), (0x05, .canCalculate), (0x06, .calculateFingerprint),
   (0x10, .fftForward), (0x11, .window), (0x12, .compress)]

/-- The moves of 45_controller.md R243 between different session states. -/
def sessionMoves : List (SessionState × Instr × SessionState) :=
  [(.none, .sessionOpen, .empty), (.empty, .addSamples, .accumulating),
   (.accumulating, .addSamples, .ready), (.ready, .calculateFingerprint, .finalized),
   (.empty, .sessionClose, .none), (.accumulating, .sessionClose, .none),
   (.ready, .sessionClose, .none), (.finalized, .sessionClose, .none)]

/-- Bit `j` of the stream of some bytes, least significant bits first (44_compress.md R214). -/
def streamBit (bytes : List Byte) (j : Nat) : Bool := (bytes.getD (j / 8) 0).getLsbD (j % 8)

/-- The bytes as one number, the first byte the most significant (44_compress.md R217). -/
def bigEndian (bytes : List Byte) : Nat := bytes.foldl (fun n b => n * 256 + b.toNat) 0

/-- The text in `OUT[0..OUT_LEN)`. -/
def State.outText (s : State) : List Byte := (List.range s.outLen.toNat).map s.outAt

/-- `CARRY[0..CARRY_LEN)`. -/
def State.carrySamples (s : State) : List F64 := (List.range s.carryLen.toNat).map s.carryAt

end Sys2Proof.Machine
end

