-- ==== Sys2Proof/Certificates/Slice0/Obligations.lean ====
section
/-! DEFINITION. The statements about the model, each a proposition to be proved. -/

open Sys2Proof Sys2Proof.Machine

/-! ## Reset and the invariant -/

/-- The reset values of 10_state.md R51: every register reads 0, no session, no table, and no array
element is written. -/
def Obligations.ResetLeavesEveryRegisterZero : Prop :=
  (∀ offset : Nat, State.reset.csrAt offset = 0) ∧
  State.reset.live = false ∧ State.reset.finalized = false ∧ State.reset.img = false ∧
  (∀ k : Nat, State.reset.caches.read? k = none) ∧
  (∀ i : Nat, State.reset.sin.read? i = none ∧ State.reset.fb.read? i = none ∧
    State.reset.subfp.read? i = none ∧ State.reset.out.read? i = none ∧
    State.reset.carry.read? i = none ∧ State.reset.ring.read? i = none ∧
    State.reset.chroma.read? i = none ∧ State.reset.sym.read? i = none ∧
    State.reset.raw.read? i = none)

/-- The state after reset satisfies the invariant. -/
def Obligations.ResetSatisfiesInvariant : Prop := State.reset.Inv

/-- Every step keeps the invariant: arrays in canonical form and in their capacity, tables as
40_fft.md R102 gives them and as TABLE_VALID says, the session relations of 10_state.md R50, the
length registers in their bounds. -/
def Obligations.StepKeepsInvariant : Prop :=
  ∀ s t : State, s.Inv → step s = .next t → t.Inv

/-- The bounds of the counters in every state with the invariant (10_state.md R29 to R33), and the
bits of TABLE_VALID that can be set (R23). -/
def Obligations.InvariantBoundsCounters : Prop :=
  ∀ s : State, s.Inv →
    s.framesProcessed.toNat ≤ 1319955 ∧ s.row.toNat ≤ 193 ∧ s.coeff.toNat ≤ 4 ∧
    s.carryLen.toNat ≤ 4095 ∧ 1365 ∣ s.framesProcessed.toNat ∧
    s.row.toNat = s.framesProcessed.toNat / 1365 / 5 ∧
    s.noteIndex.toNat = s.framesProcessed.toNat / 1365 % 8 ∧
    ∀ k < 32, s.tableValid.getLsbD k = true → 2 ≤ k ∧ k ≤ 12

/-! ## Encoding -/

/-- The decoder and the encoder agree in both directions, over all words. -/
def Obligations.DecodeAgreesWithEncode : Prop :=
  ∀ (w : Word) (i : Instr), decode w = .ok i ↔ w = encode i

/-- 30_encoding.md R81 and R85: every word with a reserved opcode or a reserved bit set raises
IllegalCommand, and every other word executes the command the opcode map names. -/
def Obligations.IllegalWordsRaiseIllegalCommand : Prop :=
  ∀ (s : State) (w : Word) (rest : List HostAction), s.pending = .writeCsr 0 w :: rest →
    let op := (w.extractLsb' 0 8).toNat
    let reserved := w.extractLsb' 8 24 ≠ 0 ∨ (0x07 ≤ op ∧ op ≤ 0x0F) ∨ (0x13 ≤ op ∧ op ≤ 0xFF)
    (reserved → step s = .next { s with pending := rest, err := .illegalCommand }) ∧
    (¬reserved → ∃ i, (op, i) ∈ opcodeTable ∧ step s = exec i { s with pending := rest })

/-- A few words written out from 30_encoding.md R80 and R82. -/
def Obligations.WrittenWordsDecode : Prop :=
  decode 0x00000000#32 = .ok .nop ∧ decode 0x00000003#32 = .ok .addSamples ∧
  decode 0x00000006#32 = .ok .calculateFingerprint ∧ decode 0x00000010#32 = .ok .fftForward ∧
  decode 0x00000011#32 = .ok .window ∧ decode 0x00000012#32 = .ok .compress ∧
  decode 0x00000110#32 = .error .reservedBits ∧
  decode 0x00000007#32 = .error (.reservedOpcode 0x07#8)

/-! ## Steps of the host and the platform -/

/-- When the host's next action writes a word to CMD that decodes to a command, the step is that
command's meaning on the state with the action taken off the list. -/
def Obligations.StepRunsDecodedCommand : Prop :=
  ∀ (s : State) (w : Word) (rest : List HostAction) (i : Instr),
    s.pending = .writeCsr 0 w :: rest → decode w = .ok i → i.wellFormed = true →
    step s = exec i { s with pending := rest }

/-- With no action pending the block keeps all state (the model's reading of 60_exceptions.md R292;
log entry 9). -/
def Obligations.IdleKeepsState : Prop := ∀ s : State, s.pending = [] → step s = .next s

/-- A machine stops exactly where the host's next access is not admitted (20_memory.md R64), and it
never refuses. -/
def Obligations.StepStopsExactlyOnHostMisuse : Prop :=
  ∀ s : State,
    ((∃ f, step s = .fault f) ↔ ∃ a rest, s.pending = a :: rest ∧ a.wellFormed = false) ∧
    ∀ r, step s ≠ .refused r

/-- An admitted host read returns the element and changes nothing of the block (20_memory.md R61,
R65); the register at each offset is that of the map of 10_state.md R23, a narrow register with zeros
above it. `STATUS` and the reserved offsets have statements of their own. -/
def Obligations.HostReadHasNoSideEffect : Prop :=
  (∀ s : State,
    s.csrAt 0x00 = 0 ∧ s.csrAt 0x08 = s.arg0 ∧
    s.csrAt 0x0C = (if s.result then 1#32 else 0#32) ∧
    s.csrAt 0x10 = (if s.ctrlFmt = .float32 then 1#32 else 0#32) ∧
    s.csrAt 0x14 = s.framesProcessed ∧ s.csrAt 0x18 = s.row ∧
    (s.csrAt 0x1C).toNat = s.coeff.toNat ∧ (s.csrAt 0x20).toNat = s.noteIndex.toNat ∧
    s.csrAt 0x24 = s.carryLen ∧ s.csrAt 0x28 = s.bitsIndex ∧ s.csrAt 0x2C = s.fpLen ∧
    s.csrAt 0x30 = s.bytesLen ∧ s.csrAt 0x34 = s.outLen ∧ s.csrAt 0x38 = s.tableValid ∧
    s.csrAt 0x3C = (if s.sessionFmt = .float32 then 1#32 else 0#32)) ∧
  ∀ (s : State) (rest : List HostAction) (i : Nat),
    (s.pending = .read .sin i :: rest → i < 65536 →
      step s = .next { s with pending := rest, lastRead := some (.word (s.sinAt i)) }) ∧
    (s.pending = .read .fb i :: rest → i < 4096 →
      step s = .next { s with pending := rest, lastRead := some (.real (s.fbAt i)) }) ∧
    (s.pending = .read .subfp i :: rest → i < 256 →
      step s = .next { s with pending := rest, lastRead := some (.word (s.subfpAt i)) }) ∧
    (s.pending = .read .out i :: rest → i < 8192 →
      step s = .next { s with pending := rest, lastRead := some (.byte (s.outAt i)) }) ∧
    (s.pending = .read .csr i :: rest → i < 4096 → i % 4 = 0 →
      step s = .next { s with pending := rest, lastRead := some (.word (s.csrAt i)) })

/-- STATUS holds ERR in [3:0], by the codes of 60_exceptions.md R281, the session state in [6:4], and 0
elsewhere, BUSY among it (10_state.md R23, R25, R41). -/
def Obligations.StatusWordFields : Prop :=
  ∀ s : State,
    (s.csrAt 0x04).extractLsb' 7 25 = 0 ∧
    ((s.csrAt 0x04).extractLsb' 0 4).toNat =
      (match s.err with
       | .ok => 0
       | .allocationFailed => 1
       | .insufficientLength => 2
       | .invalidFrameLength => 3
       | .alreadyInUse => 4
       | .invalidState => 5
       | .invalidArgument => 6
       | .illegalCommand => 7) ∧
    ((s.csrAt 0x04).extractLsb' 4 3).toNat =
      (if s.live = false then 0
       else if s.finalized then 4
       else if s.framesProcessed = 0 then 1
       else if 77175 ≤ s.framesProcessed.toNat then 3
       else 2)

/-- An admitted host write of a data space stores its value and does nothing else (20_memory.md
R65). -/
def Obligations.HostWriteStoresOneElement : Prop :=
  ∀ (s : State) (rest : List HostAction) (i : Nat),
    (∀ v, s.pending = .writeSin i v :: rest → i < 65536 →
      ∃ t, step s = .next t ∧ t = { s with pending := rest, sin := t.sin } ∧
        t.sinAt i = v ∧ ∀ j, j ≠ i → t.sinAt j = s.sinAt j) ∧
    (∀ v, s.pending = .writeFb i v :: rest → i < 4096 →
      ∃ t, step s = .next t ∧ t = { s with pending := rest, fb := t.fb } ∧
        t.fbAt i = v ∧ ∀ j, j ≠ i → t.fbAt j = s.fbAt j) ∧
    (∀ v, s.pending = .writeSubfp i v :: rest → i < 256 →
      ∃ t, step s = .next t ∧ t = { s with pending := rest, subfp := t.subfp } ∧
        t.subfpAt i = v ∧ ∀ j, j ≠ i → t.subfpAt j = s.subfpAt j)

/-- A host write of an aligned CSR offset other than CMD writes ARG0, or CTRL.FMT from bit 0, or
nothing (10_state.md R23). -/
def Obligations.HostCsrWrites : Prop :=
  ∀ (s : State) (rest : List HostAction) (offset : Nat) (v : Word),
    s.pending = .writeCsr offset v :: rest → offset % 4 = 0 → 0 < offset → offset < 4096 →
    step s = .next
      (if offset = 0x08 then { s with pending := rest, arg0 := v }
       else if offset = 0x10 then
         { s with pending := rest, ctrlFmt := if v.getLsbD 0 then .float32 else .int16 }
       else { s with pending := rest })

/-- 10_state.md R40: reserved offsets read 0 and ignore writes. -/
def Obligations.ReservedOffsetsReadZeroIgnoreWrites : Prop :=
  ∀ (s : State) (rest : List HostAction) (offset : Nat) (v : Word),
    0x40 ≤ offset → offset ≤ 0xFFC → offset % 4 = 0 →
    (s.pending = .read .csr offset :: rest →
      step s = .next { s with pending := rest, lastRead := some (.word 0) }) ∧
    (s.pending = .writeCsr offset v :: rest → step s = .next { s with pending := rest })

/-- A platform reset gives the state of 70_reset_and_hazards.md R300; what the model adds (the
actions to come, the last read, the draws, the count of resets) is the model's own (log entries 1 to
4). -/
def Obligations.PlatformResetClearsTheBlock : Prop :=
  ∀ (s : State) (rest : List HostAction), s.pending = .reset :: rest →
    step s = .next { State.reset with
      pending := rest, lastRead := s.lastRead, allocDraws := s.allocDraws,
      drawCount := s.drawCount, resetCount := s.resetCount + 1 }

/-! ## Errors and what commands may write -/

/-- 60_exceptions.md R284: of several errors the first in the order of checks is reported; an illegal
word comes before all. -/
def Obligations.CommandReportsFirstError : Prop :=
  (∀ (i : Instr) (s : State), ∃ t, exec i s = .next t ∧ t.err = expectedError i s) ∧
  ∀ (s : State) (w : Word) (rest : List HostAction) (r : DecodeReject),
    s.pending = .writeCsr 0 w :: rest → decode w = .error r →
    ∃ t, step s = .next t ∧ t.err = .illegalCommand

/-- 00_scope.md R10: a failed command changes nothing but ERR; the model's own count of draws may
advance (log entry 3). -/
def Obligations.FailedCommandLeavesNoTrace : Prop :=
  ∀ (i : Instr) (s : State), ∃ t, exec i s = .next t ∧
    (t.err ≠ .ok →
      t = { s with err := t.err, allocDraws := t.allocDraws, drawCount := t.drawCount })

/-- 10_state.md R27: RESULT.RES is the answer of the last successful query, and no other command
writes it. -/
def Obligations.ResultHoldsLastSuccessfulAnswer : Prop :=
  ∀ (i : Instr) (s : State), ∃ t, exec i s = .next t ∧
    t.result =
      (if i = .needsSamples ∧ t.err = .ok then
        decide (s.framesProcessed.toNat + 4095 < 1323000)
       else if i = .canCalculate ∧ t.err = .ok then decide (77175 ≤ s.framesProcessed.toNat)
       else s.result)

/-- 10_state.md R35, R36, R37: FP_LEN, BYTES_LEN and OUT_LEN are written by a successful COMPRESS or
CALCULATE_FINGERPRINT, with the counts of what it produced, and by no other command. -/
def Obligations.LengthRegistersHoldLastFingerprint : Prop :=
  ∀ (i : Instr) (s : State), s.Inv → ∃ t, exec i s = .next t ∧
    (if (i = .compress ∨ i = .calculateFingerprint) ∧ t.err = .ok then
      let l := if i = .compress then s.arg0.toNat else s.row.toNat - 15
      let fp := (List.range l).map t.subfpAt
      t.fpLen.toNat = l ∧ t.bytesLen.toNat = (rawBytes fp).length ∧
        t.outLen.toNat = (base64 (rawBytes fp)).length ∧
        ∀ j < t.outLen.toNat, (base64 (rawBytes fp))[j]? = some (t.outAt j)
     else t.fpLen = s.fpLen ∧ t.bytesLen = s.bytesLen ∧ t.outLen = s.outLen)

/-- What no command writes: ARG0, CTRL, SIN (10_state.md R26, 20_memory.md R71), and what is outside
the block. -/
def Obligations.CommandsKeepOperandsAndSamples : Prop :=
  ∀ (i : Instr) (s : State), ∃ t, exec i s = .next t ∧
    t.arg0 = s.arg0 ∧ t.ctrlFmt = s.ctrlFmt ∧ t.sin = s.sin ∧ t.pending = s.pending ∧
    t.lastRead = s.lastRead ∧ t.resetCount = s.resetCount

/-- Which commands may write the other arrays and the session's registers (20_memory.md R71,
70_reset_and_hazards.md R306, 10_state.md R39). -/
def Obligations.OnlyTheNamedCommandsWrite : Prop :=
  ∀ (i : Instr) (s : State), ∃ t, exec i s = .next t ∧
    (i ∉ [Instr.fftForward, .window, .addSamples] → t.fb = s.fb) ∧
    (i ≠ .calculateFingerprint → t.subfp = s.subfp) ∧
    (i ∉ [Instr.compress, .calculateFingerprint] →
      t.out = s.out ∧ t.sym = s.sym ∧ t.raw = s.raw) ∧
    (i ∉ [Instr.fftForward, .addSamples] →
      t.caches = s.caches ∧ t.tableValid = s.tableValid ∧ t.drawCount = s.drawCount ∧
      t.allocDraws = s.allocDraws) ∧
    (i ≠ .addSamples → t.carry = s.carry ∧ t.ring = s.ring) ∧
    (i ∉ [Instr.addSamples, .calculateFingerprint] → t.chroma = s.chroma) ∧
    (i ≠ .sessionOpen → t.sessionFmt = s.sessionFmt) ∧
    (i ∉ [Instr.sessionOpen, .sessionClose, .addSamples] →
      t.framesProcessed = s.framesProcessed ∧ t.row = s.row ∧ t.coeff = s.coeff ∧
      t.noteIndex = s.noteIndex ∧ t.carryLen = s.carryLen) ∧
    (i ∉ [Instr.sessionOpen, .sessionClose] → t.live = s.live) ∧
    (i ∉ [Instr.sessionOpen, .sessionClose, .calculateFingerprint] →
      t.finalized = s.finalized ∧ t.img = s.img) ∧
    (i ∉ [Instr.sessionOpen, .compress, .calculateFingerprint] → t.bitsIndex = s.bitsIndex)

/-! ## The session commands -/

/-- 45_controller.md R240. -/
def Obligations.NopWritesOnlyErr : Prop :=
  ∀ s : State, exec .nop s = .next { s with err := .ok }

/-- 45_controller.md R244. -/
def Obligations.SessionOpenTakesTheSlot : Prop :=
  ∀ s : State,
    (s.live = false → ∃ t, exec .sessionOpen s = .next t ∧ t.sessionState = .empty ∧
      t = { s with
        err := .ok, live := true, finalized := false, img := false, framesProcessed := 0, row := 0,
        coeff := 0, noteIndex := 0, carryLen := 0, bitsIndex := 0, sessionFmt := s.ctrlFmt }) ∧
    (s.live = true → exec .sessionOpen s = .next { s with err := .alreadyInUse })

/-- 45_controller.md R246. -/
def Obligations.SessionCloseReleasesTheSlot : Prop :=
  ∀ s : State,
    (s.live = true → ∃ t, exec .sessionClose s = .next t ∧ t.sessionState = .none ∧
      t = { s with
        err := .ok, live := false, finalized := false, img := false, framesProcessed := 0, row := 0,
        coeff := 0, noteIndex := 0, carryLen := 0 }) ∧
    (s.live = false → exec .sessionClose s = .next { s with err := .invalidState })

/-- 45_controller.md R258. -/
def Obligations.NeedsSamplesAnswers : Prop :=
  ∀ s : State,
    (s.live = true → exec .needsSamples s = .next { s with
      err := .ok, result := decide (s.framesProcessed.toNat + 4095 < 1323000) }) ∧
    (s.live = false → exec .needsSamples s = .next { s with err := .invalidState })

/-- 45_controller.md R259. -/
def Obligations.CanCalculateAnswers : Prop :=
  ∀ s : State,
    (s.live = true → exec .canCalculate s = .next { s with
      err := .ok, result := decide (77175 ≤ s.framesProcessed.toNat) }) ∧
    (s.live = false → exec .canCalculate s = .next { s with err := .invalidState })

/-- 45_controller.md R243: the session state moves only along the table, each move is made, and an
ADD_SAMPLES that processes no frame does not move it. -/
def Obligations.SessionStateMovesAlongTheTable : Prop :=
  ∀ (i : Instr) (s : State), s.Inv → ∃ t, exec i s = .next t ∧
    (t.sessionState ≠ s.sessionState → (s.sessionState, i, t.sessionState) ∈ sessionMoves) ∧
    (t.err = .ok →
      (i = .sessionOpen → s.sessionState = .none ∧ t.sessionState = .empty) ∧
      (i = .sessionClose → s.sessionState ≠ .none ∧ t.sessionState = .none) ∧
      (i = .addSamples → s.sessionState = .empty → t.sessionState = .accumulating) ∧
      (i = .addSamples → s.sessionState = .accumulating → 77175 ≤ t.framesProcessed.toNat →
        t.sessionState = .ready) ∧
      (i = .addSamples → t.framesProcessed = s.framesProcessed → t.sessionState = s.sessionState) ∧
      (i = .calculateFingerprint → s.sessionState = .ready ∧ t.sessionState = .finalized))

/-! ## Transform and window -/

/-- FFT_FORWARD completes for each admitted size whose tables are available, transforms FB[0..N) by
`FFT_k` of 40_fft.md R111 with the tables of R102, whose entries are written out, leaves AUX_k with its 4 N elements (R101), and
keeps the rest (R112). -/
def Obligations.FftForwardTransformsFrameBuffer : Prop :=
  ∀ (s : State) (k : Nat), s.Inv → 2 ≤ k → k ≤ 12 → s.arg0.toNat = 2 ^ k →
    s.tablesAvailable k = true →
    ∃ t, exec .fftForward s = .next t ∧
      t = { s with
        err := .ok, fb := t.fb, caches := t.caches, tableValid := t.tableValid
        allocDraws := t.allocDraws, drawCount := t.drawCount } ∧
      (∀ i < 2 ^ k, some (t.fbAt i) =
        (fftWith (cosTable k).toArray (sinTable k).toArray k
          ((List.range (2 ^ k)).map s.fbAt).toArray)[i]?) ∧
      (∀ i, 2 ^ k ≤ i → t.fbAt i = s.fbAt i) ∧
      (∀ j < 32, t.tableValid.getLsbD j = (s.tableValid.getLsbD j || decide (j = k))) ∧
      (∃ c, t.caches.read? k = some c ∧ c.tabCos = cosTable k ∧ c.tabSin = sinTable k ∧
        c.tabCos.length = 2 ^ k ∧ c.tabSin.length = 2 ^ k ∧
        ∀ i : Nat, i < 2 ^ k →
          let angle := fdiv (fmul (fmul f64Two 0x400921FB54442D18#64) (f64OfInt i))
            (f64OfInt (2 ^ k : Nat))
          c.tabCos[i]? = some (fcos angle) ∧ c.tabSin[i]? = some (fsin angle)) ∧
      (∀ i, (t.auxAt k i).isSome = decide (i < 4 * 2 ^ k)) ∧
      (∀ j, j ≠ k → t.caches.read? j = s.caches.read? j) ∧
      (s.tableValid.getLsbD k = true → t.allocDraws = s.allocDraws ∧ t.drawCount = s.drawCount)

/-- 40_fft.md R101: where the tables are not built and the draw fails, FFT_FORWARD raises
AllocationFailed, builds nothing, and a retry draws again. -/
def Obligations.FailedDrawBuildsNothing : Prop :=
  ∀ (s : State) (k : Nat), 2 ≤ k → k ≤ 12 → s.arg0.toNat = 2 ^ k →
    s.tableValid.getLsbD k = false → s.nextDraw = false →
    exec .fftForward s = .next { s with
      err := .allocationFailed, allocDraws := s.allocDraws.tail, drawCount := s.drawCount + 1 }

/-- 40_fft.md R113: the result of a transform depends only on its input; neither AUX_k, earlier
commands, nor whether the tables were built before can be seen in it. -/
def Obligations.TransformDependsOnlyOnInput : Prop :=
  ∀ (s s' : State) (k : Nat), s.Inv → s'.Inv → 2 ≤ k → k ≤ 12 →
    s.arg0.toNat = 2 ^ k → s'.arg0.toNat = 2 ^ k →
    s.tablesAvailable k = true → s'.tablesAvailable k = true →
    (∀ i < 2 ^ k, s.fbAt i = s'.fbAt i) →
    ∃ t t', exec .fftForward s = .next t ∧ exec .fftForward s' = .next t' ∧
      ∀ i < 2 ^ k, t.fbAt i = t'.fbAt i

/-- 40_fft.md R105 and R106: after the reorder the value at position `j` is the packed value at the
bit reversal of `j`, packed value `r` being the pair `x[2r]`, `x[2r+1]`; for N = 4 it is the
identity. R107 and R111: the transform satisfies the equations of its butterflies, of the combine
recurrence and of every output slot. -/
def Obligations.ReorderPutsPackedValueAtReversedPosition : Prop :=
  (∀ b i j : Nat, i < 2 ^ b → j < b →
    reverseBits b i < 2 ^ b ∧ (reverseBits b i).testBit j = i.testBit (b - 1 - j)) ∧
  (∀ (k : Nat) (x : Array F64), 2 ≤ k → k ≤ 12 → x.size = 2 ^ k →
    ∀ j < 2 ^ (k - 1),
      some (elem (fftReorder k x).1 j) = x[2 * reverseBits (k - 1) j]? ∧
      some (elem (fftReorder k x).2 j) = x[2 * reverseBits (k - 1) j + 1]?) ∧
  (∀ x : Array F64, x.size = 4 →
    some (elem (fftReorder 2 x).1 0) = x[0]? ∧ some (elem (fftReorder 2 x).2 0) = x[1]? ∧
    some (elem (fftReorder 2 x).1 1) = x[2]? ∧ some (elem (fftReorder 2 x).2 1) = x[3]?) ∧
  (∀ (k : Nat) (cosT sinT x : Array F64), 2 ≤ k → k ≤ 12 → x.size = 2 ^ k →
    FftEquations k cosT sinT x (fftWith cosT sinT k x))

/-- 40_fft.md R103 and 20_memory.md R70: a built table is never written again, its valid bit never
cleared and its AUX_k never reallocated, by any step but a reset. -/
def Obligations.BuiltTablesNeverChange : Prop :=
  ∀ (s t : State) (k : Nat) (c : SizeCache), s.Inv → s.caches.read? k = some c →
    step s = .next t → s.pending.head? ≠ some .reset →
    t.tableValid.getLsbD k = true ∧
    ∃ c', t.caches.read? k = some c' ∧ c'.tabCos = c.tabCos ∧ c'.tabSin = c.tabSin ∧
      c'.auxLen = c.auxLen

/-- WINDOW completes on 4096 samples that are not NaN, writes each sample times its coefficient of
the recurrence, and keeps the rest (41_window.md R132, R133, R135); the constants of the recurrence
are those of R132. -/
def Obligations.WindowWritesWindowedFrame : Prop :=
  (windowDelta = fdiv (fmul f64Two 0x400921FB54442D18#64) (f64OfInt 4096) ∧
    winA = 0x3FE147AE147AE148#64 ∧ winB = 0x3FDD70A3D70A3D71#64) ∧
  ∀ s : State, s.arg0.toNat = 4096 → noNaN s.ctrlFmt ((List.range 4096).map s.sinAt) = true →
    ∃ t, exec .window s = .next t ∧ t = { s with err := .ok, fb := t.fb } ∧
      (∀ n < 4096, ∃ x, norm s.ctrlFmt (s.sinAt n) = some x ∧
        t.fbAt n = fmul x (windowCoefficient n)) ∧
      ∀ n, 4096 ≤ n → t.fbAt n = s.fbAt n

/-- 41_window.md R131: the value of a normalised sample, and its sign, also of a zero. -/
def Obligations.NormalisedSampleValues : Prop :=
  (∀ w : Word, ∃ v, norm .int16 w = some v ∧ f64IsFinite v = true ∧
    f64Negative v = w.getLsbD 15 ∧ f64Value v = ((w.extractLsb' 0 16).toInt : ℚ) / 32768) ∧
  (∀ w : Word, w.toNat / 2 ^ 23 % 2 ^ 8 = 255 → w.toNat % 2 ^ 23 ≠ 0 →
    norm .float32 w = none) ∧
  (∀ w : Word, w.toNat / 2 ^ 23 % 2 ^ 8 = 255 → w.toNat % 2 ^ 23 = 0 →
    norm .float32 w = some (if w.msb then f64MinusOne else f64One)) ∧
  (∀ w : Word, w.toNat / 2 ^ 23 % 2 ^ 8 ≠ 255 → ∃ v, norm .float32 w = some v ∧
    f64IsFinite v = true ∧ f64Negative v = w.msb ∧
    f64Value v = max (-1) (min 1 (f32Value w)))

/-! ## Chroma -/

/-- 42_chroma.md R151: the note of each bin of the band, in exact real arithmetic. -/
def Obligations.NoteIsFlooredTwelfthOfOctave : Prop :=
  ∀ b : Nat, 8 ≤ b → b ≤ 1857 →
    (noteOf b : ℤ) =
      ⌊12 * Int.fract (Real.logb 2 (((b : ℝ) * 11025 / 4096) / (440 / 16)))⌋

/-- The chroma step writes one ring slot, each note the sum of its bins' energies in increasing
order from +0.0, the energy of bin `b` being `y[b] * y[b] + y[2048 + b] * y[2048 + b]`, and keeps the
other slots (42_chroma.md R153 to R156). The row gate runs last, on the state in which the slot is
written and the pointer advanced (R153, R157, R158). -/
def Obligations.ChromaStepWritesOneRingSlot : Prop :=
  ∀ (s : State) (y : List F64),
    (∀ n < 12, (s.chromaStep y).ringAt (12 * s.noteIndex.toNat + n) =
      ((List.range' 8 1850).filter fun b => noteOf b = n).foldl
        (fun acc b =>
          let re := y.getD b f64PlusZero
          let im := y.getD (2048 + b) f64PlusZero
          fadd acc (fadd (fmul re re) (fmul im im))) f64PlusZero) ∧
    (∀ i, i < 12 * s.noteIndex.toNat ∨ 12 * s.noteIndex.toNat + 12 ≤ i →
      (s.chromaStep y).ringAt i = s.ringAt i) ∧
    (s.chromaStep y).noteIndex.toNat = (s.noteIndex.toNat + 1) % 8 ∧
    s.chromaStep y = State.gateRow
      { s with ring := (s.chromaStep y).ring, noteIndex := s.noteIndex + 1 }

/-- The row gate and the row it emits (42_chroma.md R157, R158, R160, R161). -/
def Obligations.FifthFrameEmitsOneRow : Prop :=
  ∀ s : State, s.coeff.toNat ≤ 4 → s.row.toNat < 193 →
    (s.coeff.toNat < 4 →
      s.gateRow = { s with coeff := s.coeff + 1 }) ∧
    (s.coeff.toNat = 4 →
      let taps : List F64 := [0x3FD0000000000000, 0x3FE8000000000000, 0x3FF0000000000000,
        0x3FE8000000000000, 0x3FD0000000000000]
      let v := (List.range 12).map fun n =>
        (List.range 5).foldl (fun acc j =>
          fadd acc (fmul (s.ringAt (12 * ((s.noteIndex.toNat + 3 + j) % 8) + n))
            (taps.getD j 0))) f64PlusZero
      let norm := fsqrt (v.foldl (fun ss x => fadd ss (fmul x x)) f64PlusZero)
      let t := s.gateRow
      t = { s with coeff := 0, row := t.row, chroma := t.chroma } ∧
      t.row.toNat = s.row.toNat + 1 ∧
      (∀ n < 12, t.chromaAt (12 * s.row.toNat + n) =
        if flt norm 0x3F847AE147AE147B#64 then f64PlusZero else fdiv (v.getD n 0) norm) ∧
      ∀ i, i < 12 * s.row.toNat ∨ 12 * s.row.toNat + 12 ≤ i → t.chromaAt i = s.chromaAt i)

/-- One processed frame advances the counters (42_chroma.md R156, R157, 45_controller.md R252). Once the
tables of size 4096 are built, it windows the frame sample by sample, leaves the spectrum `y` of the
windowed frame in FB, and makes the chroma step on `y` and no other change. -/
def Obligations.ProcessedFrameAdvancesCounters : Prop :=
  ∀ (s : State) (f : List F64), s.Inv → s.live = true → s.needsSamples = true →
    (s.processFrame f).framesProcessed.toNat = s.framesProcessed.toNat + 1365 ∧
    (s.processFrame f).noteIndex.toNat = (s.noteIndex.toNat + 1) % 8 ∧
    (s.processFrame f).coeff.toNat = (s.coeff.toNat + 1) % 5 ∧
    (s.processFrame f).row.toNat = s.row.toNat + (s.coeff.toNat + 1) / 5 ∧
    (∀ n : Nat, (windowFn f)[n]? = f[n]?.map fun x => fmul x (windowCoefficient n)) ∧
    (s.tableValid.getLsbD 12 = true →
      let y := (fftWith (cosTable 12).toArray (sinTable 12).toArray 12 (windowFn f).toArray).toList
      let t := s.processFrame f
      t = { s.chromaStep y with
        fb := t.fb, framesProcessed := t.framesProcessed, caches := t.caches } ∧
      (∀ i < 4096, some (t.fbAt i) = y[i]?) ∧ (∀ i, 4096 ≤ i → t.fbAt i = s.fbAt i) ∧
      (∀ j, j ≠ 12 → t.caches.read? j = s.caches.read? j) ∧
      ∃ c, t.caches.read? 12 = some c ∧ c.tabCos = cosTable 12 ∧ c.tabSin = sinTable 12)

/-! ## Adding samples -/

/-- ADD_SAMPLES completes under the conditions of its checks, processes the frames that 45_controller.md
R250 gives, keeps the rest of the samples as the carry-over, and keeps everything else. -/
def Obligations.AddSamplesProcessesFrames : Prop :=
  ∀ s : State, s.Inv → s.live = true → s.finalized = false →
    8192 ≤ s.arg0.toNat → s.arg0.toNat ≤ 65536 → s.framesProcessed.toNat + 4095 < 1323000 →
    noNaN s.sessionFmt ((List.range s.arg0.toNat).map s.sinAt) = true →
    s.tablesAvailable 12 = true →
    let n := framesAdded s.framesProcessed.toNat (s.carryLen.toNat + s.arg0.toNat)
    let stream := s.carrySamples ++
      ((List.range s.arg0.toNat).map s.sinAt).filterMap (norm s.sessionFmt)
    let frame (k : Nat) := (stream.drop (1365 * k)).take 4096
    let u := ((List.range n).map frame).foldl State.processFrame (s.ensureTables 12).2
    ∃ t, exec .addSamples s = .next t ∧
      t = { s with
        err := .ok, framesProcessed := t.framesProcessed, row := t.row, coeff := t.coeff
        noteIndex := t.noteIndex, carryLen := t.carryLen, tableValid := t.tableValid, fb := t.fb
        carry := t.carry, ring := t.ring, chroma := t.chroma, caches := t.caches
        allocDraws := t.allocDraws, drawCount := t.drawCount } ∧
      0 < n ∧
      t.ring = u.ring ∧ t.chroma = u.chroma ∧ t.fb = u.fb ∧
      t.framesProcessed.toNat = s.framesProcessed.toNat + 1365 * n ∧
      t.row.toNat = s.row.toNat + (s.coeff.toNat + n) / 5 ∧
      t.coeff.toNat = (s.coeff.toNat + n) % 5 ∧
      t.noteIndex.toNat = (s.noteIndex.toNat + n) % 8 ∧
      t.carrySamples =
        (if t.framesProcessed.toNat + 4095 < 1323000 then stream.drop (1365 * n) else []) ∧
      (∀ i < 4096, some (t.fbAt i) =
        (fftWith (cosTable 12).toArray (sinTable 12).toArray 12
          (windowFn (frame (n - 1))).toArray)[i]?) ∧
      (∀ i, 4096 ≤ i → t.fbAt i = s.fbAt i) ∧
      (∀ i, t.carryLen.toNat ≤ i → t.carryAt i = s.carryAt i) ∧
      (∀ i, 96 ≤ i → t.ringAt i = s.ringAt i) ∧
      (∀ i, i < 12 * s.row.toNat ∨ 12 * t.row.toNat ≤ i → t.chromaAt i = s.chromaAt i) ∧
      (∀ j < 32, t.tableValid.getLsbD j = (s.tableValid.getLsbD j || decide (j = 12))) ∧
      (∀ j, j ≠ 12 → t.caches.read? j = s.caches.read? j)

/-- 45_controller.md R253, its first half: once the budget is reached, ADD_SAMPLES changes nothing but
ERR. -/
def Obligations.AddSamplesAfterBudgetIsNoOp : Prop :=
  ∀ s : State, s.live = true → s.finalized = false → 8192 ≤ s.arg0.toNat →
    s.arg0.toNat ≤ 65536 → 1323000 ≤ s.framesProcessed.toNat + 4095 →
    exec .addSamples s = .next { s with err := .ok }

/-- 45_controller.md R255: any two splittings of one stream into chunks of 8192 to 65 536 samples
leave the same session, up to what the host itself wrote (SIN, ARG0) and the part of CARRY that is no
longer valid, and the same fingerprint string. -/
def Obligations.StreamingEquivalence : Prop :=
  ∀ (s : State) (a b : List (List Word)), s.live = true → s.finalized = false →
    s.tablesAvailable 12 = true →
    (∀ ws ∈ a ++ b, 8192 ≤ ws.length ∧ ws.length ≤ 65536) →
    noNaN s.sessionFmt a.flatten = true → a.flatten = b.flatten →
    ∃ ta tb ua ub, feed s a = some ta ∧ feed s b = some tb ∧
      { ta with sin := tb.sin, arg0 := tb.arg0, carry := tb.carry, err := tb.err } = tb ∧
      ta.carrySamples = tb.carrySamples ∧
      exec .calculateFingerprint ta = .next ua ∧ exec .calculateFingerprint tb = .next ub ∧
      ua.err = ub.err ∧ ua.outText = ub.outText

/-! ## Fingerprint -/

/-- The integral image satisfies the recurrence of 43_classifier.md R181, in its order of
operations. -/
def Obligations.IntegralImageRecurrence : Prop :=
  ∀ (s : State) (x y : Nat), x < s.row.toNat → y < 12 →
    let c (x y : Nat) : F64 := s.chromaAt (12 * x + y)
    let i (x y : Nat) : F64 := elem s.imageOf.toArray (12 * x + y)
    i x y =
      if x = 0 then (if y = 0 then c 0 0 else fadd (c 0 y) (i 0 (y - 1)))
      else if y = 0 then fadd (c x 0) (i (x - 1) 0)
      else fsub (fadd (fadd (c x y) (i x (y - 1))) (i (x - 1) y)) (i (x - 1) (y - 1))

/-- 43_classifier.md R192: the code of a response, by its band; a value equal to a threshold goes to
the upper band, and adjacent bands differ in one bit. -/
def Obligations.QuantiserGivesGrayCodeOfBand : Prop :=
  (∀ v t0 t1 t2 : F64, f64IsNaN v = false → fle t0 t1 = true → fle t1 t2 = true →
    (quantise v t0 t1 t2 = 0 ↔ flt v t0 = true) ∧
    (quantise v t0 t1 t2 = 1 ↔ fle t0 v = true ∧ flt v t1 = true) ∧
    (quantise v t0 t1 t2 = 3 ↔ fle t1 v = true ∧ flt v t2 = true) ∧
    (quantise v t0 t1 t2 = 2 ↔ fle t2 v = true)) ∧
  (0 ^^^ 1 = 1 ∧ 1 ^^^ 3 = 2 ∧ 3 ^^^ 2 = 1)

/-- Classifier `c` gives bits `[31-2c : 30-2c]` of every sub-fingerprint (43_classifier.md R194); its
code quantises the response of R184 to the sums of its shape (R185 to R190) over areas of the image
(R183); and the sixteen classifiers are the rows of the table of R195. -/
def Obligations.SubFingerprintBits : Prop :=
  (∀ (img : Array F64) (i c : Nat), c < 16 →
    ∃ cl, classifiers[c]? = some cl ∧
      ((subFp img i).extractLsb' (30 - 2 * c) 2).toNat = cl.code img i ∧
      let sums := shapeSums img cl.shape i cl.y cl.h cl.w
      cl.code img i = quantise (fsub (flog (fadd f64One sums.1)) (flog (fadd f64One sums.2)))
        cl.t0 cl.t1 cl.t2) ∧
  (∀ img : Array F64,
    let I (x y : Nat) : F64 := elem img (12 * x + y)
    (∀ x1 y1 x2 y2 : Int, x2 < x1 ∨ y2 < y1 → area img x1 y1 x2 y2 = f64PlusZero) ∧
    (∀ x2 y2 : Nat, area img 0 0 x2 y2 = I x2 y2) ∧
    (∀ y1 x2 y2 : Nat, 0 < y1 → y1 ≤ y2 →
      area img 0 y1 x2 y2 = fsub (I x2 y2) (I x2 (y1 - 1))) ∧
    (∀ x1 x2 y2 : Nat, 0 < x1 → x1 ≤ x2 →
      area img x1 0 x2 y2 = fsub (I x2 y2) (I (x1 - 1) y2)) ∧
    (∀ x1 y1 x2 y2 : Nat, 0 < x1 → 0 < y1 → x1 ≤ x2 → y1 ≤ y2 →
      area img x1 y1 x2 y2 =
        fadd (fsub (fsub (I x2 y2) (I (x1 - 1) y2)) (I x2 (y1 - 1))) (I (x1 - 1) (y1 - 1)))) ∧
  (∀ (img : Array F64) (x y h w : Int),
    let A := area img
    let h2 := h / 2
    let w2 := w / 2
    let h3 := h / 3
    let w3 := w / 3
    shapeSums img .whole x y h w = (A x y (x + w - 1) (y + h - 1), f64PlusZero) ∧
    shapeSums img .noteHalves x y h w =
      (A x (y + h2) (x + w - 1) (y + h - 1), A x y (x + w - 1) (y + h2 - 1)) ∧
    shapeSums img .rowHalves x y h w =
      (A (x + w2) y (x + w - 1) (y + h - 1), A x y (x + w2 - 1) (y + h - 1)) ∧
    shapeSums img .checkerboard x y h w =
      (fadd (A x (y + h2) (x + w2 - 1) (y + h - 1)) (A (x + w2) y (x + w - 1) (y + h2 - 1)),
       fadd (A x y (x + w2 - 1) (y + h2 - 1)) (A (x + w2) (y + h2) (x + w - 1) (y + h - 1))) ∧
    shapeSums img .noteThirds x y h w =
      (A x (y + h3) (x + w - 1) (y + 2 * h3 - 1),
       fadd (A x y (x + w - 1) (y + h3 - 1)) (A x (y + 2 * h3) (x + w - 1) (y + h - 1))) ∧
    shapeSums img .rowThirds x y h w =
      (A (x + w3) y (x + 2 * w3 - 1) (y + h - 1),
       fadd (A x y (x + w3 - 1) (y + h - 1)) (A (x + 2 * w3) y (x + w - 1) (y + h - 1)))) ∧
  List.Forall₂ (fun (cl : Classifier) (row : Nat × Nat × Nat × Nat × ℚ × ℚ × ℚ) =>
    match row with
    | (shape, y, h, w, t0, t1, t2) =>
      shapesInOrder[shape]? = some cl.shape ∧ cl.y = y ∧ cl.h = h ∧ cl.w = w ∧
      NearestEven cl.t0 (t0 : ℝ) ∧ NearestEven cl.t1 (t1 : ℝ) ∧ NearestEven cl.t2 (t2 : ℝ))
    classifiers classifierTable

/-- CALCULATE_FINGERPRINT completes from ROW 17 on, replaces the rows of CHROMA by their integral image
(43_classifier.md R181), writes the sub-fingerprints of that image and their compressed string,
finalizes the session, and keeps the rest (45_controller.md R262). -/
def Obligations.CalculateFingerprintCompletes : Prop :=
  ∀ s : State, s.live = true → s.finalized = false → 17 ≤ s.row.toNat → s.row.toNat ≤ 193 →
    let l := s.row.toNat - 15
    let fp := (List.range l).map (subFp s.imageOf.toArray)
    ∃ t, exec .calculateFingerprint s = .next t ∧ t.sessionState = .finalized ∧
      t = { s with
        err := .ok, finalized := true, img := true, chroma := t.chroma, subfp := t.subfp
        sym := t.sym, raw := t.raw, out := t.out, fpLen := t.fpLen, bitsIndex := t.bitsIndex
        bytesLen := t.bytesLen, outLen := t.outLen } ∧
      (∀ i < 12 * s.row.toNat, some (t.chromaAt i) = s.imageOf[i]?) ∧
      (∀ i < l, t.subfpAt i = subFp s.imageOf.toArray i) ∧
      (∀ i, l ≤ i → t.subfpAt i = s.subfpAt i) ∧
      (∀ i, 12 * s.row.toNat ≤ i → t.chromaAt i = s.chromaAt i) ∧
      t.fpLen.toNat = l ∧ t.bitsIndex.toNat = (symbols fp).length ∧
      t.bytesLen.toNat = (rawBytes fp).length ∧
      t.outText = base64 (rawBytes fp) ∧
      (∀ i, t.outLen.toNat ≤ i → t.outAt i = s.outAt i)

/-- 43_classifier.md R197: on an all-zero chromagram every area and every response is +0.0, the
sixteen codes are those listed, and every sub-fingerprint is 0x256DF977. -/
def Obligations.SilenceFingerprint : Prop :=
  (∀ s : State, s.live = true → s.finalized = false → 17 ≤ s.row.toNat → s.row.toNat ≤ 193 →
    (∀ i < 12 * s.row.toNat, s.chromaAt i = f64PlusZero) →
    ∃ t, exec .calculateFingerprint s = .next t ∧
      ∀ i < s.row.toNat - 15, t.subfpAt i = 0x256DF977#32) ∧
  ∀ (r i : Nat), i + 16 ≤ r →
    let img := Array.replicate (12 * r) f64PlusZero
    (∀ x1 y1 x2 y2 : Int, area img x1 y1 x2 y2 = f64PlusZero) ∧
    (∀ c ∈ classifiers,
      let sums := shapeSums img c.shape i c.y c.h c.w
      compareAreas sums.1 sums.2 = f64PlusZero) ∧
    classifiers.map (Classifier.code img i) = [0, 2, 1, 1, 1, 2, 3, 1, 3, 3, 2, 1, 1, 3, 1, 3]

/-! ## Compressor -/

/-- 44_compress.md R211. -/
def Obligations.DeltasXorNeighbours : Prop :=
  ∀ s : List Word, (deltas s).length = s.length ∧
    (∀ h : 0 < s.length, (deltas s)[0]? = some s[0]) ∧
    ∀ i, ∀ h : i + 1 < s.length, (deltas s)[i + 1]? = some (s[i + 1] ^^^ s[i])

/-- The symbols of a delta are the gaps between its set bits and a 0: their running sums are the
1-based positions of the set bits in increasing order; `SYM` is those of the deltas in order
(44_compress.md R212). -/
def Obligations.SymbolsAreGapsOfSetBits : Prop :=
  (∀ d : Word, ∃ gaps : List Nat, deltaSymbols d = gaps ++ [0] ∧
    (∀ g ∈ gaps, 1 ≤ g ∧ g ≤ 32) ∧ gaps.sum ≤ 32 ∧
    (List.range gaps.length).map (fun i => (gaps.take (i + 1)).sum) =
      ((List.range 32).filter fun p => d.getLsbD p).map (· + 1)) ∧
  ∀ s : List Word, symbols s = ((deltas s).map deltaSymbols).flatten

/-- 44_compress.md R214: where each bit of each value goes, the padding, and the length. -/
def Obligations.PackPlacesEveryBit : Prop :=
  ∀ (width : Nat) (v : List Nat),
    (pack width v).length = (v.length * width + 7) / 8 ∧
    ∀ j < 8 * (pack width v).length,
      streamBit (pack width v) j =
        if j < v.length * width then (v.getD (j / width) 0).testBit (j % width) else false

/-- 44_compress.md R219: no buffer of the compressor overflows. -/
def Obligations.CompressorCapacity : Prop :=
  (∀ d : Word, ((deltaSymbols d).filter fun x => decide (7 ≤ x)).length ≤ 4) ∧
  ∀ s : List Word, s.length ≤ 256 →
    (symbols s).length ≤ 33 * s.length ∧ (symbols s).length ≤ 8448 ∧
    (pass1 (symbols s)).length ≤ 3168 ∧ (pass2 (symbols s)).length ≤ 640 ∧
    (rawBytes s).length ≤ 3812 ∧ (base64 (rawBytes s)).length ≤ 5083 ∧ 5083 ≤ outCap

/-- 44_compress.md R217: the characters are the successive 6-bit groups of the bytes read as one
big-endian number, padded with zero bits, in the alphabet written out; `ceil (4 B / 3)` of them, none of them `=`. -/
def Obligations.Base64GivesSixBitGroups : Prop :=
  (List.range 64).map base64Char =
    (['A', 'B', 'C', 'D', 'E', 'F', 'G', 'H', 'I', 'J', 'K', 'L', 'M', 'N', 'O', 'P', 'Q', 'R', 'S',
      'T', 'U', 'V', 'W', 'X', 'Y', 'Z', 'a', 'b', 'c', 'd', 'e', 'f', 'g', 'h', 'i', 'j', 'k', 'l',
      'm', 'n', 'o', 'p', 'q', 'r', 's', 't', 'u', 'v', 'w', 'x', 'y', 'z', '0', '1', '2', '3', '4',
      '5', '6', '7', '8', '9', '-', '_'].map fun ch => BitVec.ofNat 8 ch.toNat) ∧
  ∀ r : List Byte,
    let n := (4 * r.length + 2) / 3
    (base64 r).length = n ∧
    (∀ j < n, (base64 r)[j]? =
      some (base64Char (bigEndian r * 2 ^ (6 * n - 8 * r.length) / 64 ^ (n - 1 - j) % 64))) ∧
    0x3D#8 ∉ base64 r

/-- 44_compress.md R221: the decoder recovers the sub-fingerprints from every byte sequence the
compressor produces. -/
def Obligations.CompressionRoundTrip : Prop :=
  ∀ s : List Word, 2 ≤ s.length → s.length ≤ 256 → decompress (rawBytes s) = s

/-- COMPRESS completes for 2 to 256 sub-fingerprints, leaves their compressed string in OUT and its
lengths in the registers, and keeps the rest (44_compress.md R218, R220). The bytes in RAW are the
algorithm id, the count as 24 bits big-endian, and the two passes (R213, R215, R216). -/
def Obligations.CompressWritesFingerprintString : Prop :=
  ∀ s : State, 2 ≤ s.arg0.toNat → s.arg0.toNat ≤ 256 →
    let fp := (List.range s.arg0.toNat).map s.subfpAt
    ∃ t, exec .compress s = .next t ∧
      t = { s with
        err := .ok, sym := t.sym, raw := t.raw, out := t.out, fpLen := s.arg0
        bitsIndex := t.bitsIndex, bytesLen := t.bytesLen, outLen := t.outLen } ∧
      t.bitsIndex.toNat = (symbols fp).length ∧
      t.bytesLen.toNat = (rawBytes fp).length ∧
      (List.range t.bytesLen.toNat).map t.rawAt = rawBytes fp ∧
      t.rawAt 0 = 1 ∧
      (t.rawAt 1).toNat * 2 ^ 16 + (t.rawAt 2).toNat * 2 ^ 8 + (t.rawAt 3).toNat = s.arg0.toNat ∧
      (rawBytes fp).drop 4 = pack 3 ((symbols fp).map fun x => min x 7) ++
        pack 5 (((symbols fp).filter fun x => decide (7 ≤ x)).map fun x => x - 7) ∧
      t.outText = base64 (rawBytes fp) ∧
      ∀ i, t.outLen.toNat ≤ i → t.outAt i = s.outAt i

/-! ## Arithmetic -/

/-- Every exact ratio that does not overflow is rounded to the nearest value, ties to even, one that
overflows to infinity, and the sign is the one given, also of a zero; an integer of magnitude up to
2^53 is converted exactly (00_scope.md R9). -/
def Obligations.RoundingIsNearestEven : Prop :=
  (∀ v : Int, |v| ≤ 2 ^ 53 → f64IsFinite (f64OfInt v) = true ∧ f64Value (f64OfInt v) = (v : ℚ)) ∧
  ∀ (negative : Bool) (n d : Nat) (e : Int), 0 < d →
    ((n : ℚ) / d * 2 ^ e < overflowBound →
      NearestEven (roundRatio negative n d e)
        (((if negative then -1 else 1) * ((n : ℚ) / d * 2 ^ e) : ℚ) : ℝ)) ∧
    (overflowBound ≤ (n : ℚ) / d * 2 ^ e → roundRatio negative n d e = f64Inf negative) ∧
    f64Negative (roundRatio negative n d e) = negative

/-- The four operations deliver the exact result rounded once to nearest even, infinity with its sign
where it overflows, the zeros, infinities and NaNs of IEEE 754-2008 otherwise (00_scope.md R9): the
first part is for finite operands, the second for NaN operands, the third for infinite ones. -/
def Obligations.ArithmeticRoundsExactResult : Prop :=
  ∀ a b : F64,
    let sign := f64Negative a != f64Negative b
    (f64IsFinite a = true → f64IsFinite b = true →
      let rounds (r : F64) (z : ℚ) : Prop :=
        (|z| < overflowBound → NearestEven r (z : ℝ)) ∧
        (overflowBound ≤ |z| → r = f64Inf (decide (z < 0)))
      rounds (fadd a b) (f64Value a + f64Value b) ∧
      (f64Value a + f64Value b = 0 → fadd a b = f64Zero (f64Negative a && f64Negative b)) ∧
      rounds (fsub a b) (f64Value a - f64Value b) ∧
      (f64Value a - f64Value b = 0 → fsub a b = f64Zero (f64Negative a && !f64Negative b)) ∧
      rounds (fmul a b) (f64Value a * f64Value b) ∧ f64Negative (fmul a b) = sign ∧
      (f64Value b ≠ 0 →
        rounds (fdiv a b) (f64Value a / f64Value b) ∧ f64Negative (fdiv a b) = sign) ∧
      (f64Value b = 0 → f64Value a ≠ 0 → fdiv a b = f64Inf sign) ∧
      (f64Value b = 0 → f64Value a = 0 → f64IsNaN (fdiv a b) = true)) ∧
    (f64IsNaN a = true ∨ f64IsNaN b = true →
      f64IsNaN (fadd a b) = true ∧ f64IsNaN (fsub a b) = true ∧ f64IsNaN (fmul a b) = true ∧
      f64IsNaN (fdiv a b) = true) ∧
    (f64IsInf a = true → f64IsFinite b = true →
      fadd a b = a ∧ fsub a b = a ∧ fdiv a b = f64Inf sign ∧
      (f64Value b ≠ 0 → fmul a b = f64Inf sign) ∧
      (f64Value b = 0 → f64IsNaN (fmul a b) = true)) ∧
    (f64IsFinite a = true → f64IsInf b = true →
      fadd a b = b ∧ fsub a b = f64Inf (!f64Negative b) ∧ fdiv a b = f64Zero sign ∧
      (f64Value a ≠ 0 → fmul a b = f64Inf sign) ∧
      (f64Value a = 0 → f64IsNaN (fmul a b) = true)) ∧
    (f64IsInf a = true → f64IsInf b = true →
      (if sign then f64IsNaN (fadd a b) = true ∧ fsub a b = a
       else fadd a b = a ∧ f64IsNaN (fsub a b) = true) ∧
      fmul a b = f64Inf sign ∧ f64IsNaN (fdiv a b) = true)

/-- The square root of a finite value that is not negative is rounded to nearest even; a zero of either
sign and positive infinity give themselves, a NaN and every other negative value a NaN (00_scope.md
R9). -/
def Obligations.SquareRootRoundsExactResult : Prop :=
  ∀ a : F64,
    (f64IsFinite a = true → f64Negative a = false →
      NearestEven (fsqrt a) (Real.sqrt (f64Value a : ℝ)) ∧ f64Negative (fsqrt a) = false) ∧
    (f64IsZero a = true → fsqrt a = a) ∧
    (f64IsInf a = true → f64Negative a = false → fsqrt a = a) ∧
    (f64IsNaN a = true → f64IsNaN (fsqrt a) = true) ∧
    (f64IsNaN a = false → f64IsZero a = false → f64Negative a = true →
      f64IsNaN (fsqrt a) = true)

/-- The comparisons of finite values are those of their values, an infinity lies beyond every other
value, and a NaN compares with nothing (00_scope.md R9). -/
def Obligations.ComparisonsFollowValues : Prop :=
  (∀ a b : F64, f64IsFinite a = true → f64IsFinite b = true →
    (flt a b = true ↔ f64Value a < f64Value b) ∧ (fle a b = true ↔ f64Value a ≤ f64Value b)) ∧
  (∀ a b : F64, f64IsNaN a = true ∨ f64IsNaN b = true → flt a b = false ∧ fle a b = false) ∧
  ∀ a : F64, f64IsNaN a = false →
    fle (f64Inf true) a = true ∧ fle a (f64Inf false) = true ∧
    (flt (f64Inf true) a = true ↔ a ≠ f64Inf true) ∧
    (flt a (f64Inf false) = true ↔ a ≠ f64Inf false) ∧
    (fle a (f64Inf true) = true ↔ a = f64Inf true) ∧
    (fle (f64Inf false) a = true ↔ a = f64Inf false) ∧
    flt a (f64Inf true) = false ∧ flt (f64Inf false) a = false

/-- Where an enclosure of a cosine or sine is settled, its answer and the value of `COS` or `SIN` are
correctly rounded (00_scope.md R9; how the model computes them is its own, log entry 7). -/
def Obligations.SettledCosineSineCorrectlyRounded : Prop :=
  (∀ (p count : Nat) (a r : F64), (p, count) ∈ [(256, 64), (512, 112)] → trigComputed a = true →
    (cosEnclosure p count a = some r → NearestEven r (Real.cos (f64Value a : ℝ))) ∧
    (sinEnclosure p count a = some r → NearestEven r (Real.sin (f64Value a : ℝ)))) ∧
  (∀ a : F64, trigComputed a = true →
    ((cosEnclosure 256 64 a).isSome = true ∨ (cosEnclosure 512 112 a).isSome = true →
      NearestEven (fcos a) (Real.cos (f64Value a : ℝ))) ∧
    ((sinEnclosure 256 64 a).isSome = true ∨ (sinEnclosure 512 112 a).isSome = true →
      NearestEven (fsin a) (Real.sin (f64Value a : ℝ)))) ∧
  ∀ a : F64, f64IsZero a = true → fcos a = f64One ∧ fsin a = a

/-- Where an enclosure of a logarithm is settled, its answer and the value of `LOG` are correctly
rounded, and `LOG(1.0)` is +0.0 (00_scope.md R9; how the model computes them is its own, log entry
7). -/
def Obligations.SettledLogarithmCorrectlyRounded : Prop :=
  (∀ (p count : Nat) (a r : F64), (p, count) ∈ [(256, 128), (512, 256)] →
    f64IsFinite a = true → f64IsZero a = false → f64Negative a = false →
    logEnclosure p count a = some r → NearestEven r (Real.log (f64Value a : ℝ))) ∧
  (∀ a : F64, f64IsFinite a = true → f64IsZero a = false → f64Negative a = false →
    (logEnclosure 256 128 a).isSome = true ∨ (logEnclosure 512 256 a).isSome = true →
    NearestEven (flog a) (Real.log (f64Value a : ℝ))) ∧
  flog f64One = f64PlusZero
end

