-- ==== Sys2Proof/Laws/Memory.lean ====
section
/-! SUPPORT. What reading and writing a memory do: read after write, and the canonical form. -/

namespace Sys2Proof

theorem Memory.read?_append {β : Type} (m₁ m₂ : Memory β) (i : Nat) :
    Memory.read? (m₁ ++ m₂) i = (Memory.read? m₁ i).or (Memory.read? m₂ i) := by
  induction m₁ with
  | nil => simp [Memory.read?]
  | cons e m ih =>
    simp only [List.cons_append, Memory.read?]
    split
    · rfl
    · exact ih

theorem Memory.read?_eq_none {β : Type} (m : Memory β) (i : Nat) (h : ∀ e ∈ m, e.1 ≠ i) :
    Memory.read? m i = none := by
  induction m with
  | nil => rfl
  | cons e m ih =>
    simp only [Memory.read?, if_neg (h e (by simp))]
    exact ih fun x hx => h x (by simp [hx])

theorem Memory.read?_filter {β : Type} (m : Memory β) (p : Nat → Bool) (i : Nat) :
    Memory.read? (m.filter fun e => p e.1) i = if p i then Memory.read? m i else none := by
  induction m with
  | nil => simp [Memory.read?]
  | cons e m ih =>
    by_cases he : e.1 = i
    · by_cases hp : p i <;> simp [Memory.read?, he, hp, ih]
    · by_cases hp : p e.1 <;> simp [Memory.read?, he, hp, ih]

theorem Memory.read?_run {β : Type} (vs : List β) (lo i : Nat) :
    Memory.read? ((vs.zipIdx lo).map fun p => (p.2, p.1)) i =
      if lo ≤ i then vs[i - lo]? else none := by
  induction vs generalizing lo with
  | nil => simp [Memory.read?]
  | cons v vs ih =>
    simp only [List.zipIdx_cons, List.map_cons, Memory.read?, ih]
    by_cases h : lo = i
    · subst h; simp
    · by_cases hle : lo ≤ i
      · have h1 : lo + 1 ≤ i := by omega
        rw [if_neg h, if_pos h1, if_pos hle, show i - lo = (i - (lo + 1)) + 1 by omega,
          List.getElem?_cons_succ]
      · rw [if_neg h, if_neg (by omega), if_neg hle]

/-- Reading after a write of a run: the run's elements are the values written, every other element is
as it was. -/
theorem Memory.read?_splice {β : Type} (m : Memory β) (lo : Nat) (vs : List β) (i : Nat) :
    (m.splice lo vs).read? i =
      if lo ≤ i ∧ i < lo + vs.length then vs[i - lo]? else m.read? i := by
  have h₁ := Memory.read?_filter m (fun a => decide (a < lo)) i
  have h₂ := Memory.read?_filter m (fun a => decide (lo + vs.length ≤ a)) i
  unfold Memory.splice
  rw [Memory.read?_append, Memory.read?_append, h₁, h₂, Memory.read?_run]
  by_cases ha : i < lo
  · simp [ha, show ¬ lo ≤ i by omega, show ¬ lo + vs.length ≤ i by omega]
  · by_cases hb : i < lo + vs.length
    · simp [ha, hb, show lo ≤ i by omega, show ¬ lo + vs.length ≤ i by omega]
    · rw [List.getElem?_eq_none (by omega)]
      simp [ha, hb, show lo ≤ i by omega, show lo + vs.length ≤ i by omega]

theorem Memory.read?_splice_outside {β : Type} (m : Memory β) (lo : Nat) (vs : List β) (i : Nat)
    (h : i < lo ∨ lo + vs.length ≤ i) : (m.splice lo vs).read? i = m.read? i := by
  rw [Memory.read?_splice, if_neg (by omega)]

theorem Memory.read?_splice_inside {β : Type} (m : Memory β) (lo : Nat) (vs : List β) (i : Nat)
    (h : i < vs.length) : (m.splice lo vs).read? (lo + i) = some vs[i] := by
  rw [Memory.read?_splice, if_pos ⟨by omega, by omega⟩]
  simp [h]

theorem Memory.mem_run {β : Type} (vs : List β) (lo : Nat) (e : Nat × β)
    (h : e ∈ (vs.zipIdx lo).map fun p => (p.2, p.1)) : lo ≤ e.1 ∧ e.1 < lo + vs.length := by
  obtain ⟨p, hp, rfl⟩ := List.mem_map.1 h
  obtain ⟨v, k⟩ := p
  have := List.mem_zipIdx hp
  simp only
  omega

theorem Memory.run_pairwise {β : Type} (vs : List β) (lo : Nat) :
    ((vs.zipIdx lo).map fun p => (p.2, p.1)).Pairwise fun a b => a.1 < b.1 := by
  induction vs generalizing lo with
  | nil => simp
  | cons v vs ih =>
    simp only [List.zipIdx_cons, List.map_cons]
    refine List.pairwise_cons.2 ⟨fun e he => ?_, ih (lo + 1)⟩
    have := Memory.mem_run vs (lo + 1) e he
    simp only
    omega

/-- Writing a run inside the capacity keeps the canonical form. -/
theorem Memory.splice_wf {β : Type} {capacity : Nat} {m : Memory β} (h : m.wf capacity) (lo : Nat)
    (vs : List β) (hcap : lo + vs.length ≤ capacity) : (m.splice lo vs).wf capacity := by
  obtain ⟨hs, hb⟩ := h
  unfold Memory.splice
  refine ⟨List.pairwise_append.2 ⟨List.pairwise_append.2 ⟨hs.filter _, Memory.run_pairwise vs lo, ?_⟩,
    hs.filter _, ?_⟩, fun e he => ?_⟩
  · intro a ha b hb'
    have := Memory.mem_run vs lo b hb'
    have := (List.mem_filter.1 ha).2
    simp only [decide_eq_true_eq] at this
    omega
  · intro a ha b hb'
    have h₂ := (List.mem_filter.1 hb').2
    simp only [decide_eq_true_eq] at h₂
    rcases List.mem_append.1 ha with ha | ha
    · have := (List.mem_filter.1 ha).2
      simp only [decide_eq_true_eq] at this
      omega
    · have := Memory.mem_run vs lo a ha
      omega
  · rcases List.mem_append.1 he with he | he
    · rcases List.mem_append.1 he with he | he
      · exact hb e (List.mem_filter.1 he).1
      · have := Memory.mem_run vs lo e he
        omega
    · exact hb e (List.mem_filter.1 he).1

@[simp] theorem Memory.slice_length {β : Type} (m : Memory β) (unwritten : Nat → β) (lo n : Nat) :
    (m.slice unwritten lo n).length = n := by
  simp [Memory.slice]

theorem Memory.slice_getElem? {β : Type} (m : Memory β) (unwritten : Nat → β) (lo n i : Nat)
    (h : i < n) :
    (m.slice unwritten lo n)[i]? = some ((m.read? (lo + i)).getD (unwritten (lo + i))) := by
  simp [Memory.slice, h]

/-- Reading back the whole run that was written. -/
theorem Memory.slice_splice {β : Type} (m : Memory β) (unwritten : Nat → β) (lo : Nat)
    (vs : List β) : (m.splice lo vs).slice unwritten lo vs.length = vs := by
  refine List.ext_getElem? fun i => ?_
  by_cases h : i < vs.length
  · rw [Memory.slice_getElem? _ _ _ _ _ h, Memory.read?_splice_inside m lo vs i h]
    simp [h]
  · rw [List.getElem?_eq_none (by simpa using h), List.getElem?_eq_none (by omega)]

end Sys2Proof
end

