-- ==== Sys2Proof/Laws/State.lean ====
section
/-! SUPPORT. For each named update of the state, the value of each field after it, so that no later
proof unfolds a record update. -/

namespace Sys2Proof.Machine

/-! ## `raise` -/

@[simp] theorem State.raise_err (s : State) (e : ErrCode) :
    (s.raise e).err = e := rfl

@[simp] theorem State.raise_arg0 (s : State) (e : ErrCode) :
    (s.raise e).arg0 = s.arg0 := rfl

@[simp] theorem State.raise_result (s : State) (e : ErrCode) :
    (s.raise e).result = s.result := rfl

@[simp] theorem State.raise_ctrlFmt (s : State) (e : ErrCode) :
    (s.raise e).ctrlFmt = s.ctrlFmt := rfl

@[simp] theorem State.raise_framesProcessed (s : State) (e : ErrCode) :
    (s.raise e).framesProcessed = s.framesProcessed := rfl

@[simp] theorem State.raise_row (s : State) (e : ErrCode) :
    (s.raise e).row = s.row := rfl

@[simp] theorem State.raise_coeff (s : State) (e : ErrCode) :
    (s.raise e).coeff = s.coeff := rfl

@[simp] theorem State.raise_noteIndex (s : State) (e : ErrCode) :
    (s.raise e).noteIndex = s.noteIndex := rfl

@[simp] theorem State.raise_carryLen (s : State) (e : ErrCode) :
    (s.raise e).carryLen = s.carryLen := rfl

@[simp] theorem State.raise_bitsIndex (s : State) (e : ErrCode) :
    (s.raise e).bitsIndex = s.bitsIndex := rfl

@[simp] theorem State.raise_fpLen (s : State) (e : ErrCode) :
    (s.raise e).fpLen = s.fpLen := rfl

@[simp] theorem State.raise_bytesLen (s : State) (e : ErrCode) :
    (s.raise e).bytesLen = s.bytesLen := rfl

@[simp] theorem State.raise_outLen (s : State) (e : ErrCode) :
    (s.raise e).outLen = s.outLen := rfl

@[simp] theorem State.raise_tableValid (s : State) (e : ErrCode) :
    (s.raise e).tableValid = s.tableValid := rfl

@[simp] theorem State.raise_sessionFmt (s : State) (e : ErrCode) :
    (s.raise e).sessionFmt = s.sessionFmt := rfl

@[simp] theorem State.raise_live (s : State) (e : ErrCode) :
    (s.raise e).live = s.live := rfl

@[simp] theorem State.raise_finalized (s : State) (e : ErrCode) :
    (s.raise e).finalized = s.finalized := rfl

@[simp] theorem State.raise_img (s : State) (e : ErrCode) :
    (s.raise e).img = s.img := rfl

@[simp] theorem State.raise_sin (s : State) (e : ErrCode) :
    (s.raise e).sin = s.sin := rfl

@[simp] theorem State.raise_fb (s : State) (e : ErrCode) :
    (s.raise e).fb = s.fb := rfl

@[simp] theorem State.raise_subfp (s : State) (e : ErrCode) :
    (s.raise e).subfp = s.subfp := rfl

@[simp] theorem State.raise_out (s : State) (e : ErrCode) :
    (s.raise e).out = s.out := rfl

@[simp] theorem State.raise_carry (s : State) (e : ErrCode) :
    (s.raise e).carry = s.carry := rfl

@[simp] theorem State.raise_ring (s : State) (e : ErrCode) :
    (s.raise e).ring = s.ring := rfl

@[simp] theorem State.raise_chroma (s : State) (e : ErrCode) :
    (s.raise e).chroma = s.chroma := rfl

@[simp] theorem State.raise_sym (s : State) (e : ErrCode) :
    (s.raise e).sym = s.sym := rfl

@[simp] theorem State.raise_raw (s : State) (e : ErrCode) :
    (s.raise e).raw = s.raw := rfl

@[simp] theorem State.raise_caches (s : State) (e : ErrCode) :
    (s.raise e).caches = s.caches := rfl

@[simp] theorem State.raise_pending (s : State) (e : ErrCode) :
    (s.raise e).pending = s.pending := rfl

@[simp] theorem State.raise_lastRead (s : State) (e : ErrCode) :
    (s.raise e).lastRead = s.lastRead := rfl

@[simp] theorem State.raise_allocDraws (s : State) (e : ErrCode) :
    (s.raise e).allocDraws = s.allocDraws := rfl

@[simp] theorem State.raise_drawCount (s : State) (e : ErrCode) :
    (s.raise e).drawCount = s.drawCount := rfl

@[simp] theorem State.raise_resetCount (s : State) (e : ErrCode) :
    (s.raise e).resetCount = s.resetCount := rfl

/-! ## `complete` -/

@[simp] theorem State.complete_err (s : State) :
    (s.complete).err = .ok := rfl

@[simp] theorem State.complete_arg0 (s : State) :
    (s.complete).arg0 = s.arg0 := rfl

@[simp] theorem State.complete_result (s : State) :
    (s.complete).result = s.result := rfl

@[simp] theorem State.complete_ctrlFmt (s : State) :
    (s.complete).ctrlFmt = s.ctrlFmt := rfl

@[simp] theorem State.complete_framesProcessed (s : State) :
    (s.complete).framesProcessed = s.framesProcessed := rfl

@[simp] theorem State.complete_row (s : State) :
    (s.complete).row = s.row := rfl

@[simp] theorem State.complete_coeff (s : State) :
    (s.complete).coeff = s.coeff := rfl

@[simp] theorem State.complete_noteIndex (s : State) :
    (s.complete).noteIndex = s.noteIndex := rfl

@[simp] theorem State.complete_carryLen (s : State) :
    (s.complete).carryLen = s.carryLen := rfl

@[simp] theorem State.complete_bitsIndex (s : State) :
    (s.complete).bitsIndex = s.bitsIndex := rfl

@[simp] theorem State.complete_fpLen (s : State) :
    (s.complete).fpLen = s.fpLen := rfl

@[simp] theorem State.complete_bytesLen (s : State) :
    (s.complete).bytesLen = s.bytesLen := rfl

@[simp] theorem State.complete_outLen (s : State) :
    (s.complete).outLen = s.outLen := rfl

@[simp] theorem State.complete_tableValid (s : State) :
    (s.complete).tableValid = s.tableValid := rfl

@[simp] theorem State.complete_sessionFmt (s : State) :
    (s.complete).sessionFmt = s.sessionFmt := rfl

@[simp] theorem State.complete_live (s : State) :
    (s.complete).live = s.live := rfl

@[simp] theorem State.complete_finalized (s : State) :
    (s.complete).finalized = s.finalized := rfl

@[simp] theorem State.complete_img (s : State) :
    (s.complete).img = s.img := rfl

@[simp] theorem State.complete_sin (s : State) :
    (s.complete).sin = s.sin := rfl

@[simp] theorem State.complete_fb (s : State) :
    (s.complete).fb = s.fb := rfl

@[simp] theorem State.complete_subfp (s : State) :
    (s.complete).subfp = s.subfp := rfl

@[simp] theorem State.complete_out (s : State) :
    (s.complete).out = s.out := rfl

@[simp] theorem State.complete_carry (s : State) :
    (s.complete).carry = s.carry := rfl

@[simp] theorem State.complete_ring (s : State) :
    (s.complete).ring = s.ring := rfl

@[simp] theorem State.complete_chroma (s : State) :
    (s.complete).chroma = s.chroma := rfl

@[simp] theorem State.complete_sym (s : State) :
    (s.complete).sym = s.sym := rfl

@[simp] theorem State.complete_raw (s : State) :
    (s.complete).raw = s.raw := rfl

@[simp] theorem State.complete_caches (s : State) :
    (s.complete).caches = s.caches := rfl

@[simp] theorem State.complete_pending (s : State) :
    (s.complete).pending = s.pending := rfl

@[simp] theorem State.complete_lastRead (s : State) :
    (s.complete).lastRead = s.lastRead := rfl

@[simp] theorem State.complete_allocDraws (s : State) :
    (s.complete).allocDraws = s.allocDraws := rfl

@[simp] theorem State.complete_drawCount (s : State) :
    (s.complete).drawCount = s.drawCount := rfl

@[simp] theorem State.complete_resetCount (s : State) :
    (s.complete).resetCount = s.resetCount := rfl

/-! ## `writeFb` -/

@[simp] theorem State.writeFb_err (s : State) (vs : List F64) :
    (s.writeFb vs).err = s.err := rfl

@[simp] theorem State.writeFb_arg0 (s : State) (vs : List F64) :
    (s.writeFb vs).arg0 = s.arg0 := rfl

@[simp] theorem State.writeFb_result (s : State) (vs : List F64) :
    (s.writeFb vs).result = s.result := rfl

@[simp] theorem State.writeFb_ctrlFmt (s : State) (vs : List F64) :
    (s.writeFb vs).ctrlFmt = s.ctrlFmt := rfl

@[simp] theorem State.writeFb_framesProcessed (s : State) (vs : List F64) :
    (s.writeFb vs).framesProcessed = s.framesProcessed := rfl

@[simp] theorem State.writeFb_row (s : State) (vs : List F64) :
    (s.writeFb vs).row = s.row := rfl

@[simp] theorem State.writeFb_coeff (s : State) (vs : List F64) :
    (s.writeFb vs).coeff = s.coeff := rfl

@[simp] theorem State.writeFb_noteIndex (s : State) (vs : List F64) :
    (s.writeFb vs).noteIndex = s.noteIndex := rfl

@[simp] theorem State.writeFb_carryLen (s : State) (vs : List F64) :
    (s.writeFb vs).carryLen = s.carryLen := rfl

@[simp] theorem State.writeFb_bitsIndex (s : State) (vs : List F64) :
    (s.writeFb vs).bitsIndex = s.bitsIndex := rfl

@[simp] theorem State.writeFb_fpLen (s : State) (vs : List F64) :
    (s.writeFb vs).fpLen = s.fpLen := rfl

@[simp] theorem State.writeFb_bytesLen (s : State) (vs : List F64) :
    (s.writeFb vs).bytesLen = s.bytesLen := rfl

@[simp] theorem State.writeFb_outLen (s : State) (vs : List F64) :
    (s.writeFb vs).outLen = s.outLen := rfl

@[simp] theorem State.writeFb_tableValid (s : State) (vs : List F64) :
    (s.writeFb vs).tableValid = s.tableValid := rfl

@[simp] theorem State.writeFb_sessionFmt (s : State) (vs : List F64) :
    (s.writeFb vs).sessionFmt = s.sessionFmt := rfl

@[simp] theorem State.writeFb_live (s : State) (vs : List F64) :
    (s.writeFb vs).live = s.live := rfl

@[simp] theorem State.writeFb_finalized (s : State) (vs : List F64) :
    (s.writeFb vs).finalized = s.finalized := rfl

@[simp] theorem State.writeFb_img (s : State) (vs : List F64) :
    (s.writeFb vs).img = s.img := rfl

@[simp] theorem State.writeFb_sin (s : State) (vs : List F64) :
    (s.writeFb vs).sin = s.sin := rfl

@[simp] theorem State.writeFb_fb (s : State) (vs : List F64) :
    (s.writeFb vs).fb = s.fb.splice 0 vs := rfl

@[simp] theorem State.writeFb_subfp (s : State) (vs : List F64) :
    (s.writeFb vs).subfp = s.subfp := rfl

@[simp] theorem State.writeFb_out (s : State) (vs : List F64) :
    (s.writeFb vs).out = s.out := rfl

@[simp] theorem State.writeFb_carry (s : State) (vs : List F64) :
    (s.writeFb vs).carry = s.carry := rfl

@[simp] theorem State.writeFb_ring (s : State) (vs : List F64) :
    (s.writeFb vs).ring = s.ring := rfl

@[simp] theorem State.writeFb_chroma (s : State) (vs : List F64) :
    (s.writeFb vs).chroma = s.chroma := rfl

@[simp] theorem State.writeFb_sym (s : State) (vs : List F64) :
    (s.writeFb vs).sym = s.sym := rfl

@[simp] theorem State.writeFb_raw (s : State) (vs : List F64) :
    (s.writeFb vs).raw = s.raw := rfl

@[simp] theorem State.writeFb_caches (s : State) (vs : List F64) :
    (s.writeFb vs).caches = s.caches := rfl

@[simp] theorem State.writeFb_pending (s : State) (vs : List F64) :
    (s.writeFb vs).pending = s.pending := rfl

@[simp] theorem State.writeFb_lastRead (s : State) (vs : List F64) :
    (s.writeFb vs).lastRead = s.lastRead := rfl

@[simp] theorem State.writeFb_allocDraws (s : State) (vs : List F64) :
    (s.writeFb vs).allocDraws = s.allocDraws := rfl

@[simp] theorem State.writeFb_drawCount (s : State) (vs : List F64) :
    (s.writeFb vs).drawCount = s.drawCount := rfl

@[simp] theorem State.writeFb_resetCount (s : State) (vs : List F64) :
    (s.writeFb vs).resetCount = s.resetCount := rfl

/-! ## `writeSubfp` -/

@[simp] theorem State.writeSubfp_err (s : State) (vs : List Word) :
    (s.writeSubfp vs).err = s.err := rfl

@[simp] theorem State.writeSubfp_arg0 (s : State) (vs : List Word) :
    (s.writeSubfp vs).arg0 = s.arg0 := rfl

@[simp] theorem State.writeSubfp_result (s : State) (vs : List Word) :
    (s.writeSubfp vs).result = s.result := rfl

@[simp] theorem State.writeSubfp_ctrlFmt (s : State) (vs : List Word) :
    (s.writeSubfp vs).ctrlFmt = s.ctrlFmt := rfl

@[simp] theorem State.writeSubfp_framesProcessed (s : State) (vs : List Word) :
    (s.writeSubfp vs).framesProcessed = s.framesProcessed := rfl

@[simp] theorem State.writeSubfp_row (s : State) (vs : List Word) :
    (s.writeSubfp vs).row = s.row := rfl

@[simp] theorem State.writeSubfp_coeff (s : State) (vs : List Word) :
    (s.writeSubfp vs).coeff = s.coeff := rfl

@[simp] theorem State.writeSubfp_noteIndex (s : State) (vs : List Word) :
    (s.writeSubfp vs).noteIndex = s.noteIndex := rfl

@[simp] theorem State.writeSubfp_carryLen (s : State) (vs : List Word) :
    (s.writeSubfp vs).carryLen = s.carryLen := rfl

@[simp] theorem State.writeSubfp_bitsIndex (s : State) (vs : List Word) :
    (s.writeSubfp vs).bitsIndex = s.bitsIndex := rfl

@[simp] theorem State.writeSubfp_fpLen (s : State) (vs : List Word) :
    (s.writeSubfp vs).fpLen = s.fpLen := rfl

@[simp] theorem State.writeSubfp_bytesLen (s : State) (vs : List Word) :
    (s.writeSubfp vs).bytesLen = s.bytesLen := rfl

@[simp] theorem State.writeSubfp_outLen (s : State) (vs : List Word) :
    (s.writeSubfp vs).outLen = s.outLen := rfl

@[simp] theorem State.writeSubfp_tableValid (s : State) (vs : List Word) :
    (s.writeSubfp vs).tableValid = s.tableValid := rfl

@[simp] theorem State.writeSubfp_sessionFmt (s : State) (vs : List Word) :
    (s.writeSubfp vs).sessionFmt = s.sessionFmt := rfl

@[simp] theorem State.writeSubfp_live (s : State) (vs : List Word) :
    (s.writeSubfp vs).live = s.live := rfl

@[simp] theorem State.writeSubfp_finalized (s : State) (vs : List Word) :
    (s.writeSubfp vs).finalized = s.finalized := rfl

@[simp] theorem State.writeSubfp_img (s : State) (vs : List Word) :
    (s.writeSubfp vs).img = s.img := rfl

@[simp] theorem State.writeSubfp_sin (s : State) (vs : List Word) :
    (s.writeSubfp vs).sin = s.sin := rfl

@[simp] theorem State.writeSubfp_fb (s : State) (vs : List Word) :
    (s.writeSubfp vs).fb = s.fb := rfl

@[simp] theorem State.writeSubfp_subfp (s : State) (vs : List Word) :
    (s.writeSubfp vs).subfp = s.subfp.splice 0 vs := rfl

@[simp] theorem State.writeSubfp_out (s : State) (vs : List Word) :
    (s.writeSubfp vs).out = s.out := rfl

@[simp] theorem State.writeSubfp_carry (s : State) (vs : List Word) :
    (s.writeSubfp vs).carry = s.carry := rfl

@[simp] theorem State.writeSubfp_ring (s : State) (vs : List Word) :
    (s.writeSubfp vs).ring = s.ring := rfl

@[simp] theorem State.writeSubfp_chroma (s : State) (vs : List Word) :
    (s.writeSubfp vs).chroma = s.chroma := rfl

@[simp] theorem State.writeSubfp_sym (s : State) (vs : List Word) :
    (s.writeSubfp vs).sym = s.sym := rfl

@[simp] theorem State.writeSubfp_raw (s : State) (vs : List Word) :
    (s.writeSubfp vs).raw = s.raw := rfl

@[simp] theorem State.writeSubfp_caches (s : State) (vs : List Word) :
    (s.writeSubfp vs).caches = s.caches := rfl

@[simp] theorem State.writeSubfp_pending (s : State) (vs : List Word) :
    (s.writeSubfp vs).pending = s.pending := rfl

@[simp] theorem State.writeSubfp_lastRead (s : State) (vs : List Word) :
    (s.writeSubfp vs).lastRead = s.lastRead := rfl

@[simp] theorem State.writeSubfp_allocDraws (s : State) (vs : List Word) :
    (s.writeSubfp vs).allocDraws = s.allocDraws := rfl

@[simp] theorem State.writeSubfp_drawCount (s : State) (vs : List Word) :
    (s.writeSubfp vs).drawCount = s.drawCount := rfl

@[simp] theorem State.writeSubfp_resetCount (s : State) (vs : List Word) :
    (s.writeSubfp vs).resetCount = s.resetCount := rfl

/-! ## `writeRingSlot` -/

@[simp] theorem State.writeRingSlot_err (s : State) (slot : Nat) (vs : List F64) :
    (s.writeRingSlot slot vs).err = s.err := rfl

@[simp] theorem State.writeRingSlot_arg0 (s : State) (slot : Nat) (vs : List F64) :
    (s.writeRingSlot slot vs).arg0 = s.arg0 := rfl

@[simp] theorem State.writeRingSlot_result (s : State) (slot : Nat) (vs : List F64) :
    (s.writeRingSlot slot vs).result = s.result := rfl

@[simp] theorem State.writeRingSlot_ctrlFmt (s : State) (slot : Nat) (vs : List F64) :
    (s.writeRingSlot slot vs).ctrlFmt = s.ctrlFmt := rfl

@[simp] theorem State.writeRingSlot_framesProcessed (s : State) (slot : Nat) (vs : List F64) :
    (s.writeRingSlot slot vs).framesProcessed = s.framesProcessed := rfl

@[simp] theorem State.writeRingSlot_row (s : State) (slot : Nat) (vs : List F64) :
    (s.writeRingSlot slot vs).row = s.row := rfl

@[simp] theorem State.writeRingSlot_coeff (s : State) (slot : Nat) (vs : List F64) :
    (s.writeRingSlot slot vs).coeff = s.coeff := rfl

@[simp] theorem State.writeRingSlot_noteIndex (s : State) (slot : Nat) (vs : List F64) :
    (s.writeRingSlot slot vs).noteIndex = s.noteIndex := rfl

@[simp] theorem State.writeRingSlot_carryLen (s : State) (slot : Nat) (vs : List F64) :
    (s.writeRingSlot slot vs).carryLen = s.carryLen := rfl

@[simp] theorem State.writeRingSlot_bitsIndex (s : State) (slot : Nat) (vs : List F64) :
    (s.writeRingSlot slot vs).bitsIndex = s.bitsIndex := rfl

@[simp] theorem State.writeRingSlot_fpLen (s : State) (slot : Nat) (vs : List F64) :
    (s.writeRingSlot slot vs).fpLen = s.fpLen := rfl

@[simp] theorem State.writeRingSlot_bytesLen (s : State) (slot : Nat) (vs : List F64) :
    (s.writeRingSlot slot vs).bytesLen = s.bytesLen := rfl

@[simp] theorem State.writeRingSlot_outLen (s : State) (slot : Nat) (vs : List F64) :
    (s.writeRingSlot slot vs).outLen = s.outLen := rfl

@[simp] theorem State.writeRingSlot_tableValid (s : State) (slot : Nat) (vs : List F64) :
    (s.writeRingSlot slot vs).tableValid = s.tableValid := rfl

@[simp] theorem State.writeRingSlot_sessionFmt (s : State) (slot : Nat) (vs : List F64) :
    (s.writeRingSlot slot vs).sessionFmt = s.sessionFmt := rfl

@[simp] theorem State.writeRingSlot_live (s : State) (slot : Nat) (vs : List F64) :
    (s.writeRingSlot slot vs).live = s.live := rfl

@[simp] theorem State.writeRingSlot_finalized (s : State) (slot : Nat) (vs : List F64) :
    (s.writeRingSlot slot vs).finalized = s.finalized := rfl

@[simp] theorem State.writeRingSlot_img (s : State) (slot : Nat) (vs : List F64) :
    (s.writeRingSlot slot vs).img = s.img := rfl

@[simp] theorem State.writeRingSlot_sin (s : State) (slot : Nat) (vs : List F64) :
    (s.writeRingSlot slot vs).sin = s.sin := rfl

@[simp] theorem State.writeRingSlot_fb (s : State) (slot : Nat) (vs : List F64) :
    (s.writeRingSlot slot vs).fb = s.fb := rfl

@[simp] theorem State.writeRingSlot_subfp (s : State) (slot : Nat) (vs : List F64) :
    (s.writeRingSlot slot vs).subfp = s.subfp := rfl

@[simp] theorem State.writeRingSlot_out (s : State) (slot : Nat) (vs : List F64) :
    (s.writeRingSlot slot vs).out = s.out := rfl

@[simp] theorem State.writeRingSlot_carry (s : State) (slot : Nat) (vs : List F64) :
    (s.writeRingSlot slot vs).carry = s.carry := rfl

@[simp] theorem State.writeRingSlot_ring (s : State) (slot : Nat) (vs : List F64) :
    (s.writeRingSlot slot vs).ring = s.ring.splice (notes * slot) vs := rfl

@[simp] theorem State.writeRingSlot_chroma (s : State) (slot : Nat) (vs : List F64) :
    (s.writeRingSlot slot vs).chroma = s.chroma := rfl

@[simp] theorem State.writeRingSlot_sym (s : State) (slot : Nat) (vs : List F64) :
    (s.writeRingSlot slot vs).sym = s.sym := rfl

@[simp] theorem State.writeRingSlot_raw (s : State) (slot : Nat) (vs : List F64) :
    (s.writeRingSlot slot vs).raw = s.raw := rfl

@[simp] theorem State.writeRingSlot_caches (s : State) (slot : Nat) (vs : List F64) :
    (s.writeRingSlot slot vs).caches = s.caches := rfl

@[simp] theorem State.writeRingSlot_pending (s : State) (slot : Nat) (vs : List F64) :
    (s.writeRingSlot slot vs).pending = s.pending := rfl

@[simp] theorem State.writeRingSlot_lastRead (s : State) (slot : Nat) (vs : List F64) :
    (s.writeRingSlot slot vs).lastRead = s.lastRead := rfl

@[simp] theorem State.writeRingSlot_allocDraws (s : State) (slot : Nat) (vs : List F64) :
    (s.writeRingSlot slot vs).allocDraws = s.allocDraws := rfl

@[simp] theorem State.writeRingSlot_drawCount (s : State) (slot : Nat) (vs : List F64) :
    (s.writeRingSlot slot vs).drawCount = s.drawCount := rfl

@[simp] theorem State.writeRingSlot_resetCount (s : State) (slot : Nat) (vs : List F64) :
    (s.writeRingSlot slot vs).resetCount = s.resetCount := rfl

/-! ## `appendRow` -/

@[simp] theorem State.appendRow_err (s : State) (vs : List F64) :
    (s.appendRow vs).err = s.err := rfl

@[simp] theorem State.appendRow_arg0 (s : State) (vs : List F64) :
    (s.appendRow vs).arg0 = s.arg0 := rfl

@[simp] theorem State.appendRow_result (s : State) (vs : List F64) :
    (s.appendRow vs).result = s.result := rfl

@[simp] theorem State.appendRow_ctrlFmt (s : State) (vs : List F64) :
    (s.appendRow vs).ctrlFmt = s.ctrlFmt := rfl

@[simp] theorem State.appendRow_framesProcessed (s : State) (vs : List F64) :
    (s.appendRow vs).framesProcessed = s.framesProcessed := rfl

@[simp] theorem State.appendRow_row (s : State) (vs : List F64) :
    (s.appendRow vs).row = s.row + 1 := rfl

@[simp] theorem State.appendRow_coeff (s : State) (vs : List F64) :
    (s.appendRow vs).coeff = s.coeff := rfl

@[simp] theorem State.appendRow_noteIndex (s : State) (vs : List F64) :
    (s.appendRow vs).noteIndex = s.noteIndex := rfl

@[simp] theorem State.appendRow_carryLen (s : State) (vs : List F64) :
    (s.appendRow vs).carryLen = s.carryLen := rfl

@[simp] theorem State.appendRow_bitsIndex (s : State) (vs : List F64) :
    (s.appendRow vs).bitsIndex = s.bitsIndex := rfl

@[simp] theorem State.appendRow_fpLen (s : State) (vs : List F64) :
    (s.appendRow vs).fpLen = s.fpLen := rfl

@[simp] theorem State.appendRow_bytesLen (s : State) (vs : List F64) :
    (s.appendRow vs).bytesLen = s.bytesLen := rfl

@[simp] theorem State.appendRow_outLen (s : State) (vs : List F64) :
    (s.appendRow vs).outLen = s.outLen := rfl

@[simp] theorem State.appendRow_tableValid (s : State) (vs : List F64) :
    (s.appendRow vs).tableValid = s.tableValid := rfl

@[simp] theorem State.appendRow_sessionFmt (s : State) (vs : List F64) :
    (s.appendRow vs).sessionFmt = s.sessionFmt := rfl

@[simp] theorem State.appendRow_live (s : State) (vs : List F64) :
    (s.appendRow vs).live = s.live := rfl

@[simp] theorem State.appendRow_finalized (s : State) (vs : List F64) :
    (s.appendRow vs).finalized = s.finalized := rfl

@[simp] theorem State.appendRow_img (s : State) (vs : List F64) :
    (s.appendRow vs).img = s.img := rfl

@[simp] theorem State.appendRow_sin (s : State) (vs : List F64) :
    (s.appendRow vs).sin = s.sin := rfl

@[simp] theorem State.appendRow_fb (s : State) (vs : List F64) :
    (s.appendRow vs).fb = s.fb := rfl

@[simp] theorem State.appendRow_subfp (s : State) (vs : List F64) :
    (s.appendRow vs).subfp = s.subfp := rfl

@[simp] theorem State.appendRow_out (s : State) (vs : List F64) :
    (s.appendRow vs).out = s.out := rfl

@[simp] theorem State.appendRow_carry (s : State) (vs : List F64) :
    (s.appendRow vs).carry = s.carry := rfl

@[simp] theorem State.appendRow_ring (s : State) (vs : List F64) :
    (s.appendRow vs).ring = s.ring := rfl

@[simp] theorem State.appendRow_chroma (s : State) (vs : List F64) :
    (s.appendRow vs).chroma = s.chroma.splice (notes * s.row.toNat) vs := rfl

@[simp] theorem State.appendRow_sym (s : State) (vs : List F64) :
    (s.appendRow vs).sym = s.sym := rfl

@[simp] theorem State.appendRow_raw (s : State) (vs : List F64) :
    (s.appendRow vs).raw = s.raw := rfl

@[simp] theorem State.appendRow_caches (s : State) (vs : List F64) :
    (s.appendRow vs).caches = s.caches := rfl

@[simp] theorem State.appendRow_pending (s : State) (vs : List F64) :
    (s.appendRow vs).pending = s.pending := rfl

@[simp] theorem State.appendRow_lastRead (s : State) (vs : List F64) :
    (s.appendRow vs).lastRead = s.lastRead := rfl

@[simp] theorem State.appendRow_allocDraws (s : State) (vs : List F64) :
    (s.appendRow vs).allocDraws = s.allocDraws := rfl

@[simp] theorem State.appendRow_drawCount (s : State) (vs : List F64) :
    (s.appendRow vs).drawCount = s.drawCount := rfl

@[simp] theorem State.appendRow_resetCount (s : State) (vs : List F64) :
    (s.appendRow vs).resetCount = s.resetCount := rfl

/-! ## `writeImage` -/

@[simp] theorem State.writeImage_err (s : State) (vs : List F64) :
    (s.writeImage vs).err = s.err := rfl

@[simp] theorem State.writeImage_arg0 (s : State) (vs : List F64) :
    (s.writeImage vs).arg0 = s.arg0 := rfl

@[simp] theorem State.writeImage_result (s : State) (vs : List F64) :
    (s.writeImage vs).result = s.result := rfl

@[simp] theorem State.writeImage_ctrlFmt (s : State) (vs : List F64) :
    (s.writeImage vs).ctrlFmt = s.ctrlFmt := rfl

@[simp] theorem State.writeImage_framesProcessed (s : State) (vs : List F64) :
    (s.writeImage vs).framesProcessed = s.framesProcessed := rfl

@[simp] theorem State.writeImage_row (s : State) (vs : List F64) :
    (s.writeImage vs).row = s.row := rfl

@[simp] theorem State.writeImage_coeff (s : State) (vs : List F64) :
    (s.writeImage vs).coeff = s.coeff := rfl

@[simp] theorem State.writeImage_noteIndex (s : State) (vs : List F64) :
    (s.writeImage vs).noteIndex = s.noteIndex := rfl

@[simp] theorem State.writeImage_carryLen (s : State) (vs : List F64) :
    (s.writeImage vs).carryLen = s.carryLen := rfl

@[simp] theorem State.writeImage_bitsIndex (s : State) (vs : List F64) :
    (s.writeImage vs).bitsIndex = s.bitsIndex := rfl

@[simp] theorem State.writeImage_fpLen (s : State) (vs : List F64) :
    (s.writeImage vs).fpLen = s.fpLen := rfl

@[simp] theorem State.writeImage_bytesLen (s : State) (vs : List F64) :
    (s.writeImage vs).bytesLen = s.bytesLen := rfl

@[simp] theorem State.writeImage_outLen (s : State) (vs : List F64) :
    (s.writeImage vs).outLen = s.outLen := rfl

@[simp] theorem State.writeImage_tableValid (s : State) (vs : List F64) :
    (s.writeImage vs).tableValid = s.tableValid := rfl

@[simp] theorem State.writeImage_sessionFmt (s : State) (vs : List F64) :
    (s.writeImage vs).sessionFmt = s.sessionFmt := rfl

@[simp] theorem State.writeImage_live (s : State) (vs : List F64) :
    (s.writeImage vs).live = s.live := rfl

@[simp] theorem State.writeImage_finalized (s : State) (vs : List F64) :
    (s.writeImage vs).finalized = s.finalized := rfl

@[simp] theorem State.writeImage_img (s : State) (vs : List F64) :
    (s.writeImage vs).img = true := rfl

@[simp] theorem State.writeImage_sin (s : State) (vs : List F64) :
    (s.writeImage vs).sin = s.sin := rfl

@[simp] theorem State.writeImage_fb (s : State) (vs : List F64) :
    (s.writeImage vs).fb = s.fb := rfl

@[simp] theorem State.writeImage_subfp (s : State) (vs : List F64) :
    (s.writeImage vs).subfp = s.subfp := rfl

@[simp] theorem State.writeImage_out (s : State) (vs : List F64) :
    (s.writeImage vs).out = s.out := rfl

@[simp] theorem State.writeImage_carry (s : State) (vs : List F64) :
    (s.writeImage vs).carry = s.carry := rfl

@[simp] theorem State.writeImage_ring (s : State) (vs : List F64) :
    (s.writeImage vs).ring = s.ring := rfl

@[simp] theorem State.writeImage_chroma (s : State) (vs : List F64) :
    (s.writeImage vs).chroma = s.chroma.splice 0 vs := rfl

@[simp] theorem State.writeImage_sym (s : State) (vs : List F64) :
    (s.writeImage vs).sym = s.sym := rfl

@[simp] theorem State.writeImage_raw (s : State) (vs : List F64) :
    (s.writeImage vs).raw = s.raw := rfl

@[simp] theorem State.writeImage_caches (s : State) (vs : List F64) :
    (s.writeImage vs).caches = s.caches := rfl

@[simp] theorem State.writeImage_pending (s : State) (vs : List F64) :
    (s.writeImage vs).pending = s.pending := rfl

@[simp] theorem State.writeImage_lastRead (s : State) (vs : List F64) :
    (s.writeImage vs).lastRead = s.lastRead := rfl

@[simp] theorem State.writeImage_allocDraws (s : State) (vs : List F64) :
    (s.writeImage vs).allocDraws = s.allocDraws := rfl

@[simp] theorem State.writeImage_drawCount (s : State) (vs : List F64) :
    (s.writeImage vs).drawCount = s.drawCount := rfl

@[simp] theorem State.writeImage_resetCount (s : State) (vs : List F64) :
    (s.writeImage vs).resetCount = s.resetCount := rfl

/-! ## `storeCarry` -/

@[simp] theorem State.storeCarry_err (s : State) (vs : List F64) :
    (s.storeCarry vs).err = s.err := rfl

@[simp] theorem State.storeCarry_arg0 (s : State) (vs : List F64) :
    (s.storeCarry vs).arg0 = s.arg0 := rfl

@[simp] theorem State.storeCarry_result (s : State) (vs : List F64) :
    (s.storeCarry vs).result = s.result := rfl

@[simp] theorem State.storeCarry_ctrlFmt (s : State) (vs : List F64) :
    (s.storeCarry vs).ctrlFmt = s.ctrlFmt := rfl

@[simp] theorem State.storeCarry_framesProcessed (s : State) (vs : List F64) :
    (s.storeCarry vs).framesProcessed = s.framesProcessed := rfl

@[simp] theorem State.storeCarry_row (s : State) (vs : List F64) :
    (s.storeCarry vs).row = s.row := rfl

@[simp] theorem State.storeCarry_coeff (s : State) (vs : List F64) :
    (s.storeCarry vs).coeff = s.coeff := rfl

@[simp] theorem State.storeCarry_noteIndex (s : State) (vs : List F64) :
    (s.storeCarry vs).noteIndex = s.noteIndex := rfl

@[simp] theorem State.storeCarry_carryLen (s : State) (vs : List F64) :
    (s.storeCarry vs).carryLen = BitVec.ofNat 32 vs.length := rfl

@[simp] theorem State.storeCarry_bitsIndex (s : State) (vs : List F64) :
    (s.storeCarry vs).bitsIndex = s.bitsIndex := rfl

@[simp] theorem State.storeCarry_fpLen (s : State) (vs : List F64) :
    (s.storeCarry vs).fpLen = s.fpLen := rfl

@[simp] theorem State.storeCarry_bytesLen (s : State) (vs : List F64) :
    (s.storeCarry vs).bytesLen = s.bytesLen := rfl

@[simp] theorem State.storeCarry_outLen (s : State) (vs : List F64) :
    (s.storeCarry vs).outLen = s.outLen := rfl

@[simp] theorem State.storeCarry_tableValid (s : State) (vs : List F64) :
    (s.storeCarry vs).tableValid = s.tableValid := rfl

@[simp] theorem State.storeCarry_sessionFmt (s : State) (vs : List F64) :
    (s.storeCarry vs).sessionFmt = s.sessionFmt := rfl

@[simp] theorem State.storeCarry_live (s : State) (vs : List F64) :
    (s.storeCarry vs).live = s.live := rfl

@[simp] theorem State.storeCarry_finalized (s : State) (vs : List F64) :
    (s.storeCarry vs).finalized = s.finalized := rfl

@[simp] theorem State.storeCarry_img (s : State) (vs : List F64) :
    (s.storeCarry vs).img = s.img := rfl

@[simp] theorem State.storeCarry_sin (s : State) (vs : List F64) :
    (s.storeCarry vs).sin = s.sin := rfl

@[simp] theorem State.storeCarry_fb (s : State) (vs : List F64) :
    (s.storeCarry vs).fb = s.fb := rfl

@[simp] theorem State.storeCarry_subfp (s : State) (vs : List F64) :
    (s.storeCarry vs).subfp = s.subfp := rfl

@[simp] theorem State.storeCarry_out (s : State) (vs : List F64) :
    (s.storeCarry vs).out = s.out := rfl

@[simp] theorem State.storeCarry_carry (s : State) (vs : List F64) :
    (s.storeCarry vs).carry = s.carry.splice 0 vs := rfl

@[simp] theorem State.storeCarry_ring (s : State) (vs : List F64) :
    (s.storeCarry vs).ring = s.ring := rfl

@[simp] theorem State.storeCarry_chroma (s : State) (vs : List F64) :
    (s.storeCarry vs).chroma = s.chroma := rfl

@[simp] theorem State.storeCarry_sym (s : State) (vs : List F64) :
    (s.storeCarry vs).sym = s.sym := rfl

@[simp] theorem State.storeCarry_raw (s : State) (vs : List F64) :
    (s.storeCarry vs).raw = s.raw := rfl

@[simp] theorem State.storeCarry_caches (s : State) (vs : List F64) :
    (s.storeCarry vs).caches = s.caches := rfl

@[simp] theorem State.storeCarry_pending (s : State) (vs : List F64) :
    (s.storeCarry vs).pending = s.pending := rfl

@[simp] theorem State.storeCarry_lastRead (s : State) (vs : List F64) :
    (s.storeCarry vs).lastRead = s.lastRead := rfl

@[simp] theorem State.storeCarry_allocDraws (s : State) (vs : List F64) :
    (s.storeCarry vs).allocDraws = s.allocDraws := rfl

@[simp] theorem State.storeCarry_drawCount (s : State) (vs : List F64) :
    (s.storeCarry vs).drawCount = s.drawCount := rfl

@[simp] theorem State.storeCarry_resetCount (s : State) (vs : List F64) :
    (s.storeCarry vs).resetCount = s.resetCount := rfl

/-! ## `dropCarry` -/

@[simp] theorem State.dropCarry_err (s : State) :
    (s.dropCarry).err = s.err := rfl

@[simp] theorem State.dropCarry_arg0 (s : State) :
    (s.dropCarry).arg0 = s.arg0 := rfl

@[simp] theorem State.dropCarry_result (s : State) :
    (s.dropCarry).result = s.result := rfl

@[simp] theorem State.dropCarry_ctrlFmt (s : State) :
    (s.dropCarry).ctrlFmt = s.ctrlFmt := rfl

@[simp] theorem State.dropCarry_framesProcessed (s : State) :
    (s.dropCarry).framesProcessed = s.framesProcessed := rfl

@[simp] theorem State.dropCarry_row (s : State) :
    (s.dropCarry).row = s.row := rfl

@[simp] theorem State.dropCarry_coeff (s : State) :
    (s.dropCarry).coeff = s.coeff := rfl

@[simp] theorem State.dropCarry_noteIndex (s : State) :
    (s.dropCarry).noteIndex = s.noteIndex := rfl

@[simp] theorem State.dropCarry_carryLen (s : State) :
    (s.dropCarry).carryLen = 0 := rfl

@[simp] theorem State.dropCarry_bitsIndex (s : State) :
    (s.dropCarry).bitsIndex = s.bitsIndex := rfl

@[simp] theorem State.dropCarry_fpLen (s : State) :
    (s.dropCarry).fpLen = s.fpLen := rfl

@[simp] theorem State.dropCarry_bytesLen (s : State) :
    (s.dropCarry).bytesLen = s.bytesLen := rfl

@[simp] theorem State.dropCarry_outLen (s : State) :
    (s.dropCarry).outLen = s.outLen := rfl

@[simp] theorem State.dropCarry_tableValid (s : State) :
    (s.dropCarry).tableValid = s.tableValid := rfl

@[simp] theorem State.dropCarry_sessionFmt (s : State) :
    (s.dropCarry).sessionFmt = s.sessionFmt := rfl

@[simp] theorem State.dropCarry_live (s : State) :
    (s.dropCarry).live = s.live := rfl

@[simp] theorem State.dropCarry_finalized (s : State) :
    (s.dropCarry).finalized = s.finalized := rfl

@[simp] theorem State.dropCarry_img (s : State) :
    (s.dropCarry).img = s.img := rfl

@[simp] theorem State.dropCarry_sin (s : State) :
    (s.dropCarry).sin = s.sin := rfl

@[simp] theorem State.dropCarry_fb (s : State) :
    (s.dropCarry).fb = s.fb := rfl

@[simp] theorem State.dropCarry_subfp (s : State) :
    (s.dropCarry).subfp = s.subfp := rfl

@[simp] theorem State.dropCarry_out (s : State) :
    (s.dropCarry).out = s.out := rfl

@[simp] theorem State.dropCarry_carry (s : State) :
    (s.dropCarry).carry = s.carry := rfl

@[simp] theorem State.dropCarry_ring (s : State) :
    (s.dropCarry).ring = s.ring := rfl

@[simp] theorem State.dropCarry_chroma (s : State) :
    (s.dropCarry).chroma = s.chroma := rfl

@[simp] theorem State.dropCarry_sym (s : State) :
    (s.dropCarry).sym = s.sym := rfl

@[simp] theorem State.dropCarry_raw (s : State) :
    (s.dropCarry).raw = s.raw := rfl

@[simp] theorem State.dropCarry_caches (s : State) :
    (s.dropCarry).caches = s.caches := rfl

@[simp] theorem State.dropCarry_pending (s : State) :
    (s.dropCarry).pending = s.pending := rfl

@[simp] theorem State.dropCarry_lastRead (s : State) :
    (s.dropCarry).lastRead = s.lastRead := rfl

@[simp] theorem State.dropCarry_allocDraws (s : State) :
    (s.dropCarry).allocDraws = s.allocDraws := rfl

@[simp] theorem State.dropCarry_drawCount (s : State) :
    (s.dropCarry).drawCount = s.drawCount := rfl

@[simp] theorem State.dropCarry_resetCount (s : State) :
    (s.dropCarry).resetCount = s.resetCount := rfl

/-! ## `openSession` -/

@[simp] theorem State.openSession_err (s : State) :
    (s.openSession).err = s.err := rfl

@[simp] theorem State.openSession_arg0 (s : State) :
    (s.openSession).arg0 = s.arg0 := rfl

@[simp] theorem State.openSession_result (s : State) :
    (s.openSession).result = s.result := rfl

@[simp] theorem State.openSession_ctrlFmt (s : State) :
    (s.openSession).ctrlFmt = s.ctrlFmt := rfl

@[simp] theorem State.openSession_framesProcessed (s : State) :
    (s.openSession).framesProcessed = 0 := rfl

@[simp] theorem State.openSession_row (s : State) :
    (s.openSession).row = 0 := rfl

@[simp] theorem State.openSession_coeff (s : State) :
    (s.openSession).coeff = 0 := rfl

@[simp] theorem State.openSession_noteIndex (s : State) :
    (s.openSession).noteIndex = 0 := rfl

@[simp] theorem State.openSession_carryLen (s : State) :
    (s.openSession).carryLen = 0 := rfl

@[simp] theorem State.openSession_bitsIndex (s : State) :
    (s.openSession).bitsIndex = 0 := rfl

@[simp] theorem State.openSession_fpLen (s : State) :
    (s.openSession).fpLen = s.fpLen := rfl

@[simp] theorem State.openSession_bytesLen (s : State) :
    (s.openSession).bytesLen = s.bytesLen := rfl

@[simp] theorem State.openSession_outLen (s : State) :
    (s.openSession).outLen = s.outLen := rfl

@[simp] theorem State.openSession_tableValid (s : State) :
    (s.openSession).tableValid = s.tableValid := rfl

@[simp] theorem State.openSession_sessionFmt (s : State) :
    (s.openSession).sessionFmt = s.ctrlFmt := rfl

@[simp] theorem State.openSession_live (s : State) :
    (s.openSession).live = true := rfl

@[simp] theorem State.openSession_finalized (s : State) :
    (s.openSession).finalized = false := rfl

@[simp] theorem State.openSession_img (s : State) :
    (s.openSession).img = false := rfl

@[simp] theorem State.openSession_sin (s : State) :
    (s.openSession).sin = s.sin := rfl

@[simp] theorem State.openSession_fb (s : State) :
    (s.openSession).fb = s.fb := rfl

@[simp] theorem State.openSession_subfp (s : State) :
    (s.openSession).subfp = s.subfp := rfl

@[simp] theorem State.openSession_out (s : State) :
    (s.openSession).out = s.out := rfl

@[simp] theorem State.openSession_carry (s : State) :
    (s.openSession).carry = s.carry := rfl

@[simp] theorem State.openSession_ring (s : State) :
    (s.openSession).ring = s.ring := rfl

@[simp] theorem State.openSession_chroma (s : State) :
    (s.openSession).chroma = s.chroma := rfl

@[simp] theorem State.openSession_sym (s : State) :
    (s.openSession).sym = s.sym := rfl

@[simp] theorem State.openSession_raw (s : State) :
    (s.openSession).raw = s.raw := rfl

@[simp] theorem State.openSession_caches (s : State) :
    (s.openSession).caches = s.caches := rfl

@[simp] theorem State.openSession_pending (s : State) :
    (s.openSession).pending = s.pending := rfl

@[simp] theorem State.openSession_lastRead (s : State) :
    (s.openSession).lastRead = s.lastRead := rfl

@[simp] theorem State.openSession_allocDraws (s : State) :
    (s.openSession).allocDraws = s.allocDraws := rfl

@[simp] theorem State.openSession_drawCount (s : State) :
    (s.openSession).drawCount = s.drawCount := rfl

@[simp] theorem State.openSession_resetCount (s : State) :
    (s.openSession).resetCount = s.resetCount := rfl

/-! ## `closeSession` -/

@[simp] theorem State.closeSession_err (s : State) :
    (s.closeSession).err = s.err := rfl

@[simp] theorem State.closeSession_arg0 (s : State) :
    (s.closeSession).arg0 = s.arg0 := rfl

@[simp] theorem State.closeSession_result (s : State) :
    (s.closeSession).result = s.result := rfl

@[simp] theorem State.closeSession_ctrlFmt (s : State) :
    (s.closeSession).ctrlFmt = s.ctrlFmt := rfl

@[simp] theorem State.closeSession_framesProcessed (s : State) :
    (s.closeSession).framesProcessed = 0 := rfl

@[simp] theorem State.closeSession_row (s : State) :
    (s.closeSession).row = 0 := rfl

@[simp] theorem State.closeSession_coeff (s : State) :
    (s.closeSession).coeff = 0 := rfl

@[simp] theorem State.closeSession_noteIndex (s : State) :
    (s.closeSession).noteIndex = 0 := rfl

@[simp] theorem State.closeSession_carryLen (s : State) :
    (s.closeSession).carryLen = 0 := rfl

@[simp] theorem State.closeSession_bitsIndex (s : State) :
    (s.closeSession).bitsIndex = s.bitsIndex := rfl

@[simp] theorem State.closeSession_fpLen (s : State) :
    (s.closeSession).fpLen = s.fpLen := rfl

@[simp] theorem State.closeSession_bytesLen (s : State) :
    (s.closeSession).bytesLen = s.bytesLen := rfl

@[simp] theorem State.closeSession_outLen (s : State) :
    (s.closeSession).outLen = s.outLen := rfl

@[simp] theorem State.closeSession_tableValid (s : State) :
    (s.closeSession).tableValid = s.tableValid := rfl

@[simp] theorem State.closeSession_sessionFmt (s : State) :
    (s.closeSession).sessionFmt = s.sessionFmt := rfl

@[simp] theorem State.closeSession_live (s : State) :
    (s.closeSession).live = false := rfl

@[simp] theorem State.closeSession_finalized (s : State) :
    (s.closeSession).finalized = false := rfl

@[simp] theorem State.closeSession_img (s : State) :
    (s.closeSession).img = false := rfl

@[simp] theorem State.closeSession_sin (s : State) :
    (s.closeSession).sin = s.sin := rfl

@[simp] theorem State.closeSession_fb (s : State) :
    (s.closeSession).fb = s.fb := rfl

@[simp] theorem State.closeSession_subfp (s : State) :
    (s.closeSession).subfp = s.subfp := rfl

@[simp] theorem State.closeSession_out (s : State) :
    (s.closeSession).out = s.out := rfl

@[simp] theorem State.closeSession_carry (s : State) :
    (s.closeSession).carry = s.carry := rfl

@[simp] theorem State.closeSession_ring (s : State) :
    (s.closeSession).ring = s.ring := rfl

@[simp] theorem State.closeSession_chroma (s : State) :
    (s.closeSession).chroma = s.chroma := rfl

@[simp] theorem State.closeSession_sym (s : State) :
    (s.closeSession).sym = s.sym := rfl

@[simp] theorem State.closeSession_raw (s : State) :
    (s.closeSession).raw = s.raw := rfl

@[simp] theorem State.closeSession_caches (s : State) :
    (s.closeSession).caches = s.caches := rfl

@[simp] theorem State.closeSession_pending (s : State) :
    (s.closeSession).pending = s.pending := rfl

@[simp] theorem State.closeSession_lastRead (s : State) :
    (s.closeSession).lastRead = s.lastRead := rfl

@[simp] theorem State.closeSession_allocDraws (s : State) :
    (s.closeSession).allocDraws = s.allocDraws := rfl

@[simp] theorem State.closeSession_drawCount (s : State) :
    (s.closeSession).drawCount = s.drawCount := rfl

@[simp] theorem State.closeSession_resetCount (s : State) :
    (s.closeSession).resetCount = s.resetCount := rfl

/-! ## `finalize` -/

@[simp] theorem State.finalize_err (s : State) :
    (s.finalize).err = s.err := rfl

@[simp] theorem State.finalize_arg0 (s : State) :
    (s.finalize).arg0 = s.arg0 := rfl

@[simp] theorem State.finalize_result (s : State) :
    (s.finalize).result = s.result := rfl

@[simp] theorem State.finalize_ctrlFmt (s : State) :
    (s.finalize).ctrlFmt = s.ctrlFmt := rfl

@[simp] theorem State.finalize_framesProcessed (s : State) :
    (s.finalize).framesProcessed = s.framesProcessed := rfl

@[simp] theorem State.finalize_row (s : State) :
    (s.finalize).row = s.row := rfl

@[simp] theorem State.finalize_coeff (s : State) :
    (s.finalize).coeff = s.coeff := rfl

@[simp] theorem State.finalize_noteIndex (s : State) :
    (s.finalize).noteIndex = s.noteIndex := rfl

@[simp] theorem State.finalize_carryLen (s : State) :
    (s.finalize).carryLen = s.carryLen := rfl

@[simp] theorem State.finalize_bitsIndex (s : State) :
    (s.finalize).bitsIndex = s.bitsIndex := rfl

@[simp] theorem State.finalize_fpLen (s : State) :
    (s.finalize).fpLen = s.fpLen := rfl

@[simp] theorem State.finalize_bytesLen (s : State) :
    (s.finalize).bytesLen = s.bytesLen := rfl

@[simp] theorem State.finalize_outLen (s : State) :
    (s.finalize).outLen = s.outLen := rfl

@[simp] theorem State.finalize_tableValid (s : State) :
    (s.finalize).tableValid = s.tableValid := rfl

@[simp] theorem State.finalize_sessionFmt (s : State) :
    (s.finalize).sessionFmt = s.sessionFmt := rfl

@[simp] theorem State.finalize_live (s : State) :
    (s.finalize).live = s.live := rfl

@[simp] theorem State.finalize_finalized (s : State) :
    (s.finalize).finalized = true := rfl

@[simp] theorem State.finalize_img (s : State) :
    (s.finalize).img = s.img := rfl

@[simp] theorem State.finalize_sin (s : State) :
    (s.finalize).sin = s.sin := rfl

@[simp] theorem State.finalize_fb (s : State) :
    (s.finalize).fb = s.fb := rfl

@[simp] theorem State.finalize_subfp (s : State) :
    (s.finalize).subfp = s.subfp := rfl

@[simp] theorem State.finalize_out (s : State) :
    (s.finalize).out = s.out := rfl

@[simp] theorem State.finalize_carry (s : State) :
    (s.finalize).carry = s.carry := rfl

@[simp] theorem State.finalize_ring (s : State) :
    (s.finalize).ring = s.ring := rfl

@[simp] theorem State.finalize_chroma (s : State) :
    (s.finalize).chroma = s.chroma := rfl

@[simp] theorem State.finalize_sym (s : State) :
    (s.finalize).sym = s.sym := rfl

@[simp] theorem State.finalize_raw (s : State) :
    (s.finalize).raw = s.raw := rfl

@[simp] theorem State.finalize_caches (s : State) :
    (s.finalize).caches = s.caches := rfl

@[simp] theorem State.finalize_pending (s : State) :
    (s.finalize).pending = s.pending := rfl

@[simp] theorem State.finalize_lastRead (s : State) :
    (s.finalize).lastRead = s.lastRead := rfl

@[simp] theorem State.finalize_allocDraws (s : State) :
    (s.finalize).allocDraws = s.allocDraws := rfl

@[simp] theorem State.finalize_drawCount (s : State) :
    (s.finalize).drawCount = s.drawCount := rfl

@[simp] theorem State.finalize_resetCount (s : State) :
    (s.finalize).resetCount = s.resetCount := rfl

/-! ## `answer` -/

@[simp] theorem State.answer_err (s : State) (b : Bool) :
    (s.answer b).err = s.err := rfl

@[simp] theorem State.answer_arg0 (s : State) (b : Bool) :
    (s.answer b).arg0 = s.arg0 := rfl

@[simp] theorem State.answer_result (s : State) (b : Bool) :
    (s.answer b).result = b := rfl

@[simp] theorem State.answer_ctrlFmt (s : State) (b : Bool) :
    (s.answer b).ctrlFmt = s.ctrlFmt := rfl

@[simp] theorem State.answer_framesProcessed (s : State) (b : Bool) :
    (s.answer b).framesProcessed = s.framesProcessed := rfl

@[simp] theorem State.answer_row (s : State) (b : Bool) :
    (s.answer b).row = s.row := rfl

@[simp] theorem State.answer_coeff (s : State) (b : Bool) :
    (s.answer b).coeff = s.coeff := rfl

@[simp] theorem State.answer_noteIndex (s : State) (b : Bool) :
    (s.answer b).noteIndex = s.noteIndex := rfl

@[simp] theorem State.answer_carryLen (s : State) (b : Bool) :
    (s.answer b).carryLen = s.carryLen := rfl

@[simp] theorem State.answer_bitsIndex (s : State) (b : Bool) :
    (s.answer b).bitsIndex = s.bitsIndex := rfl

@[simp] theorem State.answer_fpLen (s : State) (b : Bool) :
    (s.answer b).fpLen = s.fpLen := rfl

@[simp] theorem State.answer_bytesLen (s : State) (b : Bool) :
    (s.answer b).bytesLen = s.bytesLen := rfl

@[simp] theorem State.answer_outLen (s : State) (b : Bool) :
    (s.answer b).outLen = s.outLen := rfl

@[simp] theorem State.answer_tableValid (s : State) (b : Bool) :
    (s.answer b).tableValid = s.tableValid := rfl

@[simp] theorem State.answer_sessionFmt (s : State) (b : Bool) :
    (s.answer b).sessionFmt = s.sessionFmt := rfl

@[simp] theorem State.answer_live (s : State) (b : Bool) :
    (s.answer b).live = s.live := rfl

@[simp] theorem State.answer_finalized (s : State) (b : Bool) :
    (s.answer b).finalized = s.finalized := rfl

@[simp] theorem State.answer_img (s : State) (b : Bool) :
    (s.answer b).img = s.img := rfl

@[simp] theorem State.answer_sin (s : State) (b : Bool) :
    (s.answer b).sin = s.sin := rfl

@[simp] theorem State.answer_fb (s : State) (b : Bool) :
    (s.answer b).fb = s.fb := rfl

@[simp] theorem State.answer_subfp (s : State) (b : Bool) :
    (s.answer b).subfp = s.subfp := rfl

@[simp] theorem State.answer_out (s : State) (b : Bool) :
    (s.answer b).out = s.out := rfl

@[simp] theorem State.answer_carry (s : State) (b : Bool) :
    (s.answer b).carry = s.carry := rfl

@[simp] theorem State.answer_ring (s : State) (b : Bool) :
    (s.answer b).ring = s.ring := rfl

@[simp] theorem State.answer_chroma (s : State) (b : Bool) :
    (s.answer b).chroma = s.chroma := rfl

@[simp] theorem State.answer_sym (s : State) (b : Bool) :
    (s.answer b).sym = s.sym := rfl

@[simp] theorem State.answer_raw (s : State) (b : Bool) :
    (s.answer b).raw = s.raw := rfl

@[simp] theorem State.answer_caches (s : State) (b : Bool) :
    (s.answer b).caches = s.caches := rfl

@[simp] theorem State.answer_pending (s : State) (b : Bool) :
    (s.answer b).pending = s.pending := rfl

@[simp] theorem State.answer_lastRead (s : State) (b : Bool) :
    (s.answer b).lastRead = s.lastRead := rfl

@[simp] theorem State.answer_allocDraws (s : State) (b : Bool) :
    (s.answer b).allocDraws = s.allocDraws := rfl

@[simp] theorem State.answer_drawCount (s : State) (b : Bool) :
    (s.answer b).drawCount = s.drawCount := rfl

@[simp] theorem State.answer_resetCount (s : State) (b : Bool) :
    (s.answer b).resetCount = s.resetCount := rfl

/-! ## `advanceNote` -/

@[simp] theorem State.advanceNote_err (s : State) :
    (s.advanceNote).err = s.err := rfl

@[simp] theorem State.advanceNote_arg0 (s : State) :
    (s.advanceNote).arg0 = s.arg0 := rfl

@[simp] theorem State.advanceNote_result (s : State) :
    (s.advanceNote).result = s.result := rfl

@[simp] theorem State.advanceNote_ctrlFmt (s : State) :
    (s.advanceNote).ctrlFmt = s.ctrlFmt := rfl

@[simp] theorem State.advanceNote_framesProcessed (s : State) :
    (s.advanceNote).framesProcessed = s.framesProcessed := rfl

@[simp] theorem State.advanceNote_row (s : State) :
    (s.advanceNote).row = s.row := rfl

@[simp] theorem State.advanceNote_coeff (s : State) :
    (s.advanceNote).coeff = s.coeff := rfl

@[simp] theorem State.advanceNote_noteIndex (s : State) :
    (s.advanceNote).noteIndex = s.noteIndex + 1 := rfl

@[simp] theorem State.advanceNote_carryLen (s : State) :
    (s.advanceNote).carryLen = s.carryLen := rfl

@[simp] theorem State.advanceNote_bitsIndex (s : State) :
    (s.advanceNote).bitsIndex = s.bitsIndex := rfl

@[simp] theorem State.advanceNote_fpLen (s : State) :
    (s.advanceNote).fpLen = s.fpLen := rfl

@[simp] theorem State.advanceNote_bytesLen (s : State) :
    (s.advanceNote).bytesLen = s.bytesLen := rfl

@[simp] theorem State.advanceNote_outLen (s : State) :
    (s.advanceNote).outLen = s.outLen := rfl

@[simp] theorem State.advanceNote_tableValid (s : State) :
    (s.advanceNote).tableValid = s.tableValid := rfl

@[simp] theorem State.advanceNote_sessionFmt (s : State) :
    (s.advanceNote).sessionFmt = s.sessionFmt := rfl

@[simp] theorem State.advanceNote_live (s : State) :
    (s.advanceNote).live = s.live := rfl

@[simp] theorem State.advanceNote_finalized (s : State) :
    (s.advanceNote).finalized = s.finalized := rfl

@[simp] theorem State.advanceNote_img (s : State) :
    (s.advanceNote).img = s.img := rfl

@[simp] theorem State.advanceNote_sin (s : State) :
    (s.advanceNote).sin = s.sin := rfl

@[simp] theorem State.advanceNote_fb (s : State) :
    (s.advanceNote).fb = s.fb := rfl

@[simp] theorem State.advanceNote_subfp (s : State) :
    (s.advanceNote).subfp = s.subfp := rfl

@[simp] theorem State.advanceNote_out (s : State) :
    (s.advanceNote).out = s.out := rfl

@[simp] theorem State.advanceNote_carry (s : State) :
    (s.advanceNote).carry = s.carry := rfl

@[simp] theorem State.advanceNote_ring (s : State) :
    (s.advanceNote).ring = s.ring := rfl

@[simp] theorem State.advanceNote_chroma (s : State) :
    (s.advanceNote).chroma = s.chroma := rfl

@[simp] theorem State.advanceNote_sym (s : State) :
    (s.advanceNote).sym = s.sym := rfl

@[simp] theorem State.advanceNote_raw (s : State) :
    (s.advanceNote).raw = s.raw := rfl

@[simp] theorem State.advanceNote_caches (s : State) :
    (s.advanceNote).caches = s.caches := rfl

@[simp] theorem State.advanceNote_pending (s : State) :
    (s.advanceNote).pending = s.pending := rfl

@[simp] theorem State.advanceNote_lastRead (s : State) :
    (s.advanceNote).lastRead = s.lastRead := rfl

@[simp] theorem State.advanceNote_allocDraws (s : State) :
    (s.advanceNote).allocDraws = s.allocDraws := rfl

@[simp] theorem State.advanceNote_drawCount (s : State) :
    (s.advanceNote).drawCount = s.drawCount := rfl

@[simp] theorem State.advanceNote_resetCount (s : State) :
    (s.advanceNote).resetCount = s.resetCount := rfl

/-! ## `setCoeff` -/

@[simp] theorem State.setCoeff_err (s : State) (v : BitVec 3) :
    (s.setCoeff v).err = s.err := rfl

@[simp] theorem State.setCoeff_arg0 (s : State) (v : BitVec 3) :
    (s.setCoeff v).arg0 = s.arg0 := rfl

@[simp] theorem State.setCoeff_result (s : State) (v : BitVec 3) :
    (s.setCoeff v).result = s.result := rfl

@[simp] theorem State.setCoeff_ctrlFmt (s : State) (v : BitVec 3) :
    (s.setCoeff v).ctrlFmt = s.ctrlFmt := rfl

@[simp] theorem State.setCoeff_framesProcessed (s : State) (v : BitVec 3) :
    (s.setCoeff v).framesProcessed = s.framesProcessed := rfl

@[simp] theorem State.setCoeff_row (s : State) (v : BitVec 3) :
    (s.setCoeff v).row = s.row := rfl

@[simp] theorem State.setCoeff_coeff (s : State) (v : BitVec 3) :
    (s.setCoeff v).coeff = v := rfl

@[simp] theorem State.setCoeff_noteIndex (s : State) (v : BitVec 3) :
    (s.setCoeff v).noteIndex = s.noteIndex := rfl

@[simp] theorem State.setCoeff_carryLen (s : State) (v : BitVec 3) :
    (s.setCoeff v).carryLen = s.carryLen := rfl

@[simp] theorem State.setCoeff_bitsIndex (s : State) (v : BitVec 3) :
    (s.setCoeff v).bitsIndex = s.bitsIndex := rfl

@[simp] theorem State.setCoeff_fpLen (s : State) (v : BitVec 3) :
    (s.setCoeff v).fpLen = s.fpLen := rfl

@[simp] theorem State.setCoeff_bytesLen (s : State) (v : BitVec 3) :
    (s.setCoeff v).bytesLen = s.bytesLen := rfl

@[simp] theorem State.setCoeff_outLen (s : State) (v : BitVec 3) :
    (s.setCoeff v).outLen = s.outLen := rfl

@[simp] theorem State.setCoeff_tableValid (s : State) (v : BitVec 3) :
    (s.setCoeff v).tableValid = s.tableValid := rfl

@[simp] theorem State.setCoeff_sessionFmt (s : State) (v : BitVec 3) :
    (s.setCoeff v).sessionFmt = s.sessionFmt := rfl

@[simp] theorem State.setCoeff_live (s : State) (v : BitVec 3) :
    (s.setCoeff v).live = s.live := rfl

@[simp] theorem State.setCoeff_finalized (s : State) (v : BitVec 3) :
    (s.setCoeff v).finalized = s.finalized := rfl

@[simp] theorem State.setCoeff_img (s : State) (v : BitVec 3) :
    (s.setCoeff v).img = s.img := rfl

@[simp] theorem State.setCoeff_sin (s : State) (v : BitVec 3) :
    (s.setCoeff v).sin = s.sin := rfl

@[simp] theorem State.setCoeff_fb (s : State) (v : BitVec 3) :
    (s.setCoeff v).fb = s.fb := rfl

@[simp] theorem State.setCoeff_subfp (s : State) (v : BitVec 3) :
    (s.setCoeff v).subfp = s.subfp := rfl

@[simp] theorem State.setCoeff_out (s : State) (v : BitVec 3) :
    (s.setCoeff v).out = s.out := rfl

@[simp] theorem State.setCoeff_carry (s : State) (v : BitVec 3) :
    (s.setCoeff v).carry = s.carry := rfl

@[simp] theorem State.setCoeff_ring (s : State) (v : BitVec 3) :
    (s.setCoeff v).ring = s.ring := rfl

@[simp] theorem State.setCoeff_chroma (s : State) (v : BitVec 3) :
    (s.setCoeff v).chroma = s.chroma := rfl

@[simp] theorem State.setCoeff_sym (s : State) (v : BitVec 3) :
    (s.setCoeff v).sym = s.sym := rfl

@[simp] theorem State.setCoeff_raw (s : State) (v : BitVec 3) :
    (s.setCoeff v).raw = s.raw := rfl

@[simp] theorem State.setCoeff_caches (s : State) (v : BitVec 3) :
    (s.setCoeff v).caches = s.caches := rfl

@[simp] theorem State.setCoeff_pending (s : State) (v : BitVec 3) :
    (s.setCoeff v).pending = s.pending := rfl

@[simp] theorem State.setCoeff_lastRead (s : State) (v : BitVec 3) :
    (s.setCoeff v).lastRead = s.lastRead := rfl

@[simp] theorem State.setCoeff_allocDraws (s : State) (v : BitVec 3) :
    (s.setCoeff v).allocDraws = s.allocDraws := rfl

@[simp] theorem State.setCoeff_drawCount (s : State) (v : BitVec 3) :
    (s.setCoeff v).drawCount = s.drawCount := rfl

@[simp] theorem State.setCoeff_resetCount (s : State) (v : BitVec 3) :
    (s.setCoeff v).resetCount = s.resetCount := rfl

/-! ## `countFrame` -/

@[simp] theorem State.countFrame_err (s : State) :
    (s.countFrame).err = s.err := by unfold State.countFrame; rfl

@[simp] theorem State.countFrame_arg0 (s : State) :
    (s.countFrame).arg0 = s.arg0 := by unfold State.countFrame; rfl

@[simp] theorem State.countFrame_result (s : State) :
    (s.countFrame).result = s.result := by unfold State.countFrame; rfl

@[simp] theorem State.countFrame_ctrlFmt (s : State) :
    (s.countFrame).ctrlFmt = s.ctrlFmt := by unfold State.countFrame; rfl

@[simp] theorem State.countFrame_framesProcessed (s : State) :
    (s.countFrame).framesProcessed = s.framesProcessed + BitVec.ofNat 32 overlap := by unfold State.countFrame; rfl

@[simp] theorem State.countFrame_row (s : State) :
    (s.countFrame).row = s.row := by unfold State.countFrame; rfl

@[simp] theorem State.countFrame_coeff (s : State) :
    (s.countFrame).coeff = s.coeff := by unfold State.countFrame; rfl

@[simp] theorem State.countFrame_noteIndex (s : State) :
    (s.countFrame).noteIndex = s.noteIndex := by unfold State.countFrame; rfl

@[simp] theorem State.countFrame_carryLen (s : State) :
    (s.countFrame).carryLen = s.carryLen := by unfold State.countFrame; rfl

@[simp] theorem State.countFrame_bitsIndex (s : State) :
    (s.countFrame).bitsIndex = s.bitsIndex := by unfold State.countFrame; rfl

@[simp] theorem State.countFrame_fpLen (s : State) :
    (s.countFrame).fpLen = s.fpLen := by unfold State.countFrame; rfl

@[simp] theorem State.countFrame_bytesLen (s : State) :
    (s.countFrame).bytesLen = s.bytesLen := by unfold State.countFrame; rfl

@[simp] theorem State.countFrame_outLen (s : State) :
    (s.countFrame).outLen = s.outLen := by unfold State.countFrame; rfl

@[simp] theorem State.countFrame_tableValid (s : State) :
    (s.countFrame).tableValid = s.tableValid := by unfold State.countFrame; rfl

@[simp] theorem State.countFrame_sessionFmt (s : State) :
    (s.countFrame).sessionFmt = s.sessionFmt := by unfold State.countFrame; rfl

@[simp] theorem State.countFrame_live (s : State) :
    (s.countFrame).live = s.live := by unfold State.countFrame; rfl

@[simp] theorem State.countFrame_finalized (s : State) :
    (s.countFrame).finalized = s.finalized := by unfold State.countFrame; rfl

@[simp] theorem State.countFrame_img (s : State) :
    (s.countFrame).img = s.img := by unfold State.countFrame; rfl

@[simp] theorem State.countFrame_sin (s : State) :
    (s.countFrame).sin = s.sin := by unfold State.countFrame; rfl

@[simp] theorem State.countFrame_fb (s : State) :
    (s.countFrame).fb = s.fb := by unfold State.countFrame; rfl

@[simp] theorem State.countFrame_subfp (s : State) :
    (s.countFrame).subfp = s.subfp := by unfold State.countFrame; rfl

@[simp] theorem State.countFrame_out (s : State) :
    (s.countFrame).out = s.out := by unfold State.countFrame; rfl

@[simp] theorem State.countFrame_carry (s : State) :
    (s.countFrame).carry = s.carry := by unfold State.countFrame; rfl

@[simp] theorem State.countFrame_ring (s : State) :
    (s.countFrame).ring = s.ring := by unfold State.countFrame; rfl

@[simp] theorem State.countFrame_chroma (s : State) :
    (s.countFrame).chroma = s.chroma := by unfold State.countFrame; rfl

@[simp] theorem State.countFrame_sym (s : State) :
    (s.countFrame).sym = s.sym := by unfold State.countFrame; rfl

@[simp] theorem State.countFrame_raw (s : State) :
    (s.countFrame).raw = s.raw := by unfold State.countFrame; rfl

@[simp] theorem State.countFrame_caches (s : State) :
    (s.countFrame).caches = s.caches := by unfold State.countFrame; rfl

@[simp] theorem State.countFrame_pending (s : State) :
    (s.countFrame).pending = s.pending := by unfold State.countFrame; rfl

@[simp] theorem State.countFrame_lastRead (s : State) :
    (s.countFrame).lastRead = s.lastRead := by unfold State.countFrame; rfl

@[simp] theorem State.countFrame_allocDraws (s : State) :
    (s.countFrame).allocDraws = s.allocDraws := by unfold State.countFrame; rfl

@[simp] theorem State.countFrame_drawCount (s : State) :
    (s.countFrame).drawCount = s.drawCount := by unfold State.countFrame; rfl

@[simp] theorem State.countFrame_resetCount (s : State) :
    (s.countFrame).resetCount = s.resetCount := by unfold State.countFrame; rfl

/-! ## `withPending` -/

@[simp] theorem State.withPending_err (s : State) (l : List HostAction) :
    (s.withPending l).err = s.err := rfl

@[simp] theorem State.withPending_arg0 (s : State) (l : List HostAction) :
    (s.withPending l).arg0 = s.arg0 := rfl

@[simp] theorem State.withPending_result (s : State) (l : List HostAction) :
    (s.withPending l).result = s.result := rfl

@[simp] theorem State.withPending_ctrlFmt (s : State) (l : List HostAction) :
    (s.withPending l).ctrlFmt = s.ctrlFmt := rfl

@[simp] theorem State.withPending_framesProcessed (s : State) (l : List HostAction) :
    (s.withPending l).framesProcessed = s.framesProcessed := rfl

@[simp] theorem State.withPending_row (s : State) (l : List HostAction) :
    (s.withPending l).row = s.row := rfl

@[simp] theorem State.withPending_coeff (s : State) (l : List HostAction) :
    (s.withPending l).coeff = s.coeff := rfl

@[simp] theorem State.withPending_noteIndex (s : State) (l : List HostAction) :
    (s.withPending l).noteIndex = s.noteIndex := rfl

@[simp] theorem State.withPending_carryLen (s : State) (l : List HostAction) :
    (s.withPending l).carryLen = s.carryLen := rfl

@[simp] theorem State.withPending_bitsIndex (s : State) (l : List HostAction) :
    (s.withPending l).bitsIndex = s.bitsIndex := rfl

@[simp] theorem State.withPending_fpLen (s : State) (l : List HostAction) :
    (s.withPending l).fpLen = s.fpLen := rfl

@[simp] theorem State.withPending_bytesLen (s : State) (l : List HostAction) :
    (s.withPending l).bytesLen = s.bytesLen := rfl

@[simp] theorem State.withPending_outLen (s : State) (l : List HostAction) :
    (s.withPending l).outLen = s.outLen := rfl

@[simp] theorem State.withPending_tableValid (s : State) (l : List HostAction) :
    (s.withPending l).tableValid = s.tableValid := rfl

@[simp] theorem State.withPending_sessionFmt (s : State) (l : List HostAction) :
    (s.withPending l).sessionFmt = s.sessionFmt := rfl

@[simp] theorem State.withPending_live (s : State) (l : List HostAction) :
    (s.withPending l).live = s.live := rfl

@[simp] theorem State.withPending_finalized (s : State) (l : List HostAction) :
    (s.withPending l).finalized = s.finalized := rfl

@[simp] theorem State.withPending_img (s : State) (l : List HostAction) :
    (s.withPending l).img = s.img := rfl

@[simp] theorem State.withPending_sin (s : State) (l : List HostAction) :
    (s.withPending l).sin = s.sin := rfl

@[simp] theorem State.withPending_fb (s : State) (l : List HostAction) :
    (s.withPending l).fb = s.fb := rfl

@[simp] theorem State.withPending_subfp (s : State) (l : List HostAction) :
    (s.withPending l).subfp = s.subfp := rfl

@[simp] theorem State.withPending_out (s : State) (l : List HostAction) :
    (s.withPending l).out = s.out := rfl

@[simp] theorem State.withPending_carry (s : State) (l : List HostAction) :
    (s.withPending l).carry = s.carry := rfl

@[simp] theorem State.withPending_ring (s : State) (l : List HostAction) :
    (s.withPending l).ring = s.ring := rfl

@[simp] theorem State.withPending_chroma (s : State) (l : List HostAction) :
    (s.withPending l).chroma = s.chroma := rfl

@[simp] theorem State.withPending_sym (s : State) (l : List HostAction) :
    (s.withPending l).sym = s.sym := rfl

@[simp] theorem State.withPending_raw (s : State) (l : List HostAction) :
    (s.withPending l).raw = s.raw := rfl

@[simp] theorem State.withPending_caches (s : State) (l : List HostAction) :
    (s.withPending l).caches = s.caches := rfl

@[simp] theorem State.withPending_pending (s : State) (l : List HostAction) :
    (s.withPending l).pending = l := rfl

@[simp] theorem State.withPending_lastRead (s : State) (l : List HostAction) :
    (s.withPending l).lastRead = s.lastRead := rfl

@[simp] theorem State.withPending_allocDraws (s : State) (l : List HostAction) :
    (s.withPending l).allocDraws = s.allocDraws := rfl

@[simp] theorem State.withPending_drawCount (s : State) (l : List HostAction) :
    (s.withPending l).drawCount = s.drawCount := rfl

@[simp] theorem State.withPending_resetCount (s : State) (l : List HostAction) :
    (s.withPending l).resetCount = s.resetCount := rfl

/-! ## `drawn` -/

@[simp] theorem State.drawn_err (s : State) :
    (s.drawn).err = s.err := rfl

@[simp] theorem State.drawn_arg0 (s : State) :
    (s.drawn).arg0 = s.arg0 := rfl

@[simp] theorem State.drawn_result (s : State) :
    (s.drawn).result = s.result := rfl

@[simp] theorem State.drawn_ctrlFmt (s : State) :
    (s.drawn).ctrlFmt = s.ctrlFmt := rfl

@[simp] theorem State.drawn_framesProcessed (s : State) :
    (s.drawn).framesProcessed = s.framesProcessed := rfl

@[simp] theorem State.drawn_row (s : State) :
    (s.drawn).row = s.row := rfl

@[simp] theorem State.drawn_coeff (s : State) :
    (s.drawn).coeff = s.coeff := rfl

@[simp] theorem State.drawn_noteIndex (s : State) :
    (s.drawn).noteIndex = s.noteIndex := rfl

@[simp] theorem State.drawn_carryLen (s : State) :
    (s.drawn).carryLen = s.carryLen := rfl

@[simp] theorem State.drawn_bitsIndex (s : State) :
    (s.drawn).bitsIndex = s.bitsIndex := rfl

@[simp] theorem State.drawn_fpLen (s : State) :
    (s.drawn).fpLen = s.fpLen := rfl

@[simp] theorem State.drawn_bytesLen (s : State) :
    (s.drawn).bytesLen = s.bytesLen := rfl

@[simp] theorem State.drawn_outLen (s : State) :
    (s.drawn).outLen = s.outLen := rfl

@[simp] theorem State.drawn_tableValid (s : State) :
    (s.drawn).tableValid = s.tableValid := rfl

@[simp] theorem State.drawn_sessionFmt (s : State) :
    (s.drawn).sessionFmt = s.sessionFmt := rfl

@[simp] theorem State.drawn_live (s : State) :
    (s.drawn).live = s.live := rfl

@[simp] theorem State.drawn_finalized (s : State) :
    (s.drawn).finalized = s.finalized := rfl

@[simp] theorem State.drawn_img (s : State) :
    (s.drawn).img = s.img := rfl

@[simp] theorem State.drawn_sin (s : State) :
    (s.drawn).sin = s.sin := rfl

@[simp] theorem State.drawn_fb (s : State) :
    (s.drawn).fb = s.fb := rfl

@[simp] theorem State.drawn_subfp (s : State) :
    (s.drawn).subfp = s.subfp := rfl

@[simp] theorem State.drawn_out (s : State) :
    (s.drawn).out = s.out := rfl

@[simp] theorem State.drawn_carry (s : State) :
    (s.drawn).carry = s.carry := rfl

@[simp] theorem State.drawn_ring (s : State) :
    (s.drawn).ring = s.ring := rfl

@[simp] theorem State.drawn_chroma (s : State) :
    (s.drawn).chroma = s.chroma := rfl

@[simp] theorem State.drawn_sym (s : State) :
    (s.drawn).sym = s.sym := rfl

@[simp] theorem State.drawn_raw (s : State) :
    (s.drawn).raw = s.raw := rfl

@[simp] theorem State.drawn_caches (s : State) :
    (s.drawn).caches = s.caches := rfl

@[simp] theorem State.drawn_pending (s : State) :
    (s.drawn).pending = s.pending := rfl

@[simp] theorem State.drawn_lastRead (s : State) :
    (s.drawn).lastRead = s.lastRead := rfl

@[simp] theorem State.drawn_allocDraws (s : State) :
    (s.drawn).allocDraws = s.allocDraws.tail := rfl

@[simp] theorem State.drawn_drawCount (s : State) :
    (s.drawn).drawCount = s.drawCount + 1 := rfl

@[simp] theorem State.drawn_resetCount (s : State) :
    (s.drawn).resetCount = s.resetCount := rfl

/-! ## `buildTables` -/

@[simp] theorem State.buildTables_err (s : State) (k : Nat) :
    (s.buildTables k).err = s.err := rfl

@[simp] theorem State.buildTables_arg0 (s : State) (k : Nat) :
    (s.buildTables k).arg0 = s.arg0 := rfl

@[simp] theorem State.buildTables_result (s : State) (k : Nat) :
    (s.buildTables k).result = s.result := rfl

@[simp] theorem State.buildTables_ctrlFmt (s : State) (k : Nat) :
    (s.buildTables k).ctrlFmt = s.ctrlFmt := rfl

@[simp] theorem State.buildTables_framesProcessed (s : State) (k : Nat) :
    (s.buildTables k).framesProcessed = s.framesProcessed := rfl

@[simp] theorem State.buildTables_row (s : State) (k : Nat) :
    (s.buildTables k).row = s.row := rfl

@[simp] theorem State.buildTables_coeff (s : State) (k : Nat) :
    (s.buildTables k).coeff = s.coeff := rfl

@[simp] theorem State.buildTables_noteIndex (s : State) (k : Nat) :
    (s.buildTables k).noteIndex = s.noteIndex := rfl

@[simp] theorem State.buildTables_carryLen (s : State) (k : Nat) :
    (s.buildTables k).carryLen = s.carryLen := rfl

@[simp] theorem State.buildTables_bitsIndex (s : State) (k : Nat) :
    (s.buildTables k).bitsIndex = s.bitsIndex := rfl

@[simp] theorem State.buildTables_fpLen (s : State) (k : Nat) :
    (s.buildTables k).fpLen = s.fpLen := rfl

@[simp] theorem State.buildTables_bytesLen (s : State) (k : Nat) :
    (s.buildTables k).bytesLen = s.bytesLen := rfl

@[simp] theorem State.buildTables_outLen (s : State) (k : Nat) :
    (s.buildTables k).outLen = s.outLen := rfl

@[simp] theorem State.buildTables_tableValid (s : State) (k : Nat) :
    (s.buildTables k).tableValid = s.tableValid ||| BitVec.ofNat 32 (2 ^ k) := rfl

@[simp] theorem State.buildTables_sessionFmt (s : State) (k : Nat) :
    (s.buildTables k).sessionFmt = s.sessionFmt := rfl

@[simp] theorem State.buildTables_live (s : State) (k : Nat) :
    (s.buildTables k).live = s.live := rfl

@[simp] theorem State.buildTables_finalized (s : State) (k : Nat) :
    (s.buildTables k).finalized = s.finalized := rfl

@[simp] theorem State.buildTables_img (s : State) (k : Nat) :
    (s.buildTables k).img = s.img := rfl

@[simp] theorem State.buildTables_sin (s : State) (k : Nat) :
    (s.buildTables k).sin = s.sin := rfl

@[simp] theorem State.buildTables_fb (s : State) (k : Nat) :
    (s.buildTables k).fb = s.fb := rfl

@[simp] theorem State.buildTables_subfp (s : State) (k : Nat) :
    (s.buildTables k).subfp = s.subfp := rfl

@[simp] theorem State.buildTables_out (s : State) (k : Nat) :
    (s.buildTables k).out = s.out := rfl

@[simp] theorem State.buildTables_carry (s : State) (k : Nat) :
    (s.buildTables k).carry = s.carry := rfl

@[simp] theorem State.buildTables_ring (s : State) (k : Nat) :
    (s.buildTables k).ring = s.ring := rfl

@[simp] theorem State.buildTables_chroma (s : State) (k : Nat) :
    (s.buildTables k).chroma = s.chroma := rfl

@[simp] theorem State.buildTables_sym (s : State) (k : Nat) :
    (s.buildTables k).sym = s.sym := rfl

@[simp] theorem State.buildTables_raw (s : State) (k : Nat) :
    (s.buildTables k).raw = s.raw := rfl

@[simp] theorem State.buildTables_caches (s : State) (k : Nat) :
    (s.buildTables k).caches = s.caches.splice k [⟨cosTable k, sinTable k, auxElements k, 0⟩] := rfl

@[simp] theorem State.buildTables_pending (s : State) (k : Nat) :
    (s.buildTables k).pending = s.pending := rfl

@[simp] theorem State.buildTables_lastRead (s : State) (k : Nat) :
    (s.buildTables k).lastRead = s.lastRead := rfl

@[simp] theorem State.buildTables_allocDraws (s : State) (k : Nat) :
    (s.buildTables k).allocDraws = s.allocDraws := rfl

@[simp] theorem State.buildTables_drawCount (s : State) (k : Nat) :
    (s.buildTables k).drawCount = s.drawCount := rfl

@[simp] theorem State.buildTables_resetCount (s : State) (k : Nat) :
    (s.buildTables k).resetCount = s.resetCount := rfl

/-! ## `compress` -/

@[simp] theorem State.compress_err (s : State) (ws : List Word) :
    (s.compress ws).err = s.err := rfl

@[simp] theorem State.compress_arg0 (s : State) (ws : List Word) :
    (s.compress ws).arg0 = s.arg0 := rfl

@[simp] theorem State.compress_result (s : State) (ws : List Word) :
    (s.compress ws).result = s.result := rfl

@[simp] theorem State.compress_ctrlFmt (s : State) (ws : List Word) :
    (s.compress ws).ctrlFmt = s.ctrlFmt := rfl

@[simp] theorem State.compress_framesProcessed (s : State) (ws : List Word) :
    (s.compress ws).framesProcessed = s.framesProcessed := rfl

@[simp] theorem State.compress_row (s : State) (ws : List Word) :
    (s.compress ws).row = s.row := rfl

@[simp] theorem State.compress_coeff (s : State) (ws : List Word) :
    (s.compress ws).coeff = s.coeff := rfl

@[simp] theorem State.compress_noteIndex (s : State) (ws : List Word) :
    (s.compress ws).noteIndex = s.noteIndex := rfl

@[simp] theorem State.compress_carryLen (s : State) (ws : List Word) :
    (s.compress ws).carryLen = s.carryLen := rfl

@[simp] theorem State.compress_bitsIndex (s : State) (ws : List Word) :
    (s.compress ws).bitsIndex = BitVec.ofNat 32 (symbols ws).length := rfl

@[simp] theorem State.compress_fpLen (s : State) (ws : List Word) :
    (s.compress ws).fpLen = BitVec.ofNat 32 ws.length := rfl

@[simp] theorem State.compress_bytesLen (s : State) (ws : List Word) :
    (s.compress ws).bytesLen = BitVec.ofNat 32 (rawBytes ws).length := rfl

@[simp] theorem State.compress_outLen (s : State) (ws : List Word) :
    (s.compress ws).outLen = BitVec.ofNat 32 (base64 (rawBytes ws)).length := rfl

@[simp] theorem State.compress_tableValid (s : State) (ws : List Word) :
    (s.compress ws).tableValid = s.tableValid := rfl

@[simp] theorem State.compress_sessionFmt (s : State) (ws : List Word) :
    (s.compress ws).sessionFmt = s.sessionFmt := rfl

@[simp] theorem State.compress_live (s : State) (ws : List Word) :
    (s.compress ws).live = s.live := rfl

@[simp] theorem State.compress_finalized (s : State) (ws : List Word) :
    (s.compress ws).finalized = s.finalized := rfl

@[simp] theorem State.compress_img (s : State) (ws : List Word) :
    (s.compress ws).img = s.img := rfl

@[simp] theorem State.compress_sin (s : State) (ws : List Word) :
    (s.compress ws).sin = s.sin := rfl

@[simp] theorem State.compress_fb (s : State) (ws : List Word) :
    (s.compress ws).fb = s.fb := rfl

@[simp] theorem State.compress_subfp (s : State) (ws : List Word) :
    (s.compress ws).subfp = s.subfp := rfl

@[simp] theorem State.compress_out (s : State) (ws : List Word) :
    (s.compress ws).out = s.out.splice 0 (base64 (rawBytes ws)) := rfl

@[simp] theorem State.compress_carry (s : State) (ws : List Word) :
    (s.compress ws).carry = s.carry := rfl

@[simp] theorem State.compress_ring (s : State) (ws : List Word) :
    (s.compress ws).ring = s.ring := rfl

@[simp] theorem State.compress_chroma (s : State) (ws : List Word) :
    (s.compress ws).chroma = s.chroma := rfl

@[simp] theorem State.compress_sym (s : State) (ws : List Word) :
    (s.compress ws).sym = s.sym.splice 0 ((symbols ws).map (BitVec.ofNat 6)) := rfl

@[simp] theorem State.compress_raw (s : State) (ws : List Word) :
    (s.compress ws).raw = s.raw.splice 0 (rawBytes ws) := rfl

@[simp] theorem State.compress_caches (s : State) (ws : List Word) :
    (s.compress ws).caches = s.caches := rfl

@[simp] theorem State.compress_pending (s : State) (ws : List Word) :
    (s.compress ws).pending = s.pending := rfl

@[simp] theorem State.compress_lastRead (s : State) (ws : List Word) :
    (s.compress ws).lastRead = s.lastRead := rfl

@[simp] theorem State.compress_allocDraws (s : State) (ws : List Word) :
    (s.compress ws).allocDraws = s.allocDraws := rfl

@[simp] theorem State.compress_drawCount (s : State) (ws : List Word) :
    (s.compress ws).drawCount = s.drawCount := rfl

@[simp] theorem State.compress_resetCount (s : State) (ws : List Word) :
    (s.compress ws).resetCount = s.resetCount := rfl

/-! ## `touchAux` -/

@[simp] theorem State.touchAux_err (s : State) (k : Nat) :
    (s.touchAux k).err = s.err := by unfold State.touchAux; split <;> rfl

@[simp] theorem State.touchAux_arg0 (s : State) (k : Nat) :
    (s.touchAux k).arg0 = s.arg0 := by unfold State.touchAux; split <;> rfl

@[simp] theorem State.touchAux_result (s : State) (k : Nat) :
    (s.touchAux k).result = s.result := by unfold State.touchAux; split <;> rfl

@[simp] theorem State.touchAux_ctrlFmt (s : State) (k : Nat) :
    (s.touchAux k).ctrlFmt = s.ctrlFmt := by unfold State.touchAux; split <;> rfl

@[simp] theorem State.touchAux_framesProcessed (s : State) (k : Nat) :
    (s.touchAux k).framesProcessed = s.framesProcessed := by unfold State.touchAux; split <;> rfl

@[simp] theorem State.touchAux_row (s : State) (k : Nat) :
    (s.touchAux k).row = s.row := by unfold State.touchAux; split <;> rfl

@[simp] theorem State.touchAux_coeff (s : State) (k : Nat) :
    (s.touchAux k).coeff = s.coeff := by unfold State.touchAux; split <;> rfl

@[simp] theorem State.touchAux_noteIndex (s : State) (k : Nat) :
    (s.touchAux k).noteIndex = s.noteIndex := by unfold State.touchAux; split <;> rfl

@[simp] theorem State.touchAux_carryLen (s : State) (k : Nat) :
    (s.touchAux k).carryLen = s.carryLen := by unfold State.touchAux; split <;> rfl

@[simp] theorem State.touchAux_bitsIndex (s : State) (k : Nat) :
    (s.touchAux k).bitsIndex = s.bitsIndex := by unfold State.touchAux; split <;> rfl

@[simp] theorem State.touchAux_fpLen (s : State) (k : Nat) :
    (s.touchAux k).fpLen = s.fpLen := by unfold State.touchAux; split <;> rfl

@[simp] theorem State.touchAux_bytesLen (s : State) (k : Nat) :
    (s.touchAux k).bytesLen = s.bytesLen := by unfold State.touchAux; split <;> rfl

@[simp] theorem State.touchAux_outLen (s : State) (k : Nat) :
    (s.touchAux k).outLen = s.outLen := by unfold State.touchAux; split <;> rfl

@[simp] theorem State.touchAux_tableValid (s : State) (k : Nat) :
    (s.touchAux k).tableValid = s.tableValid := by unfold State.touchAux; split <;> rfl

@[simp] theorem State.touchAux_sessionFmt (s : State) (k : Nat) :
    (s.touchAux k).sessionFmt = s.sessionFmt := by unfold State.touchAux; split <;> rfl

@[simp] theorem State.touchAux_live (s : State) (k : Nat) :
    (s.touchAux k).live = s.live := by unfold State.touchAux; split <;> rfl

@[simp] theorem State.touchAux_finalized (s : State) (k : Nat) :
    (s.touchAux k).finalized = s.finalized := by unfold State.touchAux; split <;> rfl

@[simp] theorem State.touchAux_img (s : State) (k : Nat) :
    (s.touchAux k).img = s.img := by unfold State.touchAux; split <;> rfl

@[simp] theorem State.touchAux_sin (s : State) (k : Nat) :
    (s.touchAux k).sin = s.sin := by unfold State.touchAux; split <;> rfl

@[simp] theorem State.touchAux_fb (s : State) (k : Nat) :
    (s.touchAux k).fb = s.fb := by unfold State.touchAux; split <;> rfl

@[simp] theorem State.touchAux_subfp (s : State) (k : Nat) :
    (s.touchAux k).subfp = s.subfp := by unfold State.touchAux; split <;> rfl

@[simp] theorem State.touchAux_out (s : State) (k : Nat) :
    (s.touchAux k).out = s.out := by unfold State.touchAux; split <;> rfl

@[simp] theorem State.touchAux_carry (s : State) (k : Nat) :
    (s.touchAux k).carry = s.carry := by unfold State.touchAux; split <;> rfl

@[simp] theorem State.touchAux_ring (s : State) (k : Nat) :
    (s.touchAux k).ring = s.ring := by unfold State.touchAux; split <;> rfl

@[simp] theorem State.touchAux_chroma (s : State) (k : Nat) :
    (s.touchAux k).chroma = s.chroma := by unfold State.touchAux; split <;> rfl

@[simp] theorem State.touchAux_sym (s : State) (k : Nat) :
    (s.touchAux k).sym = s.sym := by unfold State.touchAux; split <;> rfl

@[simp] theorem State.touchAux_raw (s : State) (k : Nat) :
    (s.touchAux k).raw = s.raw := by unfold State.touchAux; split <;> rfl

@[simp] theorem State.touchAux_pending (s : State) (k : Nat) :
    (s.touchAux k).pending = s.pending := by unfold State.touchAux; split <;> rfl

@[simp] theorem State.touchAux_lastRead (s : State) (k : Nat) :
    (s.touchAux k).lastRead = s.lastRead := by unfold State.touchAux; split <;> rfl

@[simp] theorem State.touchAux_allocDraws (s : State) (k : Nat) :
    (s.touchAux k).allocDraws = s.allocDraws := by unfold State.touchAux; split <;> rfl

@[simp] theorem State.touchAux_drawCount (s : State) (k : Nat) :
    (s.touchAux k).drawCount = s.drawCount := by unfold State.touchAux; split <;> rfl

@[simp] theorem State.touchAux_resetCount (s : State) (k : Nat) :
    (s.touchAux k).resetCount = s.resetCount := by unfold State.touchAux; split <;> rfl

theorem State.touchAux_caches (s : State) (k : Nat) :
    (s.touchAux k).caches = match s.caches.read? k with
      | none => s.caches
      | some c => s.caches.splice k [{ c with auxRuns := c.auxRuns + 1 }] := by
  unfold State.touchAux; cases s.caches.read? k <;> rfl

/-! ## `emitRow` -/

@[simp] theorem State.emitRow_err (s : State) :
    (s.emitRow).err = s.err := rfl

@[simp] theorem State.emitRow_arg0 (s : State) :
    (s.emitRow).arg0 = s.arg0 := rfl

@[simp] theorem State.emitRow_result (s : State) :
    (s.emitRow).result = s.result := rfl

@[simp] theorem State.emitRow_ctrlFmt (s : State) :
    (s.emitRow).ctrlFmt = s.ctrlFmt := rfl

@[simp] theorem State.emitRow_framesProcessed (s : State) :
    (s.emitRow).framesProcessed = s.framesProcessed := rfl

@[simp] theorem State.emitRow_row (s : State) :
    (s.emitRow).row = s.row + 1 := rfl

@[simp] theorem State.emitRow_coeff (s : State) :
    (s.emitRow).coeff = s.coeff := rfl

@[simp] theorem State.emitRow_noteIndex (s : State) :
    (s.emitRow).noteIndex = s.noteIndex := rfl

@[simp] theorem State.emitRow_carryLen (s : State) :
    (s.emitRow).carryLen = s.carryLen := rfl

@[simp] theorem State.emitRow_bitsIndex (s : State) :
    (s.emitRow).bitsIndex = s.bitsIndex := rfl

@[simp] theorem State.emitRow_fpLen (s : State) :
    (s.emitRow).fpLen = s.fpLen := rfl

@[simp] theorem State.emitRow_bytesLen (s : State) :
    (s.emitRow).bytesLen = s.bytesLen := rfl

@[simp] theorem State.emitRow_outLen (s : State) :
    (s.emitRow).outLen = s.outLen := rfl

@[simp] theorem State.emitRow_tableValid (s : State) :
    (s.emitRow).tableValid = s.tableValid := rfl

@[simp] theorem State.emitRow_sessionFmt (s : State) :
    (s.emitRow).sessionFmt = s.sessionFmt := rfl

@[simp] theorem State.emitRow_live (s : State) :
    (s.emitRow).live = s.live := rfl

@[simp] theorem State.emitRow_finalized (s : State) :
    (s.emitRow).finalized = s.finalized := rfl

@[simp] theorem State.emitRow_img (s : State) :
    (s.emitRow).img = s.img := rfl

@[simp] theorem State.emitRow_sin (s : State) :
    (s.emitRow).sin = s.sin := rfl

@[simp] theorem State.emitRow_fb (s : State) :
    (s.emitRow).fb = s.fb := rfl

@[simp] theorem State.emitRow_subfp (s : State) :
    (s.emitRow).subfp = s.subfp := rfl

@[simp] theorem State.emitRow_out (s : State) :
    (s.emitRow).out = s.out := rfl

@[simp] theorem State.emitRow_carry (s : State) :
    (s.emitRow).carry = s.carry := rfl

@[simp] theorem State.emitRow_ring (s : State) :
    (s.emitRow).ring = s.ring := rfl

@[simp] theorem State.emitRow_chroma (s : State) :
    (s.emitRow).chroma = s.chroma.splice (notes * s.row.toNat)
      (normaliseRow ((List.range notes).map s.filteredNote)) := rfl

@[simp] theorem State.emitRow_sym (s : State) :
    (s.emitRow).sym = s.sym := rfl

@[simp] theorem State.emitRow_raw (s : State) :
    (s.emitRow).raw = s.raw := rfl

@[simp] theorem State.emitRow_caches (s : State) :
    (s.emitRow).caches = s.caches := rfl

@[simp] theorem State.emitRow_pending (s : State) :
    (s.emitRow).pending = s.pending := rfl

@[simp] theorem State.emitRow_lastRead (s : State) :
    (s.emitRow).lastRead = s.lastRead := rfl

@[simp] theorem State.emitRow_allocDraws (s : State) :
    (s.emitRow).allocDraws = s.allocDraws := rfl

@[simp] theorem State.emitRow_drawCount (s : State) :
    (s.emitRow).drawCount = s.drawCount := rfl

@[simp] theorem State.emitRow_resetCount (s : State) :
    (s.emitRow).resetCount = s.resetCount := rfl

/-! ## `gateRow` -/

@[simp] theorem State.gateRow_err (s : State) :
    (s.gateRow).err = s.err := by simp only [State.gateRow]; split <;> rfl

@[simp] theorem State.gateRow_arg0 (s : State) :
    (s.gateRow).arg0 = s.arg0 := by simp only [State.gateRow]; split <;> rfl

@[simp] theorem State.gateRow_result (s : State) :
    (s.gateRow).result = s.result := by simp only [State.gateRow]; split <;> rfl

@[simp] theorem State.gateRow_ctrlFmt (s : State) :
    (s.gateRow).ctrlFmt = s.ctrlFmt := by simp only [State.gateRow]; split <;> rfl

@[simp] theorem State.gateRow_framesProcessed (s : State) :
    (s.gateRow).framesProcessed = s.framesProcessed := by simp only [State.gateRow]; split <;> rfl

@[simp] theorem State.gateRow_noteIndex (s : State) :
    (s.gateRow).noteIndex = s.noteIndex := by simp only [State.gateRow]; split <;> rfl

@[simp] theorem State.gateRow_carryLen (s : State) :
    (s.gateRow).carryLen = s.carryLen := by simp only [State.gateRow]; split <;> rfl

@[simp] theorem State.gateRow_bitsIndex (s : State) :
    (s.gateRow).bitsIndex = s.bitsIndex := by simp only [State.gateRow]; split <;> rfl

@[simp] theorem State.gateRow_fpLen (s : State) :
    (s.gateRow).fpLen = s.fpLen := by simp only [State.gateRow]; split <;> rfl

@[simp] theorem State.gateRow_bytesLen (s : State) :
    (s.gateRow).bytesLen = s.bytesLen := by simp only [State.gateRow]; split <;> rfl

@[simp] theorem State.gateRow_outLen (s : State) :
    (s.gateRow).outLen = s.outLen := by simp only [State.gateRow]; split <;> rfl

@[simp] theorem State.gateRow_tableValid (s : State) :
    (s.gateRow).tableValid = s.tableValid := by simp only [State.gateRow]; split <;> rfl

@[simp] theorem State.gateRow_sessionFmt (s : State) :
    (s.gateRow).sessionFmt = s.sessionFmt := by simp only [State.gateRow]; split <;> rfl

@[simp] theorem State.gateRow_live (s : State) :
    (s.gateRow).live = s.live := by simp only [State.gateRow]; split <;> rfl

@[simp] theorem State.gateRow_finalized (s : State) :
    (s.gateRow).finalized = s.finalized := by simp only [State.gateRow]; split <;> rfl

@[simp] theorem State.gateRow_img (s : State) :
    (s.gateRow).img = s.img := by simp only [State.gateRow]; split <;> rfl

@[simp] theorem State.gateRow_sin (s : State) :
    (s.gateRow).sin = s.sin := by simp only [State.gateRow]; split <;> rfl

@[simp] theorem State.gateRow_fb (s : State) :
    (s.gateRow).fb = s.fb := by simp only [State.gateRow]; split <;> rfl

@[simp] theorem State.gateRow_subfp (s : State) :
    (s.gateRow).subfp = s.subfp := by simp only [State.gateRow]; split <;> rfl

@[simp] theorem State.gateRow_out (s : State) :
    (s.gateRow).out = s.out := by simp only [State.gateRow]; split <;> rfl

@[simp] theorem State.gateRow_carry (s : State) :
    (s.gateRow).carry = s.carry := by simp only [State.gateRow]; split <;> rfl

@[simp] theorem State.gateRow_ring (s : State) :
    (s.gateRow).ring = s.ring := by simp only [State.gateRow]; split <;> rfl

@[simp] theorem State.gateRow_sym (s : State) :
    (s.gateRow).sym = s.sym := by simp only [State.gateRow]; split <;> rfl

@[simp] theorem State.gateRow_raw (s : State) :
    (s.gateRow).raw = s.raw := by simp only [State.gateRow]; split <;> rfl

@[simp] theorem State.gateRow_caches (s : State) :
    (s.gateRow).caches = s.caches := by simp only [State.gateRow]; split <;> rfl

@[simp] theorem State.gateRow_pending (s : State) :
    (s.gateRow).pending = s.pending := by simp only [State.gateRow]; split <;> rfl

@[simp] theorem State.gateRow_lastRead (s : State) :
    (s.gateRow).lastRead = s.lastRead := by simp only [State.gateRow]; split <;> rfl

@[simp] theorem State.gateRow_allocDraws (s : State) :
    (s.gateRow).allocDraws = s.allocDraws := by simp only [State.gateRow]; split <;> rfl

@[simp] theorem State.gateRow_drawCount (s : State) :
    (s.gateRow).drawCount = s.drawCount := by simp only [State.gateRow]; split <;> rfl

@[simp] theorem State.gateRow_resetCount (s : State) :
    (s.gateRow).resetCount = s.resetCount := by simp only [State.gateRow]; split <;> rfl

/-! ## `chromaStep` -/

@[simp] theorem State.chromaStep_err (s : State) (y : List F64) :
    (s.chromaStep y).err = s.err := by simp [State.chromaStep]

@[simp] theorem State.chromaStep_arg0 (s : State) (y : List F64) :
    (s.chromaStep y).arg0 = s.arg0 := by simp [State.chromaStep]

@[simp] theorem State.chromaStep_result (s : State) (y : List F64) :
    (s.chromaStep y).result = s.result := by simp [State.chromaStep]

@[simp] theorem State.chromaStep_ctrlFmt (s : State) (y : List F64) :
    (s.chromaStep y).ctrlFmt = s.ctrlFmt := by simp [State.chromaStep]

@[simp] theorem State.chromaStep_framesProcessed (s : State) (y : List F64) :
    (s.chromaStep y).framesProcessed = s.framesProcessed := by simp [State.chromaStep]

@[simp] theorem State.chromaStep_noteIndex (s : State) (y : List F64) :
    (s.chromaStep y).noteIndex = s.noteIndex + 1 := by simp [State.chromaStep]

@[simp] theorem State.chromaStep_carryLen (s : State) (y : List F64) :
    (s.chromaStep y).carryLen = s.carryLen := by simp [State.chromaStep]

@[simp] theorem State.chromaStep_bitsIndex (s : State) (y : List F64) :
    (s.chromaStep y).bitsIndex = s.bitsIndex := by simp [State.chromaStep]

@[simp] theorem State.chromaStep_fpLen (s : State) (y : List F64) :
    (s.chromaStep y).fpLen = s.fpLen := by simp [State.chromaStep]

@[simp] theorem State.chromaStep_bytesLen (s : State) (y : List F64) :
    (s.chromaStep y).bytesLen = s.bytesLen := by simp [State.chromaStep]

@[simp] theorem State.chromaStep_outLen (s : State) (y : List F64) :
    (s.chromaStep y).outLen = s.outLen := by simp [State.chromaStep]

@[simp] theorem State.chromaStep_tableValid (s : State) (y : List F64) :
    (s.chromaStep y).tableValid = s.tableValid := by simp [State.chromaStep]

@[simp] theorem State.chromaStep_sessionFmt (s : State) (y : List F64) :
    (s.chromaStep y).sessionFmt = s.sessionFmt := by simp [State.chromaStep]

@[simp] theorem State.chromaStep_live (s : State) (y : List F64) :
    (s.chromaStep y).live = s.live := by simp [State.chromaStep]

@[simp] theorem State.chromaStep_finalized (s : State) (y : List F64) :
    (s.chromaStep y).finalized = s.finalized := by simp [State.chromaStep]

@[simp] theorem State.chromaStep_img (s : State) (y : List F64) :
    (s.chromaStep y).img = s.img := by simp [State.chromaStep]

@[simp] theorem State.chromaStep_sin (s : State) (y : List F64) :
    (s.chromaStep y).sin = s.sin := by simp [State.chromaStep]

@[simp] theorem State.chromaStep_fb (s : State) (y : List F64) :
    (s.chromaStep y).fb = s.fb := by simp [State.chromaStep]

@[simp] theorem State.chromaStep_subfp (s : State) (y : List F64) :
    (s.chromaStep y).subfp = s.subfp := by simp [State.chromaStep]

@[simp] theorem State.chromaStep_out (s : State) (y : List F64) :
    (s.chromaStep y).out = s.out := by simp [State.chromaStep]

@[simp] theorem State.chromaStep_carry (s : State) (y : List F64) :
    (s.chromaStep y).carry = s.carry := by simp [State.chromaStep]

@[simp] theorem State.chromaStep_ring (s : State) (y : List F64) :
    (s.chromaStep y).ring = s.ring.splice (notes * s.noteIndex.toNat) (noteEnergies y.toArray).toList := by simp [State.chromaStep]

@[simp] theorem State.chromaStep_sym (s : State) (y : List F64) :
    (s.chromaStep y).sym = s.sym := by simp [State.chromaStep]

@[simp] theorem State.chromaStep_raw (s : State) (y : List F64) :
    (s.chromaStep y).raw = s.raw := by simp [State.chromaStep]

@[simp] theorem State.chromaStep_caches (s : State) (y : List F64) :
    (s.chromaStep y).caches = s.caches := by simp [State.chromaStep]

@[simp] theorem State.chromaStep_pending (s : State) (y : List F64) :
    (s.chromaStep y).pending = s.pending := by simp [State.chromaStep]

@[simp] theorem State.chromaStep_lastRead (s : State) (y : List F64) :
    (s.chromaStep y).lastRead = s.lastRead := by simp [State.chromaStep]

@[simp] theorem State.chromaStep_allocDraws (s : State) (y : List F64) :
    (s.chromaStep y).allocDraws = s.allocDraws := by simp [State.chromaStep]

@[simp] theorem State.chromaStep_drawCount (s : State) (y : List F64) :
    (s.chromaStep y).drawCount = s.drawCount := by simp [State.chromaStep]

@[simp] theorem State.chromaStep_resetCount (s : State) (y : List F64) :
    (s.chromaStep y).resetCount = s.resetCount := by simp [State.chromaStep]

/-! ## `processFrame` -/

@[simp] theorem State.processFrame_err (s : State) (f : List F64) :
    (s.processFrame f).err = s.err := by simp [State.processFrame]

@[simp] theorem State.processFrame_arg0 (s : State) (f : List F64) :
    (s.processFrame f).arg0 = s.arg0 := by simp [State.processFrame]

@[simp] theorem State.processFrame_result (s : State) (f : List F64) :
    (s.processFrame f).result = s.result := by simp [State.processFrame]

@[simp] theorem State.processFrame_ctrlFmt (s : State) (f : List F64) :
    (s.processFrame f).ctrlFmt = s.ctrlFmt := by simp [State.processFrame]

@[simp] theorem State.processFrame_framesProcessed (s : State) (f : List F64) :
    (s.processFrame f).framesProcessed = s.framesProcessed + BitVec.ofNat 32 overlap := by simp [State.processFrame]

@[simp] theorem State.processFrame_noteIndex (s : State) (f : List F64) :
    (s.processFrame f).noteIndex = s.noteIndex + 1 := by simp [State.processFrame]

@[simp] theorem State.processFrame_carryLen (s : State) (f : List F64) :
    (s.processFrame f).carryLen = s.carryLen := by simp [State.processFrame]

@[simp] theorem State.processFrame_bitsIndex (s : State) (f : List F64) :
    (s.processFrame f).bitsIndex = s.bitsIndex := by simp [State.processFrame]

@[simp] theorem State.processFrame_fpLen (s : State) (f : List F64) :
    (s.processFrame f).fpLen = s.fpLen := by simp [State.processFrame]

@[simp] theorem State.processFrame_bytesLen (s : State) (f : List F64) :
    (s.processFrame f).bytesLen = s.bytesLen := by simp [State.processFrame]

@[simp] theorem State.processFrame_outLen (s : State) (f : List F64) :
    (s.processFrame f).outLen = s.outLen := by simp [State.processFrame]

@[simp] theorem State.processFrame_tableValid (s : State) (f : List F64) :
    (s.processFrame f).tableValid = s.tableValid := by simp [State.processFrame]

@[simp] theorem State.processFrame_sessionFmt (s : State) (f : List F64) :
    (s.processFrame f).sessionFmt = s.sessionFmt := by simp [State.processFrame]

@[simp] theorem State.processFrame_live (s : State) (f : List F64) :
    (s.processFrame f).live = s.live := by simp [State.processFrame]

@[simp] theorem State.processFrame_finalized (s : State) (f : List F64) :
    (s.processFrame f).finalized = s.finalized := by simp [State.processFrame]

@[simp] theorem State.processFrame_img (s : State) (f : List F64) :
    (s.processFrame f).img = s.img := by simp [State.processFrame]

@[simp] theorem State.processFrame_sin (s : State) (f : List F64) :
    (s.processFrame f).sin = s.sin := by simp [State.processFrame]

@[simp] theorem State.processFrame_fb (s : State) (f : List F64) :
    (s.processFrame f).fb = s.fb.splice 0 (s.fft 12 (windowFn f)) := by simp [State.processFrame]

@[simp] theorem State.processFrame_subfp (s : State) (f : List F64) :
    (s.processFrame f).subfp = s.subfp := by simp [State.processFrame]

@[simp] theorem State.processFrame_out (s : State) (f : List F64) :
    (s.processFrame f).out = s.out := by simp [State.processFrame]

@[simp] theorem State.processFrame_carry (s : State) (f : List F64) :
    (s.processFrame f).carry = s.carry := by simp [State.processFrame]

@[simp] theorem State.processFrame_ring (s : State) (f : List F64) :
    (s.processFrame f).ring = s.ring.splice (notes * s.noteIndex.toNat)
      (noteEnergies (s.fft 12 (windowFn f)).toArray).toList := by simp [State.processFrame]

@[simp] theorem State.processFrame_sym (s : State) (f : List F64) :
    (s.processFrame f).sym = s.sym := by simp [State.processFrame]

@[simp] theorem State.processFrame_raw (s : State) (f : List F64) :
    (s.processFrame f).raw = s.raw := by simp [State.processFrame]

@[simp] theorem State.processFrame_pending (s : State) (f : List F64) :
    (s.processFrame f).pending = s.pending := by simp [State.processFrame]

@[simp] theorem State.processFrame_lastRead (s : State) (f : List F64) :
    (s.processFrame f).lastRead = s.lastRead := by simp [State.processFrame]

@[simp] theorem State.processFrame_allocDraws (s : State) (f : List F64) :
    (s.processFrame f).allocDraws = s.allocDraws := by simp [State.processFrame]

@[simp] theorem State.processFrame_drawCount (s : State) (f : List F64) :
    (s.processFrame f).drawCount = s.drawCount := by simp [State.processFrame]

@[simp] theorem State.processFrame_resetCount (s : State) (f : List F64) :
    (s.processFrame f).resetCount = s.resetCount := by simp [State.processFrame]

end Sys2Proof.Machine
end

