-- ==== Sys2Proof/Laws/Ops.lean ====
section
/-! SUPPORT. For each shared operation, what it can do, said once. -/

namespace Sys2Proof.Machine

/-! ## Operands -/

/-- A transform size is admitted exactly when it is a power of two from 4 to 4096. -/
theorem transformLog?_eq_some (n k : Nat) :
    transformLog? n = some k ↔ 2 ≤ k ∧ k ≤ 12 ∧ n = 2 ^ k := by
  have inj : ∀ j : Nat, (2 : Nat) ^ j = 2 ^ k → j = k := fun j h => Nat.pow_right_injective le_rfl h
  constructor
  · intro h
    have hm := List.mem_of_find?_eq_some h
    have hp := List.find?_some h
    simp only [List.mem_range'_1, beq_iff_eq] at hm hp
    exact ⟨hm.1, by omega, hp⟩
  · rintro ⟨h2, h12, rfl⟩
    refine List.find?_eq_some_iff_getElem.2 ⟨by simp, k - 2, ?_, ?_, ?_⟩
    · simp only [List.length_range']; omega
    · simp only [List.getElem_range']; omega
    · intro j hj
      simp only [List.getElem_range', Bool.not_eq_true', beq_eq_false_iff_ne]
      intro h
      have := inj _ h.symm
      omega

/-- A sample is refused exactly when it is a NaN of a binary32 stream. -/
theorem norm_isNone (fmt : SampleFormat) (w : Word) :
    (norm fmt w).isNone = !(fmt == .int16 || !f32IsNaN w) := by
  cases fmt with
  | int16 => rfl
  | float32 =>
    have : (SampleFormat.float32 == SampleFormat.int16) = false := rfl
    simp only [norm, this, Bool.false_or, Bool.not_not]
    by_cases h : f32IsNaN w = true
    · simp [h]
    · simp only [h, Bool.false_eq_true, if_false]
      split
      · rfl
      · split <;> rfl

/-- Normalising refuses exactly the words among which there is a NaN; otherwise it gives one sample
for each word. -/
theorem normAll_eq (fmt : SampleFormat) (ws : List Word) :
    normAll fmt ws = if noNaN fmt ws then some (ws.filterMap (norm fmt)) else none := by
  have h : ((ws.map (norm fmt)).any fun x => x.isNone) = !noNaN fmt ws := by
    simp only [List.any_map, noNaN, List.not_all_eq_any_not]
    exact congrArg _ (funext fun w => norm_isNone fmt w)
  unfold normAll
  simp only [h]
  cases noNaN fmt ws <;> simp [List.filterMap_map]

/-- Where no word is a NaN, normalising keeps the count. -/
theorem filterMap_norm_length (fmt : SampleFormat) (ws : List Word) (h : noNaN fmt ws = true) :
    (ws.filterMap (norm fmt)).length = ws.length := by
  induction ws with
  | nil => rfl
  | cons w ws ih =>
    simp only [noNaN, List.all_cons, Bool.and_eq_true] at h
    have hw : (norm fmt w).isNone = false := by rw [norm_isNone, h.1]; rfl
    obtain ⟨v, hv⟩ := Option.isSome_iff_exists.1 (by simpa [Option.isSome_iff_ne_none] using hw)
    simp only [List.filterMap_cons, hv, List.length_cons]
    rw [ih (by simpa [noNaN] using h.2)]

/-! ## Tables -/

/-- `EnsureTables` does nothing when the tables are built; otherwise it draws, and builds them
exactly when the draw succeeds. -/
theorem State.ensureTables_cases (s : State) (k : Nat) :
    (s.tableValid.getLsbD k = true ∧ s.ensureTables k = (true, s)) ∨
    (s.tableValid.getLsbD k = false ∧ s.nextDraw = true ∧
      s.ensureTables k = (true, s.drawn.buildTables k)) ∨
    (s.tableValid.getLsbD k = false ∧ s.nextDraw = false ∧ s.ensureTables k = (false, s.drawn)) := by
  unfold State.ensureTables
  cases h : s.tableValid.getLsbD k
  · cases hd : s.nextDraw <;> simp
  · simp

/-- `EnsureTables` succeeds exactly when the tables are available. -/
theorem State.ensureTables_fst (s : State) (k : Nat) :
    (s.ensureTables k).1 = s.tablesAvailable k := by
  rcases s.ensureTables_cases k with ⟨h, e⟩ | ⟨h, hd, e⟩ | ⟨h, hd, e⟩
  · simp [State.tablesAvailable, e, h]
  · simp [State.tablesAvailable, e, h, hd]
  · simp [State.tablesAvailable, e, h, hd]

/-- The elements of `AUX_k` are those of the size's entry below its extent. -/
theorem State.auxAt_isSome (s : State) (k i : Nat) :
    (s.auxAt k i).isSome = (s.caches.read? k).any fun c => decide (i < c.auxLen) := by
  unfold State.auxAt
  cases s.caches.read? k with
  | none => rfl
  | some c => by_cases h : i < c.auxLen <;> simp [h]

/-- Building a size allocates its `AUX_k` of `4 * 2^k` elements (40_fft.md R101). -/
theorem State.buildTables_auxAt_isSome (s : State) (k i : Nat) :
    ((s.buildTables k).auxAt k i).isSome = decide (i < 4 * 2 ^ k) := by
  have h := Memory.read?_splice_inside s.caches k
    [(⟨cosTable k, sinTable k, auxElements k, 0⟩ : SizeCache)] 0 (by simp)
  rw [State.auxAt_isSome, State.buildTables_caches]
  simp only [Nat.add_zero] at h
  rw [h]
  simp [auxElements]

@[simp] theorem cosTable_length (k : Nat) : (cosTable k).length = 2 ^ k := by simp [cosTable]

@[simp] theorem sinTable_length (k : Nat) : (sinTable k).length = 2 ^ k := by simp [sinTable]

/-! ## Transform, window, chroma -/

theorem combineBin_size (c1 s1 : F64) (m : Nat) (z : Complexes) (st : CombineState) (q : Nat) :
    (combineBin c1 s1 m z st q).y.size = st.y.size := by
  obtain ⟨zr, zi⟩ := z
  obtain ⟨wr, wi, y⟩ := st
  simp [combineBin]

/-- The transform of size `2^k` has `2^k` values. -/
@[simp] theorem fftWith_size (cosT sinT : Array F64) (k : Nat) (x : Array F64) :
    (fftWith cosT sinT k x).size = 2 ^ k := by
  have fold : ∀ (l : List Nat) (c1 s1 : F64) (m : Nat) (z : Complexes) (st : CombineState),
      (l.foldl (combineBin c1 s1 m z) st).y.size = st.y.size := by
    intro l
    induction l with
    | nil => intros; rfl
    | cons q l ih => intros; rw [List.foldl_cons, ih, combineBin_size]
  unfold fftWith
  rw [fold]
  simp

@[simp] theorem State.fft_length (s : State) (k : Nat) (x : List F64) :
    (s.fft k x).length = 2 ^ k := by
  simp [State.fft]

@[simp] theorem windowFrom_length (cd sd c s : F64) (x : List F64) :
    (windowFrom cd sd c s x).length = x.length := by
  induction x generalizing c s with
  | nil => rfl
  | cons v x ih => simp [windowFrom, ih]

@[simp] theorem windowFn_length (x : List F64) : (windowFn x).length = x.length := by
  simp [windowFn]

@[simp] theorem noteEnergies_size (y : Array F64) : (noteEnergies y).size = notes := by
  have fold : ∀ (l : List Nat) (a : Array F64),
      (l.foldl (fun slot b =>
        slot.setIfInBounds (noteOf b) (fadd (elem slot (noteOf b)) (binEnergy y b))) a).size
        = a.size := by
    intro l
    induction l with
    | nil => intros; rfl
    | cons q l ih => intros; rw [List.foldl_cons, ih]; simp
  unfold noteEnergies
  rw [fold]
  simp

@[simp] theorem normaliseRow_length (v : List F64) : (normaliseRow v).length = v.length := by
  simp [normaliseRow]

/-- The row gate: below 5 it counts, at 5 it starts again and emits one row. -/
theorem State.gateRow_cases (s : State) :
    ((s.coeff + 1).toNat = rowEvery ∧ s.gateRow = (s.setCoeff 0).emitRow) ∨
    ((s.coeff + 1).toNat ≠ rowEvery ∧ s.gateRow = s.setCoeff (s.coeff + 1)) := by
  unfold State.gateRow
  by_cases h : (s.coeff + 1).toNat = rowEvery
  · exact .inl ⟨h, if_pos h⟩
  · exact .inr ⟨h, if_neg h⟩

/-- What every processed frame keeps, the frame loop keeps. -/
theorem frameLoop_keeps {P : State → Prop}
    (step : ∀ s f, s.needsSamples = true → f.length = frameSize → P s → P (s.processFrame f)) :
    ∀ (passes : Nat) (b : List F64) (s : State), P s → P (frameLoop passes b s).2
  | 0, _, _, h => h
  | passes + 1, b, s, h => by
    unfold frameLoop
    split
    · rename_i hc
      exact frameLoop_keeps step passes _ _ (step s _ hc.2 (by simp [hc.1]) h)
    · exact h

/-- The frame loop ends where no whole frame is left or the budget is reached. -/
theorem frameLoop_done :
    ∀ (passes : Nat) (b : List F64) (s : State), b.length ≤ passes →
      (frameLoop passes b s).1.length < frameSize ∨ (frameLoop passes b s).2.needsSamples = false
  | 0, b, s, h => .inl (by
      have : (frameLoop 0 b s).1 = b := rfl
      rw [this]
      unfold frameSize
      omega)
  | passes + 1, b, s, h => by
    unfold frameLoop
    split
    · rename_i hc
      refine frameLoop_done passes _ _ ?_
      have := hc.1
      simp only [List.length_drop, overlap, frameSize] at *
      omega
    · rename_i hc
      by_cases hb : frameSize ≤ b.length
      · exact .inr (by simpa [hb] using hc)
      · exact .inl (show b.length < frameSize by omega)

/-! ## Integral image -/

theorem integralNotes_length (left diagonal : F64) (up cur : List F64) :
    (integralNotes left diagonal up cur).length = min up.length cur.length := by
  induction up generalizing left diagonal cur with
  | nil => simp [integralNotes]
  | cons u us ih =>
    cases cur with
    | nil => simp [integralNotes]
    | cons c cs => simp [integralNotes, ih]

theorem integralRow_length (up cur : List F64) :
    (integralRow up cur).length = min up.length cur.length := by
  cases up with
  | nil => simp [integralRow]
  | cons u us =>
    cases cur with
    | nil => simp [integralRow]
    | cons c cs => simp [integralRow, integralNotes_length]

theorem prefixSums_length (left : F64) (v : List F64) : (prefixSums left v).length = v.length := by
  induction v generalizing left with
  | nil => rfl
  | cons c cs ih => simp [prefixSums, ih]

theorem integralRow0_length (v : List F64) : (integralRow0 v).length = v.length := by
  cases v with
  | nil => rfl
  | cons c cs => simp [integralRow0, prefixSums_length]

theorem integralRows_width (n : Nat) (rows : List (List F64)) (h : ∀ r ∈ rows, r.length = n)
    (up : List F64) (hup : up.length = n) :
    (integralRows up rows).length = rows.length ∧ ∀ r ∈ integralRows up rows, r.length = n := by
  induction rows generalizing up with
  | nil => simp [integralRows]
  | cons r rs ih =>
    have hr : (integralRow up r).length = n := by
      rw [integralRow_length, hup, h r (by simp)]; simp
    have := ih (fun x hx => h x (by simp [hx])) _ hr
    simp only [integralRows, List.length_cons, this.1, true_and, List.mem_cons]
    rintro x (rfl | hx)
    · exact hr
    · exact this.2 x hx

/-- The image of rows of one width has as many rows, of that width. -/
theorem integralImage_width (n : Nat) (rows : List (List F64)) (h : ∀ r ∈ rows, r.length = n) :
    (integralImage rows).length = rows.length ∧ ∀ r ∈ integralImage rows, r.length = n := by
  cases rows with
  | nil => simp [integralImage]
  | cons r rs =>
    have hr : (integralRow0 r).length = n := by rw [integralRow0_length, h r (by simp)]
    have := integralRows_width n rs (fun x hx => h x (by simp [hx])) _ hr
    simp only [integralImage, List.length_cons, this.1, true_and, List.mem_cons]
    rintro x (rfl | hx)
    · exact hr
    · exact this.2 x hx

theorem rowsOf_width (n : Nat) (vs : List F64) (h : vs.length = notes * n) :
    (rowsOf n vs).length = n ∧ ∀ r ∈ rowsOf n vs, r.length = notes := by
  induction n generalizing vs with
  | zero => simp [rowsOf]
  | succ n ih =>
    have hd := ih (vs.drop notes) (by simp [h, Nat.mul_succ])
    simp only [rowsOf, List.length_cons, hd.1, true_and, List.mem_cons]
    rintro x (rfl | hx)
    · simp [h, Nat.mul_succ]
    · exact hd.2 x hx

/-- The image fills the rows of the chromagram. -/
theorem State.imageOf_length (s : State) : s.imageOf.length = notes * s.row.toNat := by
  have hr := rowsOf_width s.row.toNat (s.chromaSlice (notes * s.row.toNat))
    (by simp [State.chromaSlice])
  have hi := integralImage_width notes _ hr.2
  have : ((integralImage (rowsOf s.row.toNat (s.chromaSlice (notes * s.row.toNat)))).map
      List.length) = List.replicate s.row.toNat notes := by
    refine List.eq_replicate_iff.2 ⟨by simp [hi.1, hr.1], fun x hx => ?_⟩
    obtain ⟨r, hr', rfl⟩ := List.mem_map.1 hx
    exact hi.2 r hr'
  simp [State.imageOf, List.length_flatten, this, Nat.mul_comm]

end Sys2Proof.Machine
end

