-- ==== Sys2Proof/Laws/PerInstr.lean ====
section
/-! SUPPORT. A family of statements about the commands as syntax, one lemma for each. -/

/-- The command is well formed, stands in the opcode map of 30_encoding.md R82 under its opcode, its
word is that opcode with zeros above it (30_encoding.md R80), and the word decodes to it. -/
def Sys2Proof.Laws.TableEncoding.Statement (i : Sys2Proof.Instr) : Prop :=
  i.wellFormed = true ∧ (i.opcode.toNat, i) ∈ Sys2Proof.Machine.opcodeTable ∧
  (Sys2Proof.encode i).toNat = i.opcode.toNat ∧ Sys2Proof.decode (Sys2Proof.encode i) = .ok i

theorem Sys2Proof.Laws.TableEncoding.nop : Statement .nop := by
  unfold Statement; decide

theorem Sys2Proof.Laws.TableEncoding.sessionOpen : Statement .sessionOpen := by
  unfold Statement; decide

theorem Sys2Proof.Laws.TableEncoding.sessionClose : Statement .sessionClose := by
  unfold Statement; decide

theorem Sys2Proof.Laws.TableEncoding.addSamples : Statement .addSamples := by
  unfold Statement; decide

theorem Sys2Proof.Laws.TableEncoding.needsSamples : Statement .needsSamples := by
  unfold Statement; decide

theorem Sys2Proof.Laws.TableEncoding.canCalculate : Statement .canCalculate := by
  unfold Statement; decide

theorem Sys2Proof.Laws.TableEncoding.calculateFingerprint :
    Statement .calculateFingerprint := by
  unfold Statement; decide

theorem Sys2Proof.Laws.TableEncoding.fftForward : Statement .fftForward := by
  unfold Statement; decide

theorem Sys2Proof.Laws.TableEncoding.window : Statement .window := by
  unfold Statement; decide

theorem Sys2Proof.Laws.TableEncoding.compress : Statement .compress := by
  unfold Statement; decide
end

