-- ==== Sys2Proof/Laws/Step.lean ====
section
/-! SUPPORT. What a step can do: one case for each kind of action. -/

namespace Sys2Proof.Machine

/-- An index has a fault exactly when its space does not admit it. -/
theorem indexFault_isNone (space : Space) (i : Nat) :
    (indexFault space i).isNone = space.admits i := by
  unfold indexFault Space.admits
  by_cases h : space.extent ≤ i
  · simp [h, Nat.not_lt.2 h]
  · have hlt := Nat.not_le.1 h
    by_cases hc : space = .csr
    · subst hc
      by_cases h4 : i % 4 = 0 <;> simp [h, hlt, h4]
    · simp [h, hlt, hc]

/-- An access has a fault exactly when it is not admitted (20_memory.md R64). -/
theorem accessFault_isNone (a : HostAction) : (accessFault a).isNone = a.wellFormed := by
  cases a <;> simp [accessFault, HostAction.wellFormed, indexFault_isNone]

/-- What one step does: idle, a command, an illegal command word, an admitted action, or an access that
leaves the host stuck. -/
theorem step_cases (s : State) :
    (s.pending = [] ∧ step s = .next s) ∨
    ∃ a rest, s.pending = a :: rest ∧
      ((∃ w i, commandWord? a = some w ∧ decode w = .ok i ∧
          step s = exec i (s.withPending rest)) ∨
       (∃ w r, commandWord? a = some w ∧ decode w = .error r ∧
          step s = .next ((s.withPending rest).raise .illegalCommand)) ∨
       (commandWord? a = none ∧ accessFault a = none ∧
          step s = .next ((s.withPending rest).hostEffect a)) ∨
       (∃ f, commandWord? a = none ∧ accessFault a = some f ∧ step s = .fault f)) := by
  unfold step
  cases hp : s.pending with
  | nil => exact .inl ⟨rfl, rfl⟩
  | cons a rest =>
    refine .inr ⟨a, rest, rfl, ?_⟩
    cases hw : commandWord? a with
    | some w =>
      cases hd : decode w with
      | ok i => exact .inl ⟨w, i, rfl, hd, by simp [perform, issueCommand, hw, hd]⟩
      | error r => exact .inr (.inl ⟨w, r, rfl, hd, by simp [perform, issueCommand, hw, hd]⟩)
    | none =>
      cases hf : accessFault a with
      | none => exact .inr (.inr (.inl ⟨rfl, rfl, by simp [perform, hostStep, hw, hf]⟩))
      | some f => exact .inr (.inr (.inr ⟨f, rfl, rfl, by simp [perform, hostStep, hw, hf]⟩))

end Sys2Proof.Machine
end

