-- ==== Sys2Proof/Tests/Slice0.lean ====
section
/-! SUPPORT. Tests of the model: well-formedness, decoding, one step of each command on the vectors of
95_test_vectors.md, and for every statement a state and operands that meet its hypotheses. -/

namespace Sys2Proof.Tests

open Sys2Proof Sys2Proof.Machine

/-! ## Helpers -/

/-- The next state of an outcome. -/
def nextOf (o : Host.Outcome State Fault Refusal) : Option State :=
  match o with
  | .next t => some t
  | _ => none

/-- The fault of an outcome. -/
def faultOf (o : Host.Outcome State Fault Refusal) : Option Fault :=
  match o with
  | .fault f => some f
  | _ => none

/-- The `STATUS` word after an outcome. -/
def statusOf (o : Host.Outcome State Fault Refusal) : Option Word := (nextOf o).map (·.statusWord)

/-- A state with one action to come. -/
def doing (a : HostAction) : State := { State.reset with pending := [a] }

/-- The state after reset, `ARG0` holding `n`, the next draw succeeding. -/
def withArg (n : Nat) : State :=
  { State.reset with arg0 := BitVec.ofNat 32 n, allocDraws := [true] }

/-- A session that has processed `p` frames and holds no carry-over, `ARG0` holding `n`. -/
def session (p n : Nat) : State :=
  { withArg n with
    live := true
    framesProcessed := BitVec.ofNat 32 (1365 * p)
    row := BitVec.ofNat 32 (p / 5)
    coeff := BitVec.ofNat 3 (p % 5)
    noteIndex := BitVec.ofNat 3 (p % 8) }

/-- The cells of a list of elements from index 0 on. -/
def cells {β : Type} (vs : List β) : Memory β := Memory.splice [] 0 vs

/-- A session of `r` rows, each 1.0 in the notes listed and +0.0 elsewhere. -/
def rowsState (r : Nat) (ones : List Nat) : State :=
  { session (5 * r) 0 with
    chroma := cells ((List.replicate r ((List.range 12).map fun n =>
      if n ∈ ones then f64One else f64PlusZero)).flatten) }

/-- The state after reset with the size-4 tables built. -/
def builtState : State := State.reset.buildTables 2

/-! ## Well-formedness: each check refuses an ill-formed access (20_memory.md R64) -/

theorem test_wf_commands :
    ([Instr.nop, .sessionOpen, .sessionClose, .addSamples, .needsSamples, .canCalculate,
      .calculateFingerprint, .fftForward, .window, .compress].all Instr.wellFormed) = true := by
  decide

theorem test_wf_csr_misaligned : (HostAction.read .csr 0x06).wellFormed = false := by decide

theorem test_wf_csr_outside : (HostAction.read .csr 0x1000).wellFormed = false := by decide

theorem test_wf_csr_write_misaligned : (HostAction.writeCsr 0x09 0).wellFormed = false := by decide

theorem test_wf_sin_outside : (HostAction.writeSin 65536 0).wellFormed = false := by decide

theorem test_wf_fb_outside : (HostAction.writeFb 4096 0).wellFormed = false := by decide

theorem test_wf_subfp_outside : (HostAction.writeSubfp 256 0).wellFormed = false := by decide

theorem test_wf_out_read_outside : (HostAction.read .out 8192).wellFormed = false := by decide

theorem test_wf_out_written : (HostAction.writeOut 0 0).wellFormed = false := by decide

theorem test_wf_last_elements :
    ([HostAction.read .csr 0xFFC, .writeSin 65535 0, .writeFb 4095 0, .writeSubfp 255 0,
      .read .out 8191].all HostAction.wellFormed) = true := by
  decide

theorem test_fault_misaligned :
    faultOf (step (doing (.read .csr 0x06))) = some .misalignedCsrOffset := by
  decide

theorem test_fault_outside :
    faultOf (step (doing (.writeFb 4096 0))) = some .indexOutsideSpace := by
  decide

theorem test_fault_out_written : faultOf (step (doing (.writeOut 0 0))) = some .writeToOut := by
  decide

/-- Log entry 10: a write to OUT is named as such, also past the end of the space. -/
theorem test_fault_out_written_outside :
    faultOf (step (doing (.writeOut 8192 0))) = some .writeToOut := by
  decide

/-! ## Decoding: words written from 30_encoding.md R80, R82 and R87 -/

theorem test_decode_commands :
    [0x00000000#32, 0x00000001#32, 0x00000002#32, 0x00000003#32, 0x00000004#32, 0x00000005#32,
      0x00000006#32, 0x00000010#32, 0x00000011#32, 0x00000012#32].map decode =
    [.ok .nop, .ok .sessionOpen, .ok .sessionClose, .ok .addSamples, .ok .needsSamples,
      .ok .canCalculate, .ok .calculateFingerprint, .ok .fftForward, .ok .window,
      .ok .compress] := by
  rfl

/-- V-ERR-1: bits `[31:8]` set. -/
theorem test_decode_reserved_bits :
    [0x00000100#32, 0x80000000#32, 0xFFFFFFFF#32, 0x00000110#32].map decode =
      List.replicate 4 (.error .reservedBits) := by
  rfl

/-- V-ERR-1: the ends of the reserved opcode ranges. -/
theorem test_decode_reserved_opcodes :
    [0x07#8, 0x0F#8, 0x13#8, 0xFF#8].map decodeOpcode =
      [0x07#8, 0x0F#8, 0x13#8, 0xFF#8].map fun op => .error (.reservedOpcode op) := by
  rfl

theorem test_table_word : decodeTableWord 32 0x11 = some .window := by decide

/-- The step after `withFetchWord` runs that command: from reset, COMPRESS reads `ARG0` = 0 and raises
InsufficientLength. -/
theorem test_fetch_word : statusOf (step (State.reset.withFetchWord 32 0x12)) = some 0x02 := by
  decide

/-! ## One step of each command -/

/-- P5: after a failed command NOP makes `STATUS` read 0x10. -/
theorem test_nop : statusOf (exec .nop { session 0 257 with err := .invalidArgument }) =
    some 0x10 := by
  decide

/-- P5: SESSION_OPEN from reset gives 0x10, a second one 0x14. -/
theorem test_session_open :
    (statusOf (exec .sessionOpen State.reset), statusOf (exec .sessionOpen (session 0 0))) =
      (some 0x10, some 0x14) := by
  decide

/-- SESSION_OPEN latches the format (10_state.md R39) and zeroes BITS_INDEX (R34). -/
theorem test_session_open_latches :
    (nextOf (exec .sessionOpen { State.reset with ctrlFmt := .float32, bitsIndex := 7 })).map
      (fun t => (t.sessionFmt, t.bitsIndex)) = some (.float32, 0) := by
  decide

/-- P5: SESSION_CLOSE of a live session gives 0x00, a second one 0x05. -/
theorem test_session_close :
    (statusOf (exec .sessionClose (session 7 0)), statusOf (exec .sessionClose State.reset)) =
      (some 0x00, some 0x05) := by
  decide

/-- 45_controller.md R258: a fresh session answers 1, one of 967 frames 0. -/
theorem test_needs_samples :
    ((nextOf (exec .needsSamples (session 0 0))).map (·.result),
      (nextOf (exec .needsSamples (session 967 0))).map (·.result)) = (some true, some false) := by
  decide

/-- 45_controller.md R259: 56 frames answer 0, 57 frames 1. -/
theorem test_can_calculate :
    ((nextOf (exec .canCalculate (session 56 0))).map (·.result),
      (nextOf (exec .canCalculate (session 57 0))).map (·.result)) = (some false, some true) := by
  decide

/-- V-CTL-1 step 1, whatever the samples. -/
theorem test_add_samples_counters :
    (nextOf (exec .addSamples (session 0 8192))).map
      (fun t => (t.framesProcessed, t.row, t.coeff, t.noteIndex, t.carryLen)) =
    some (5460, 0, 4, 4, 2732) := by
  decide +kernel

/-- P5: ADD_SAMPLES with no session, with 8191 and with 65537 samples. -/
theorem test_add_samples_errors :
    (statusOf (exec .addSamples State.reset), statusOf (exec .addSamples (session 0 8191)),
      statusOf (exec .addSamples (session 0 65537))) = (some 0x05, some 0x12, some 0x16) := by
  decide +kernel

/-- V-CLS-4: silence. -/
theorem test_calculate_silence :
    (nextOf (exec .calculateFingerprint (rowsState 17 []))).map
      (fun t => (t.statusWord, t.fpLen, t.subfpAt 0, t.subfpAt 1)) =
    some (0x40, 2, 0x256DF977, 0x256DF977) := by
  decide +kernel

/-- V-CLS-5: one note everywhere. -/
theorem test_calculate_one_note :
    (nextOf (exec .calculateFingerprint (rowsState 17 [5]))).map
      (fun t => (t.subfpAt 0, t.subfpAt 1)) = some (0x856DF977, 0x856DF977) := by
  decide +kernel

/-- V-FFT-3 and P1: the transform of `[1, 2, 3, 4]`. -/
theorem test_fft_forward :
    (nextOf (exec .fftForward { withArg 4 with
      fb := cells [0x3FF0000000000000, 0x4000000000000000, 0x4008000000000000,
        0x4010000000000000] })).map
      (fun t => ((List.range 4).map t.fbAt, t.tableValid)) =
    some ([0x4024000000000000, 0xC000000000000000, 0xC000000000000000, 0x4000000000000000], 4) := by
  decide +kernel

/-- V-FFT-4b: an impulse at N = 8, which shows every twiddle and the recurrence's rounding. -/
theorem test_fft_forward_impulse :
    (nextOf (exec .fftForward { withArg 8 with
      fb := cells [0, 0x3FF0000000000000, 0, 0, 0, 0, 0, 0] })).map
      (fun t => (List.range 8).map t.fbAt) =
    some [0x3FF0000000000000, 0x3FE6A09E667F3BCD, 0x3CB0000000000000, 0xBFE6A09E667F3BCB,
      0xBFF0000000000000, 0xBFE6A09E667F3BCC, 0xBFF0000000000000, 0xBFE6A09E667F3BCE] := by
  decide +kernel

/-- V-WIN-3: a constant frame of 0.5. -/
theorem test_window :
    (nextOf (exec .window { withArg 4096 with
      sin := cells (List.replicate 4096 0x00004000) })).map
      (fun t => (t.fbAt 0, t.fbAt 1, t.statusWord)) =
    some (0x3FA47AE147AE147C, 0x3FA47AEA5C2B34B4, 0) := by
  decide +kernel

/-- V-WIN-4: a wrong length, and a NaN sample. -/
theorem test_window_errors :
    (statusOf (exec .window (withArg 4095)),
      statusOf (exec .window { withArg 4096 with
        ctrlFmt := .float32
        sin := (cells (List.replicate 4096 (0 : Word))).splice 17 [0x7FC00000] })) =
      (some 0x03, some 0x06) := by
  decide +kernel

/-- V-CMP-5 and P2: COMPRESS of `[5, 6, 6]`. -/
theorem test_compress :
    (nextOf (exec .compress { withArg 3 with subfp := cells [5, 6, 6] })).map
      (fun t => (t.outText, t.fpLen, t.bitsIndex, t.bytesLen, t.outLen)) =
    some ([0x41, 0x51, 0x41, 0x41, 0x41, 0x78, 0x45, 0x53, 0x41, 0x41], 3, 7, 7, 10) := by
  decide +kernel

/-- V-CMP-3: a symbol past 7, held by both passes. -/
theorem test_compress_exception :
    (nextOf (exec .compress { withArg 2 with subfp := cells [0x80000000, 0x80000001] })).map
      (fun t => (List.range t.bytesLen.toNat).map t.rawAt) =
    some [0x01, 0x00, 0x00, 0x02, 0x47, 0x00, 0x19] := by
  decide +kernel

/-! ## Functions inside the commands -/

/-- V-WIN-1, integer samples: 32767, -32768 and the ignored high half; and 0, which is +0.0. -/
theorem test_norm_int16 :
    [0x00007FFF#32, 0x00008000#32, 0x12345678#32, 0x80000000#32].map (norm .int16) =
      [some 0x3FEFFFC000000000, some 0xBFF0000000000000, some 0x3FE59E0000000000, some 0] := by
  decide +kernel

/-- V-WIN-1, binary32 samples: clamping, a subnormal, -0.0 and NaN. -/
theorem test_norm_float32 :
    [0x40000000#32, 0xFF800000#32, 0x00000001#32, 0x80000000#32, 0x7FC00000#32].map
      (norm .float32) =
    [some 0x3FF0000000000000, some 0xBFF0000000000000, some 0x36A0000000000000,
      some 0x8000000000000000, none] := by
  decide +kernel

/-- V-FFT-5b: the transform of four negative zeros keeps the sign of `-0 + -0` in slot 2 alone. -/
theorem test_negative_zeros :
    (fftWith (cosTable 2).toArray (sinTable 2).toArray 2
      (Array.replicate 4 0x8000000000000000)).toList = [0, 0, 0x8000000000000000, 0] := by
  decide +kernel

/-- 40_fft.md R101: building N = 4 allocates AUX_2[0..15]. -/
theorem test_aux_extent :
    ((builtState.auxAt 2 15).isSome, (builtState.auxAt 2 16).isSome,
      (builtState.auxAt 3 0).isSome) = (true, false, false) := by
  decide +kernel

/-- V-FFT-6: the tables of N = 4. -/
theorem test_tables :
    (cosTable 2, sinTable 2) =
      ([0x3FF0000000000000, 0x3C91A62633145C07, 0xBFF0000000000000, 0xBCAA79394C9E8A0A],
        [0, 0x3FF0000000000000, 0x3CA1A62633145C07, 0xBFF0000000000000]) := by
  decide +kernel

/-- V-CHR-1: the first and last bins of the band and boundaries of the table of 42_chroma.md R151. -/
theorem test_notes :
    [8, 9, 20, 21, 25, 518, 519, 1849, 1850, 1857].map noteOf = [7, 9, 11, 0, 3, 7, 8, 5, 6, 6] := by
  decide +kernel

/-- V-CHR-2: the energy of a bin whose parts are 3 and 4 is 25. -/
theorem test_bin_energy :
    binEnergy ((Array.replicate 4096 f64PlusZero).set! 8 0x4008000000000000 |>.set! 2056
      0x4010000000000000) 8 = 0x4039000000000000 := by
  decide +kernel

/-- 42_chroma.md R158: the row a fifth frame emits reads the slot just written, the one before
NOTE_INDEX, and not the one at NOTE_INDEX. Slots 0 to 3 hold +0.0, slot 4 holds 1.0 in note 0, slot 5
holds 1.0 in note 1, so the row is 1.0 in note 0. -/
theorem test_row_reads_newest_slot :
    let zeros := List.replicate 48 f64PlusZero
    let slot4 := f64One :: List.replicate 11 f64PlusZero
    let slot5 := f64PlusZero :: f64One :: List.replicate 10 f64PlusZero
    let s := { session 4 0 with noteIndex := 5, ring := cells (zeros ++ slot4 ++ slot5) }
    let t := s.gateRow
    (t.row, t.coeff, (List.range 12).map t.chromaAt) = (1, 0, slot4) := by
  decide +kernel

/-- V-CLS-3: values at and between the thresholds of classifier 0. -/
theorem test_quantise :
    (classifiers.take 1).map (fun c =>
      [f64MinusOne, c.t0, f64Two, c.t1, c.t2, 0x4008000000000000].map
        fun v => quantise v c.t0 c.t1 c.t2) = [[0, 1, 1, 3, 2, 2]] := by
  decide +kernel

/-- V-CMP-8: whole and partial groups. -/
theorem test_base64 :
    [base64 [], base64 [255], base64 [251, 255], base64 [77, 97, 110]] =
      [[], [0x5F, 0x77], [0x2D, 0x5F, 0x38], [0x54, 0x57, 0x46, 0x75]] := by
  decide +kernel

/-! ## The hypotheses of each statement are met -/

theorem builtState_inv : builtState.Inv := by decide +kernel

theorem witness_StepKeepsInvariant :
    (session 57 0).Inv ∧ step (session 57 0) = .next (session 57 0) ∧
    (doing (.writeCsr 0 1)).Inv ∧
    step (doing (.writeCsr 0 1)) = .next State.reset.openSession.complete := by
  refine ⟨by decide, rfl, by decide, rfl⟩

/-- At both ends of a session: no frame, and the most frames; and with a size built. -/
theorem witness_InvariantBoundsCounters :
    (session 0 0).Inv ∧ (session 967 0).Inv ∧ builtState.Inv ∧
    2 < 32 ∧ builtState.tableValid.getLsbD 2 = true :=
  ⟨by decide, by decide, builtState_inv, by decide, by decide⟩

/-- The ends of the reserved opcode ranges, a reserved bit, and the opcodes next to them. -/
theorem witness_IllegalWordsRaiseIllegalCommand :
    (∀ n ∈ [0x07, 0x0F, 0x13, 0xFF, 0x100],
      let w := BitVec.ofNat 32 n
      let op := (w.extractLsb' 0 8).toNat
      (doing (.writeCsr 0 w)).pending = [.writeCsr 0 w] ∧
      (w.extractLsb' 8 24 ≠ 0 ∨ (0x07 ≤ op ∧ op ≤ 0x0F) ∨ (0x13 ≤ op ∧ op ≤ 0xFF))) ∧
    ∀ n ∈ [0x00, 0x06, 0x10, 0x12],
      let w := BitVec.ofNat 32 n
      let op := (w.extractLsb' 0 8).toNat
      (doing (.writeCsr 0 w)).pending = [.writeCsr 0 w] ∧
      ¬(w.extractLsb' 8 24 ≠ 0 ∨ (0x07 ≤ op ∧ op ≤ 0x0F) ∨ (0x13 ≤ op ∧ op ≤ 0xFF)) := by
  decide

theorem witness_StepRunsDecodedCommand :
    (doing (.writeCsr 0 0x12)).pending = [.writeCsr 0 0x12] ∧ decode 0x12 = .ok .compress ∧
    Instr.compress.wellFormed = true := ⟨rfl, rfl, rfl⟩

theorem witness_IdleKeepsState : (session 57 0).pending = [] := rfl

/-- Both sides of the equivalence: an access that is not admitted, and one that is. -/
theorem witness_StepStopsExactlyOnHostMisuse :
    step (doing (.writeOut 0 0)) = .fault .writeToOut ∧
    step (doing (.writeFb 4095 1)) = .next { State.reset with fb := [(4095, 1)] } := ⟨rfl, rfl⟩

/-- The last element of each space. -/
theorem witness_HostReadHasNoSideEffect :
    ∀ p ∈ [(Space.sin, 65535), (.fb, 4095), (.subfp, 255), (.out, 8191), (.csr, 0xFFC)],
      (doing (.read p.1 p.2)).pending = [.read p.1 p.2] ∧ p.2 < p.1.extent ∧
      (p.1 = .csr → p.2 % 4 = 0) := by
  decide

theorem witness_HostWriteStoresOneElement :
    (doing (.writeSin 65535 1)).pending = [.writeSin 65535 1] ∧
    (doing (.writeFb 4095 1)).pending = [.writeFb 4095 1] ∧
    (doing (.writeSubfp 255 1)).pending = [.writeSubfp 255 1] := by decide

/-- ARG0, CTRL, a read-only register and the last reserved offset. -/
theorem witness_HostCsrWrites :
    ∀ offset ∈ [0x04, 0x08, 0x10, 0xFFC],
      (doing (.writeCsr offset 3)).pending = [.writeCsr offset 3] ∧ offset % 4 = 0 ∧
      0 < offset ∧ offset < 4096 := by
  decide

theorem witness_ReservedOffsetsReadZeroIgnoreWrites :
    ∀ offset ∈ [0x40, 0xFFC], 0x40 ≤ offset ∧ offset ≤ 0xFFC ∧ offset % 4 = 0 ∧
      (doing (.read .csr offset)).pending = [.read .csr offset] ∧
      (doing (.writeCsr offset 3)).pending = [.writeCsr offset 3] := by
  decide

theorem witness_PlatformResetClearsTheBlock : (doing .reset).pending = [.reset] := rfl

theorem witness_CommandReportsFirstError :
    (doing (.writeCsr 0 0x13)).pending = [.writeCsr 0 0x13] ∧
    decode 0x13 = .error (.reservedOpcode 0x13) := ⟨rfl, rfl⟩

/-- A command that fails. -/
theorem witness_FailedCommandLeavesNoTrace :
    exec .compress State.reset = .next { State.reset with err := .insufficientLength } := rfl

/-- Each branch: both queries succeeding, and another command. -/
theorem witness_ResultHoldsLastSuccessfulAnswer :
    statusOf (exec .needsSamples (session 0 0)) = some 0x10 ∧
    statusOf (exec .canCalculate (session 57 0)) = some 0x30 ∧
    statusOf (exec .nop (session 0 0)) = some 0x10 := by decide

/-- Each branch: both commands succeeding, with invariant states, and another command. -/
theorem witness_LengthRegistersHoldLastFingerprint :
    ((withArg 256).Inv ∧ (nextOf (exec .compress (withArg 256))).map (·.err) = some .ok) ∧
    ((rowsState 17 []).Inv ∧
      (nextOf (exec .calculateFingerprint (rowsState 17 []))).map (·.err) = some .ok) ∧
    (session 0 0).Inv := by
  refine ⟨⟨by decide +kernel, by decide +kernel⟩, ⟨by decide +kernel, by decide +kernel⟩, by decide⟩

/-- Commands outside each of the lists of the statement. -/
theorem witness_OnlyTheNamedCommandsWrite :
    Instr.nop ∉ [Instr.fftForward, .window, .addSamples] ∧ Instr.nop ≠ .calculateFingerprint ∧
    Instr.nop ∉ [Instr.compress, .calculateFingerprint] ∧
    Instr.nop ∉ [Instr.sessionOpen, .sessionClose, .addSamples] := by decide

theorem witness_SessionOpenTakesTheSlot :
    State.reset.live = false ∧ (session 57 0).live = true := ⟨rfl, rfl⟩

theorem witness_SessionCloseReleasesTheSlot :
    (session 57 0).live = true ∧ State.reset.live = false := ⟨rfl, rfl⟩

theorem witness_NeedsSamplesAnswers :
    (session 966 0).live = true ∧ (session 967 0).live = true ∧ State.reset.live = false :=
  ⟨rfl, rfl, rfl⟩

theorem witness_CanCalculateAnswers :
    (session 56 0).live = true ∧ (session 57 0).live = true ∧ State.reset.live = false :=
  ⟨rfl, rfl, rfl⟩

/-- A state for each command that moves the session, and one that is not moved. -/
theorem witness_SessionStateMovesAlongTheTable :
    State.reset.Inv ∧ (session 0 8192).Inv ∧ (session 56 8192).Inv ∧ (session 85 0).Inv ∧
    (session 967 8192).Inv ∧
    statusOf (exec .sessionOpen State.reset) = some 0x10 ∧
    statusOf (exec .addSamples (session 0 8192)) = some 0x20 ∧
    statusOf (exec .addSamples (session 56 8192)) = some 0x30 ∧
    statusOf (exec .addSamples (session 967 8192)) = some 0x30 ∧
    statusOf (exec .calculateFingerprint (session 85 0)) = some 0x40 ∧
    statusOf (exec .sessionClose (session 85 0)) = some 0x00 := by
  refine ⟨by decide, by decide, by decide, by decide, by decide, by decide, by decide +kernel,
    by decide +kernel, by decide +kernel, by decide +kernel, by decide⟩

/-- The smallest and the largest size. -/
theorem witness_FftForwardTransformsFrameBuffer :
    ((withArg 4).Inv ∧ 2 ≤ 2 ∧ (withArg 4).arg0.toNat = 2 ^ 2 ∧
      (withArg 4).tablesAvailable 2 = true) ∧
    (withArg 4096).Inv ∧ 12 ≤ 12 ∧ (withArg 4096).arg0.toNat = 2 ^ 12 ∧
      (withArg 4096).tablesAvailable 12 = true :=
  ⟨⟨by decide, by decide, rfl, rfl⟩, by decide, by decide, rfl, rfl⟩

theorem witness_FailedDrawBuildsNothing :
    ∀ k ∈ [2, 12], 2 ≤ k ∧ k ≤ 12 ∧
      let s := { withArg (2 ^ k) with allocDraws := [false] }
      s.arg0.toNat = 2 ^ k ∧ s.tableValid.getLsbD k = false ∧ s.nextDraw = false := by
  decide

/-- Tables to be built, and tables built before. -/
theorem witness_TransformDependsOnlyOnInput :
    let s := withArg 4
    let s' := { builtState with arg0 := 4 }
    s.Inv ∧ s'.Inv ∧ s.arg0.toNat = 2 ^ 2 ∧ s'.arg0.toNat = 2 ^ 2 ∧ s.tablesAvailable 2 = true ∧
    s'.tablesAvailable 2 = true ∧ ∀ i < 2 ^ 2, s.fbAt i = s'.fbAt i :=
  ⟨by decide, builtState_inv, rfl, rfl, rfl, rfl, fun _ _ => rfl⟩

/-- The highest position and bit of the largest size, and arrays of the least and the largest size. -/
theorem witness_ReorderPutsPackedValueAtReversedPosition :
    (2047 < 2 ^ 11 ∧ 10 < 11) ∧
    (∀ k ∈ [2, 12], 2 ≤ k ∧ k ≤ 12 ∧ (Array.replicate (2 ^ k) f64One).size = 2 ^ k ∧
      2 ^ (k - 1) - 1 < 2 ^ (k - 1)) ∧
    (Array.replicate 4 f64One).size = 4 := by
  simp

theorem witness_BuiltTablesNeverChange :
    builtState.Inv ∧ builtState.caches.read? 2 = some ⟨cosTable 2, sinTable 2, 16, 0⟩ ∧
    step builtState = .next builtState ∧ builtState.pending.head? ≠ some .reset :=
  ⟨builtState_inv, rfl, rfl, nofun⟩

/-- Both formats; the samples of the second are all 1.0. -/
theorem witness_WindowWritesWindowedFrame :
    (withArg 4096).arg0.toNat = 4096 ∧
    noNaN (withArg 4096).ctrlFmt ((List.range 4096).map (withArg 4096).sinAt) = true ∧
    noNaN .float32 (List.replicate 4096 0x3F800000) = true := by
  refine ⟨rfl, by simp [noNaN, withArg, State.reset], by decide +kernel⟩

/-- A NaN, an infinity, and the patterns on either side of them. -/
theorem witness_NormalisedSampleValues :
    (0x7F800001#32).toNat / 2 ^ 23 % 2 ^ 8 = 255 ∧ (0x7F800001#32).toNat % 2 ^ 23 ≠ 0 ∧
    (0xFF800000#32).toNat / 2 ^ 23 % 2 ^ 8 = 255 ∧ (0xFF800000#32).toNat % 2 ^ 23 = 0 ∧
    (0x7F7FFFFF#32).toNat / 2 ^ 23 % 2 ^ 8 ≠ 255 ∧ (0#32).toNat / 2 ^ 23 % 2 ^ 8 ≠ 255 := by
  decide

theorem witness_NoteIsFlooredTwelfthOfOctave : 8 ≤ 8 ∧ 8 ≤ 1857 ∧ 1857 ≤ 1857 := by decide

/-- Both sides of the gate, at its boundary, and the last row. -/
theorem witness_FifthFrameEmitsOneRow :
    (session 963 0).coeff.toNat = 3 ∧ (session 964 0).coeff.toNat = 4 ∧
    (session 964 0).row.toNat = 192 := by decide

/-- A session whose size-4096 tables are built: the tables are those of the invariant as they stand. -/
theorem builtSession_inv (p : Nat) (h : (session p 0).arraysWf ∧ (session p 0).sessionWf ∧
    (session p 0).lengthsWf) : ((session p 0).buildTables 12).Inv := by
  refine ⟨h.1, ⟨?_, ?_, ?_⟩, h.2.1, h.2.2⟩
  · simp only [State.buildTables_caches, session, withArg, State.reset, Memory.splice,
      List.filter_nil, List.zipIdx_cons, List.zipIdx_nil, List.map_cons, List.map_nil,
      List.nil_append, List.append_nil]
    exact ⟨List.pairwise_singleton _ _, by simp⟩
  · simp [State.buildTables_caches, session, withArg, State.reset, Memory.splice, auxElements]
  · simp only [State.buildTables_caches, State.buildTables_tableValid, session, withArg, State.reset]
    decide

/-- The first and the last frame of a session, the tables built, and any frame of samples. -/
theorem witness_ProcessedFrameAdvancesCounters :
    let s := (session 0 0).buildTables 12
    let t := (session 966 0).buildTables 12
    (s.Inv ∧ s.live = true ∧ s.needsSamples = true ∧ s.tableValid.getLsbD 12 = true) ∧
    t.Inv ∧ t.live = true ∧ t.needsSamples = true ∧ t.tableValid.getLsbD 12 = true :=
  ⟨⟨builtSession_inv 0 (by decide), rfl, by decide, by decide⟩,
    builtSession_inv 966 (by decide), rfl, by decide, by decide⟩

/-- The shortest and the longest chunk, at the first frame and at the last. -/
theorem witness_AddSamplesProcessesFrames :
    ((session 0 8192).Inv ∧ (session 0 65536).Inv ∧ (session 966 8192).Inv ∧
      (session 966 65536).Inv) ∧
    ∀ p ∈ [0, 966], ∀ n ∈ [8192, 65536], (session p n).live = true ∧
      (session p n).finalized = false ∧ 8192 ≤ (session p n).arg0.toNat ∧
      (session p n).arg0.toNat ≤ 65536 ∧ (session p n).framesProcessed.toNat + 4095 < 1323000 ∧
      noNaN (session p n).sessionFmt
        ((List.range (session p n).arg0.toNat).map (session p n).sinAt) = true ∧
      (session p n).tablesAvailable 12 = true := by
  refine ⟨⟨by decide, by decide, by decide, by decide⟩, fun p hp n hn => ⟨rfl, rfl, ?_, ?_, ?_,
    by simp [noNaN, session, withArg, State.reset], by
      simp [State.tablesAvailable, State.nextDraw, session, withArg]⟩⟩ <;>
    revert p n <;> decide

theorem witness_AddSamplesAfterBudgetIsNoOp :
    ∀ n ∈ [8192, 65536], (session 967 n).live = true ∧ (session 967 n).finalized = false ∧
      8192 ≤ (session 967 n).arg0.toNat ∧ (session 967 n).arg0.toNat ≤ 65536 ∧
      1323000 ≤ (session 967 n).framesProcessed.toNat + 4095 := by
  decide

theorem noNaN_int16 (ws : List Word) : noNaN .int16 ws = true := by simp [noNaN]

/-- One chunk, and the same words as two chunks. -/
theorem oneChunk_eq_twoChunks (n : Nat) (w : Word) :
    [List.replicate (n + n) w].flatten = [List.replicate n w, List.replicate n w].flatten := by
  simp

/-- One chunk of 16384 words, and the same words as two chunks of the least length. -/
theorem witness_StreamingEquivalence :
    let a := [List.replicate (8192 + 8192) (0 : Word)]
    let b := [List.replicate 8192 (0 : Word), List.replicate 8192 (0 : Word)]
    (session 0 0).live = true ∧ (session 0 0).finalized = false ∧
    (session 0 0).tablesAvailable 12 = true ∧
    (∀ ws ∈ a ++ b, 8192 ≤ ws.length ∧ ws.length ≤ 65536) ∧
    noNaN (session 0 0).sessionFmt a.flatten = true ∧ a.flatten = b.flatten := by
  refine ⟨rfl, rfl, rfl, fun ws h => ?_, noNaN_int16 _, oneChunk_eq_twoChunks 8192 0⟩
  simp only [List.cons_append, List.nil_append, List.mem_cons, List.not_mem_nil, or_false] at h
  rcases h with rfl | rfl | rfl <;> rw [List.length_replicate] <;> decide

theorem witness_IntegralImageRecurrence : 0 < (session 85 0).row.toNat ∧ 11 < 12 := by decide

/-- A value at each threshold of classifier 2, below them and above. -/
theorem witness_QuantiserGivesGrayCodeOfBand :
    let t0 := f64OfDecimal true 298702 6
    let t1 := f64OfDecimal false 119262 6
    let t2 := f64OfDecimal false 558497 6
    fle t0 t1 = true ∧ fle t1 t2 = true ∧
      [f64MinusOne, t0, t1, t2, f64One].map f64IsNaN = List.replicate 5 false := by
  decide +kernel

/-- The first and the last classifier, and each case of an area at its edge. -/
theorem witness_SubFingerprintBits :
    (0 < 16 ∧ 15 < 16) ∧ ((0 : Int) < 1 ∨ (11 : Int) < 0) ∧ (0 < 1 ∧ 1 ≤ 1) ∧ 16 ≤ 16 := by decide

theorem witness_CalculateFingerprintCompletes :
    ∀ p ∈ [85, 967], (session p 0).live = true ∧ (session p 0).finalized = false ∧
      17 ≤ (session p 0).row.toNat ∧ (session p 0).row.toNat ≤ 193 := by
  decide

theorem witness_SilenceFingerprint :
    (rowsState 17 []).live = true ∧ (rowsState 17 []).finalized = false ∧
    17 ≤ (rowsState 17 []).row.toNat ∧ (rowsState 17 []).row.toNat ≤ 193 ∧
    (∀ i < 12 * (rowsState 17 []).row.toNat, (rowsState 17 []).chromaAt i = f64PlusZero) ∧
    1 + 16 ≤ 17 := by
  refine ⟨rfl, rfl, by decide, by decide, by decide +kernel, by decide⟩

theorem witness_DeltasXorNeighbours : 0 < [5#32, 6#32].length ∧ 0 + 1 < [5#32, 6#32].length := by
  decide

theorem witness_CompressorCapacity : (List.replicate 256 (0xFFFFFFFF : Word)).length ≤ 256 := by
  rw [List.length_replicate]

theorem witness_CompressionRoundTrip :
    ∀ n ∈ [2, 256], 2 ≤ (List.replicate n (1 : Word)).length ∧
      (List.replicate n (1 : Word)).length ≤ 256 := by
  simp

theorem witness_CompressWritesFingerprintString :
    ∀ n ∈ [2, 256], 2 ≤ (withArg n).arg0.toNat ∧ (withArg n).arg0.toNat ≤ 256 := by
  decide

/-- One third, a subnormal tie, the largest finite value, and the least value that overflows; the
integers of magnitude 2^53. -/
theorem witness_RoundingIsNearestEven :
    (|(2 ^ 53 : Int)| ≤ 2 ^ 53 ∧ |(-2 ^ 53 : Int)| ≤ 2 ^ 53) ∧
    (0 < 3 ∧ ((1 : Nat) : ℚ) / (3 : Nat) * 2 ^ (0 : Int) < overflowBound) ∧
    ((1 : Nat) : ℚ) / (1 : Nat) * 2 ^ (-1075 : Int) < overflowBound ∧
    ((2 ^ 53 - 1 : Nat) : ℚ) / (1 : Nat) * 2 ^ (971 : Int) < overflowBound ∧
    overflowBound ≤ ((2 ^ 54 - 1 : Nat) : ℚ) / (1 : Nat) * 2 ^ (970 : Int) := by
  decide +kernel

/-- Each clause: finite operands whose sum and product overflow, exact zero results of a sum and a
difference, a zero divisor of 1.0 and of a zero, and NaN and infinite operands with finite, zero and
infinite ones of both signs. -/
theorem witness_ArithmeticRoundsExactResult :
    let top : F64 := 0x7FEFFFFFFFFFFFFF
    let nan : F64 := 0x7FF8000000000000
    let negZero : F64 := 0x8000000000000000
    (f64IsFinite f64One = true ∧ f64IsFinite top = true ∧ f64Value f64One ≠ 0 ∧
      |f64Value f64One + f64Value f64One| < overflowBound ∧
      overflowBound ≤ |f64Value top + f64Value top| ∧
      overflowBound ≤ |f64Value top * f64Value top|) ∧
    (f64IsFinite f64MinusOne = true ∧ f64Value f64One + f64Value f64MinusOne = 0 ∧
      f64Value f64One - f64Value f64One = 0) ∧
    (f64IsFinite f64PlusZero = true ∧ f64IsFinite negZero = true ∧ f64Value f64PlusZero = 0 ∧
      f64Value negZero = 0) ∧
    f64IsNaN nan = true ∧
    (f64IsInf (f64Inf false) = true ∧ f64IsInf (f64Inf true) = true) := by
  decide +kernel

/-- Each clause: finite values, zeros of both signs, infinities of both signs, a NaN, and -1.0. -/
theorem witness_SquareRootRoundsExactResult :
    (f64IsFinite f64Two = true ∧ f64Negative f64Two = false) ∧
    (f64IsZero f64PlusZero = true ∧ f64IsZero 0x8000000000000000 = true) ∧
    (f64IsInf (f64Inf false) = true ∧ f64Negative (f64Inf false) = false) ∧
    f64IsNaN 0x7FF8000000000000 = true ∧
    (f64IsNaN f64MinusOne = false ∧ f64IsZero f64MinusOne = false ∧
      f64Negative f64MinusOne = true) ∧
    (f64IsNaN (f64Inf true) = false ∧ f64Negative (f64Inf true) = true) := by decide

/-- Finite values, a NaN, and the infinities and a finite value, which are no NaNs. -/
theorem witness_ComparisonsFollowValues :
    f64IsFinite f64One = true ∧ f64IsFinite 0x8000000000000000 = true ∧
    f64IsNaN 0x7FF8000000000000 = true ∧ f64IsNaN (f64Inf true) = false ∧
    f64IsNaN (f64Inf false) = false ∧ f64IsNaN f64One = false := by decide

/-- The angle of the second table entry of N = 8 with both precisions, and the zeros. -/
theorem witness_SettledCosineSineCorrectlyRounded :
    trigComputed (tableAngle 3 1) = true ∧
    (cosEnclosure 256 64 (tableAngle 3 1)).isSome = true ∧
    (sinEnclosure 256 64 (tableAngle 3 1)).isSome = true ∧
    (cosEnclosure 512 112 (tableAngle 3 1)).isSome = true ∧
    (sinEnclosure 512 112 (tableAngle 3 1)).isSome = true ∧
    f64IsZero f64PlusZero = true ∧ f64IsZero 0x8000000000000000 = true := by
  decide +kernel

theorem witness_SettledLogarithmCorrectlyRounded :
    f64IsFinite f64Two = true ∧ f64IsZero f64Two = false ∧ f64Negative f64Two = false ∧
    (logEnclosure 256 128 f64Two).isSome = true ∧ (logEnclosure 512 256 f64Two).isSome = true := by
  decide +kernel

end Sys2Proof.Tests
end

section
/-! O18: a command completes, or raises its error on the state it was given. -/

namespace Sys2Proof.Machine

/-- How a command can end. It completes, and `ERR` is 0; or it raises an error on the state it was
given, in which at most the model's own record of a failed draw has advanced (log entry 3). -/
inductive CommandEnds (s : State) : Host.Outcome State Fault Refusal → Prop
  | completes (t : State) : CommandEnds s (.next t.complete)
  | raises (e : ErrCode) : CommandEnds s (.next (s.raise e))
  | drawFails (e : ErrCode) : CommandEnds s (.next (s.drawn.raise e))

theorem execAddSamples_ends (s : State) : CommandEnds s (execAddSamples s) := by
  unfold execAddSamples
  split
  · exact .raises _
  split
  · exact .raises _
  split
  · exact .raises _
  split
  · exact .completes _
  cases normAll s.sessionFmt (s.sinSlice s.arg) with
  | none => exact .raises _
  | some x =>
    obtain ⟨-, he⟩ | ⟨-, -, he⟩ | ⟨-, -, he⟩ := s.ensureTables_cases 12 <;> rw [he]
    · exact .completes _
    · exact .completes _
    · exact .drawFails _

theorem execFftForward_ends (s : State) : CommandEnds s (execFftForward s) := by
  unfold execFftForward
  cases transformLog? s.arg with
  | none => exact .raises _
  | some k =>
    obtain ⟨-, he⟩ | ⟨-, -, he⟩ | ⟨-, -, he⟩ := s.ensureTables_cases k <;> simp only [he]
    · exact .completes _
    · exact .completes _
    · exact .drawFails _

theorem execCalculateFingerprint_ends (s : State) :
    CommandEnds s (execCalculateFingerprint s) := by
  unfold execCalculateFingerprint
  split
  · exact .raises _
  split
  · exact .raises _
  · exact .completes _

theorem execWindow_ends (s : State) : CommandEnds s (execWindow s) := by
  unfold execWindow
  split
  · exact .raises _
  cases normAll s.ctrlFmt (s.sinSlice frameSize) with
  | none => exact .raises _
  | some x => exact .completes _

theorem execCompress_ends (s : State) : CommandEnds s (execCompress s) := by
  unfold execCompress
  split
  · exact .raises _
  split
  · exact .raises _
  · exact .completes _

/-- A command that only asks whether a session is live completes or raises. -/
theorem ends_of_live_check (s t : State) (b : Bool) (e : ErrCode) :
    CommandEnds s (if b then .next t.complete else .next (s.raise e)) := by
  cases b
  · exact .raises e
  · exact .completes t

theorem exec_ends (i : Instr) (s : State) : CommandEnds s (exec i s) := by
  cases i with
  | nop => exact .completes s
  | sessionOpen =>
    show CommandEnds s (execSessionOpen s)
    unfold execSessionOpen
    split
    · exact .raises _
    · exact .completes _
  | sessionClose => exact ends_of_live_check s _ s.live _
  | addSamples => exact execAddSamples_ends s
  | needsSamples => exact ends_of_live_check s _ s.live _
  | canCalculate => exact ends_of_live_check s _ s.live _
  | calculateFingerprint => exact execCalculateFingerprint_ends s
  | fftForward => exact execFftForward_ends s
  | window => exact execWindow_ends s
  | compress => exact execCompress_ends s

/-- Settles O18: of the three ways a command ends, the first has `ERR` 0 and the other two are the
old state with `ERR` and the record of draws replaced. -/
theorem failedCommandLeavesNoTrace : Obligations.FailedCommandLeavesNoTrace := by
  intro i s
  have ends := exec_ends i s
  generalize exec i s = outcome at ends ⊢
  cases ends with
  | completes t => exact ⟨_, rfl, fun h => absurd rfl h⟩
  | raises e => exact ⟨_, rfl, fun _ => rfl⟩
  | drawFails e => exact ⟨_, rfl, fun _ => rfl⟩

end Sys2Proof.Machine
end

section
/-! Binary64 patterns by their magnitude: the 63 bits below the sign. -/

namespace Sys2Proof.Machine

/-! ## Magnitude and sign -/

/-- The bits of a pattern below its sign bit, as a number. -/
def f64Magnitude (a : F64) : Nat := a.toNat % 2 ^ 63

/-- The pattern of a magnitude and a sign. -/
def f64OfMagnitude (negative : Bool) (n : Nat) : F64 :=
  BitVec.ofNat 64 (n + if negative then 2 ^ 63 else 0)

theorem packMagnitude_eq (negative : Bool) (m : Nat) (q : Int) :
    packMagnitude negative m q =
      f64OfMagnitude negative (min ((q + 1074).toNat * 2 ^ 52 + m) (2047 * 2 ^ 52)) := rfl

theorem f64Inf_eq (negative : Bool) : f64Inf negative = f64OfMagnitude negative (2047 * 2 ^ 52) :=
  rfl

theorem f64Zero_eq (negative : Bool) : f64Zero negative = f64OfMagnitude negative 0 := rfl

theorem f64Negative_iff (a : F64) : f64Negative a = true ↔ 2 ^ 63 ≤ a.toNat := by
  simp [f64Negative, BitVec.msb_eq_decide]

theorem f64Magnitude_lt (a : F64) : f64Magnitude a < 2 ^ 63 := Nat.mod_lt _ (by decide)

theorem f64OfMagnitude_toNat (negative : Bool) {n : Nat} (h : n < 2 ^ 63) :
    (f64OfMagnitude negative n).toNat = n + if negative then 2 ^ 63 else 0 := by
  cases negative <;> (simp [f64OfMagnitude]; omega)

theorem f64Magnitude_ofMagnitude (negative : Bool) {n : Nat} (h : n < 2 ^ 63) :
    f64Magnitude (f64OfMagnitude negative n) = n := by
  rw [f64Magnitude, f64OfMagnitude_toNat negative h]
  cases negative <;> simp <;> omega

theorem f64Negative_ofMagnitude (negative : Bool) {n : Nat} (h : n < 2 ^ 63) :
    f64Negative (f64OfMagnitude negative n) = negative := by
  rw [Bool.eq_iff_iff, f64Negative_iff, f64OfMagnitude_toNat negative h]
  cases negative with
  | false => simpa using h
  | true => simp

/-- A pattern is given by its sign and magnitude. -/
theorem f64OfMagnitude_self (a : F64) : f64OfMagnitude (f64Negative a) (f64Magnitude a) = a := by
  apply BitVec.eq_of_toNat_eq
  rw [f64OfMagnitude_toNat _ (f64Magnitude_lt a), f64Magnitude]
  have hlt := a.isLt
  cases h : f64Negative a
  · have := mt (f64Negative_iff a).2 (by simp [h]); simp; omega
  · have := (f64Negative_iff a).1 h; simp; omega

theorem f64_ext {a b : F64} (hs : f64Negative a = f64Negative b)
    (hm : f64Magnitude a = f64Magnitude b) : a = b := by
  rw [← f64OfMagnitude_self a, hs, hm, f64OfMagnitude_self]

/-! ## The classes of patterns -/

theorem f64Exponent_eq (a : F64) : f64Exponent a = f64Magnitude a / 2 ^ 52 := by
  unfold f64Exponent f64Magnitude; omega

theorem f64Fraction_eq (a : F64) : f64Fraction a = f64Magnitude a % 2 ^ 52 := by
  unfold f64Fraction f64Magnitude; omega

theorem f64IsFinite_iff (a : F64) : f64IsFinite a = true ↔ f64Magnitude a < 2047 * 2 ^ 52 := by
  have := f64Magnitude_lt a
  simp only [f64IsFinite, f64Exponent_eq, bne_iff_ne]; omega

theorem f64IsInf_iff (a : F64) : f64IsInf a = true ↔ f64Magnitude a = 2047 * 2 ^ 52 := by
  simp only [f64IsInf, f64Exponent_eq, f64Fraction_eq, Bool.and_eq_true, beq_iff_eq]; omega

theorem f64IsNaN_iff (a : F64) : f64IsNaN a = true ↔ 2047 * 2 ^ 52 < f64Magnitude a := by
  have := f64Magnitude_lt a
  simp only [f64IsNaN, f64Exponent_eq, f64Fraction_eq, Bool.and_eq_true, beq_iff_eq, bne_iff_ne]
  omega

theorem f64IsZero_iff (a : F64) : f64IsZero a = true ↔ f64Magnitude a = 0 := by
  simp only [f64IsZero, f64Exponent_eq, f64Fraction_eq, Bool.and_eq_true, beq_iff_eq]; omega

/-- A finite pattern is neither an infinity nor a NaN. -/
theorem f64IsFinite_excludes {a : F64} (h : f64IsFinite a = true) :
    f64IsNaN a = false ∧ f64IsInf a = false := by
  rw [f64IsFinite_iff] at h
  simp only [← Bool.not_eq_true, f64IsNaN_iff, f64IsInf_iff]; omega

/-- An infinity is neither a NaN nor a zero, and is the infinity of its sign. -/
theorem f64IsInf_excludes {a : F64} (h : f64IsInf a = true) :
    f64IsNaN a = false ∧ f64IsZero a = false ∧ f64Inf (f64Negative a) = a := by
  rw [f64IsInf_iff] at h
  refine ⟨?_, ?_, by rw [f64Inf_eq, ← h, f64OfMagnitude_self]⟩
  · simp only [← Bool.not_eq_true, f64IsNaN_iff]; omega
  · simp only [← Bool.not_eq_true, f64IsZero_iff]; omega

theorem f64IsNaN_f64NaN (op : FpOp) (a b : F64) : f64IsNaN (f64NaN op a b) = true := by
  have key : ∀ (x : BitVec 1) (y : BitVec 51),
      (x ++ 0xFFF#12 ++ y : BitVec 64).toNat = (x.toNat * 2 ^ 12 + 0xFFF) * 2 ^ 51 + y.toNat := by
    intro x y
    rw [BitVec.toNat_append, ← Nat.shiftLeft_add_eq_or_of_lt y.isLt, BitVec.toNat_append,
      ← Nat.shiftLeft_add_eq_or_of_lt (BitVec.isLt _), Nat.shiftLeft_eq, Nat.shiftLeft_eq]
    rfl
  rw [f64IsNaN_iff, f64Magnitude, f64NaN, key]
  have hx := (BitVec.extractLsb' 51 1 (Config.nanBits op a b)).isLt
  have hy := (BitVec.extractLsb' 0 51 (Config.nanBits op a b)).isLt
  generalize (BitVec.extractLsb' 51 1 (Config.nanBits op a b)).toNat = x at *
  generalize (BitVec.extractLsb' 0 51 (Config.nanBits op a b)).toNat = y at *
  omega

/-! ## The value of a magnitude -/

/-- `m` at the scale `2 ^ q` is in the form of a binary64 significand: the scale is the least one,
or `m` has all 53 bits. (`m = 2 ^ 53` is `2 ^ 52` at the next scale.) -/
structure IsSignificand (m : Nat) (q : Int) : Prop where
  scale_ge : -1074 ≤ q
  le : m ≤ 2 ^ 53
  normal : q = -1074 ∨ 2 ^ 52 ≤ m

/-- The integer significand of a magnitude. -/
def magnitudeSignificand (n : Nat) : Nat := if n < 2 ^ 52 then n else n % 2 ^ 52 + 2 ^ 52

/-- The scale of a magnitude. -/
def magnitudeScale (n : Nat) : Int := (max (n / 2 ^ 52) 1 : Nat) - 1075

/-- The value a magnitude stands for. -/
def magnitudeValue (n : Nat) : ℚ := magnitudeSignificand n * 2 ^ magnitudeScale n

theorem f64Significand_eq (a : F64) : f64Significand a = magnitudeSignificand (f64Magnitude a) := by
  simp only [f64Significand, magnitudeSignificand, f64Exponent_eq, f64Fraction_eq]
  split <;> split <;> omega

theorem f64Scale_eq (a : F64) : f64Scale a = magnitudeScale (f64Magnitude a) := by
  rw [f64Scale, magnitudeScale, f64Exponent_eq]

theorem f64Value_eq (a : F64) :
    f64Value a = (if f64Negative a then -1 else 1) * magnitudeValue (f64Magnitude a) := by
  rw [f64Value, f64Significand_eq, f64Scale_eq, magnitudeValue, mul_assoc]

theorem magnitudeSignificand_lt (n : Nat) : magnitudeSignificand n < 2 ^ 53 := by
  unfold magnitudeSignificand; split <;> omega

theorem magnitude_isSignificand (n : Nat) :
    IsSignificand (magnitudeSignificand n) (magnitudeScale n) := by
  refine ⟨?_, (magnitudeSignificand_lt n).le, ?_⟩
  · unfold magnitudeScale; omega
  · unfold magnitudeScale magnitudeSignificand; split <;> omega

/-- A magnitude is its significand added to its scale field. -/
theorem magnitude_eq (n : Nat) :
    n = (magnitudeScale n + 1074).toNat * 2 ^ 52 + magnitudeSignificand n := by
  unfold magnitudeScale magnitudeSignificand; split <;> omega

/-- The magnitude of a significand at a scale stands for their product. -/
theorem magnitudeValue_of_significand {m : Nat} {q : Int} (h : IsSignificand m q) :
    magnitudeValue ((q + 1074).toNat * 2 ^ 52 + m) = m * 2 ^ q := by
  obtain ⟨hq, hm, hn⟩ := h
  generalize hN : (q + 1074).toNat * 2 ^ 52 + m = N
  rcases hm.lt_or_eq with hlt | rfl
  · have h1 : magnitudeSignificand N = m := by unfold magnitudeSignificand; split <;> omega
    have h2 : magnitudeScale N = q := by unfold magnitudeScale; omega
    rw [magnitudeValue, h1, h2]
  · have h1 : magnitudeSignificand N = 2 ^ 52 := by unfold magnitudeSignificand; split <;> omega
    have h2 : magnitudeScale N = q + 1 := by unfold magnitudeScale; omega
    rw [magnitudeValue, h1, h2, zpow_add_one₀ two_ne_zero]
    push_cast; ring

theorem magnitudeValue_strictMono : StrictMono magnitudeValue := by
  refine strictMono_nat_of_lt_succ fun n => ?_
  have hs := magnitude_isSignificand n
  have hs' : IsSignificand (magnitudeSignificand n + 1) (magnitudeScale n) :=
    ⟨hs.scale_ge, magnitudeSignificand_lt n, hs.normal.imp_right (by omega)⟩
  have hn := magnitude_eq n
  calc magnitudeValue n = magnitudeSignificand n * 2 ^ magnitudeScale n := rfl
    _ < (magnitudeSignificand n + 1 : Nat) * 2 ^ magnitudeScale n := by gcongr; simp
    _ = magnitudeValue ((magnitudeScale n + 1074).toNat * 2 ^ 52 + (magnitudeSignificand n + 1)) :=
      (magnitudeValue_of_significand hs').symm
    _ = magnitudeValue (n + 1) := by rw [← add_assoc, ← hn]

@[simp] theorem magnitudeValue_zero : magnitudeValue 0 = 0 := by
  simp [magnitudeValue, magnitudeSignificand]

theorem magnitudeValue_nonneg (n : Nat) : 0 ≤ magnitudeValue n := by
  unfold magnitudeValue; positivity

theorem magnitudeValue_eq_zero {n : Nat} : magnitudeValue n = 0 ↔ n = 0 := by
  rw [← magnitudeValue_zero, magnitudeValue_strictMono.injective.eq_iff]

theorem f64Value_eq_zero (a : F64) : f64Value a = 0 ↔ f64IsZero a = true := by
  rw [f64IsZero_iff, f64Value_eq, ← magnitudeValue_eq_zero]
  cases f64Negative a <;> simp

theorem f64Value_of_not_negative {a : F64} (h : f64Negative a = false) :
    f64Value a = magnitudeValue (f64Magnitude a) := by simp [f64Value_eq, h]

theorem abs_f64Value (a : F64) : |f64Value a| = magnitudeValue (f64Magnitude a) := by
  rw [f64Value_eq, abs_mul, abs_of_nonneg (magnitudeValue_nonneg _)]
  cases f64Negative a <;> simp

end Sys2Proof.Machine
end

section
/-! Rounding to nearest, ties to even. -/

namespace Sys2Proof.Machine

/-! ## The two integer functions of `roundRatio` -/

/-- The real sign of a sign bit. -/
def signOf (negative : Bool) : ℝ := if negative then -1 else 1

theorem signOf_mul_self (negative : Bool) : signOf negative * signOf negative = 1 := by
  cases negative <;> simp [signOf]

theorem abs_signOf (negative : Bool) : |signOf negative| = 1 := by
  cases negative <;> simp [signOf]

theorem f64Value_real (c : F64) :
    (f64Value c : ℝ) = signOf (f64Negative c) * magnitudeValue (f64Magnitude c) := by
  rw [f64Value_eq, signOf]
  cases f64Negative c <;> simp

/-- `roundHalfEven` is within half a unit, and even where it is off by half a unit. -/
theorem roundHalfEven_spec (n : Nat) {d : Nat} (hd : 0 < d) :
    |(roundHalfEven n d : ℝ) - n / d| ≤ 1 / 2 ∧
    (|(roundHalfEven n d : ℝ) - n / d| = 1 / 2 → roundHalfEven n d % 2 = 0) := by
  have hd' : (0 : ℝ) < d := by exact_mod_cast hd
  have hr : n % d < d := Nat.mod_lt n hd
  have hn : (n : ℝ) / d = (n / d : Nat) + (n % d : Nat) / d := by
    rw [eq_comm, ← sub_eq_zero]
    field_simp
    have : (d : ℝ) * (n / d : Nat) + (n % d : Nat) = n := by exact_mod_cast Nat.div_add_mod n d
    linarith
  rw [hn]
  unfold roundHalfEven
  dsimp only
  generalize n / d = q, n % d = r at *
  have tie (h : (r : ℝ) / d = 1 / 2) : 2 * r = d := by
    have : 2 * (r : ℝ) = d := by field_simp at h; linarith
    exact_mod_cast this
  split
  next hc =>
    have low : 1 / 2 ≤ (r : ℝ) / d := by
      rw [le_div_iff₀ hd']
      have : (d : ℝ) ≤ 2 * r := by exact_mod_cast (show d ≤ 2 * r by omega)
      linarith
    have up : (r : ℝ) / d < 1 := by rw [div_lt_one hd']; exact_mod_cast hr
    push_cast
    rw [abs_of_pos (by linarith)]
    refine ⟨by linarith, fun h => ?_⟩
    have := tie (by linarith)
    omega
  next hc =>
    have up : (r : ℝ) / d ≤ 1 / 2 := by
      rw [div_le_iff₀ hd']
      have : 2 * (r : ℝ) ≤ d := by exact_mod_cast (show 2 * r ≤ d by omega)
      linarith
    have low : 0 ≤ (r : ℝ) / d := by positivity
    rw [abs_sub_comm, abs_of_nonneg (by linarith)]
    refine ⟨by linarith, fun h => ?_⟩
    have := tie (by linarith)
    omega

/-- Scaling numerator and denominator by the two halves of a power of two scales the ratio. -/
theorem ratio_scaled (n d : Nat) (e : Int) :
    ((n * 2 ^ e.toNat : Nat) : ℝ) / ((d * 2 ^ (-e).toNat : Nat) : ℝ) = n / d * 2 ^ e := by
  rcases le_total 0 e with h | h
  · lift e to ℕ using h
    simp; ring
  · obtain ⟨k, hk⟩ := Int.eq_ofNat_of_zero_le (neg_nonneg.2 h)
    obtain rfl := neg_eq_iff_eq_neg.1 hk
    simp; ring

theorem floorLog2Ratio_spec {n d : Nat} (hn : 0 < n) (hd : 0 < d) :
    (2 : ℝ) ^ floorLog2Ratio n d ≤ n / d ∧ (n : ℝ) / d < 2 ^ (floorLog2Ratio n d + 1) := by
  have hn1 : (2 : ℝ) ^ (Nat.log2 n : ℤ) ≤ n := by exact_mod_cast Nat.log2_self_le hn.ne'
  have hn2 : (n : ℝ) < 2 ^ ((Nat.log2 n : ℤ) + 1) := by exact_mod_cast Nat.lt_log2_self
  have hd1 : (2 : ℝ) ^ (Nat.log2 d : ℤ) ≤ d := by exact_mod_cast Nat.log2_self_le hd.ne'
  have hd2 : (d : ℝ) < 2 ^ ((Nat.log2 d : ℤ) + 1) := by exact_mod_cast Nat.lt_log2_self
  have hd' : (0 : ℝ) < d := by exact_mod_cast hd
  generalize he : (Nat.log2 n : ℤ) - Nat.log2 d = e
  have low : (2 : ℝ) ^ (e - 1) ≤ n / d := by
    rw [le_div_iff₀ hd']
    calc (2 : ℝ) ^ (e - 1) * d ≤ 2 ^ (e - 1) * 2 ^ ((Nat.log2 d : ℤ) + 1) := by gcongr
      _ = 2 ^ (Nat.log2 n : ℤ) := by rw [← zpow_add₀ two_ne_zero]; congr 1; omega
      _ ≤ n := hn1
  have up : (n : ℝ) / d < 2 ^ (e + 1) := by
    rw [div_lt_iff₀ hd']
    calc (n : ℝ) < 2 ^ ((Nat.log2 n : ℤ) + 1) := hn2
      _ = 2 ^ (e + 1) * 2 ^ (Nat.log2 d : ℤ) := by rw [← zpow_add₀ two_ne_zero]; congr 1; omega
      _ ≤ 2 ^ (e + 1) * d := by gcongr
  have test : d * 2 ^ e.toNat ≤ n * 2 ^ (-e).toNat ↔ (2 : ℝ) ^ e ≤ n / d := by
    have hs := ratio_scaled d n e
    have hn' : (0 : ℝ) < n := by exact_mod_cast hn
    have hpos : (0 : ℝ) < (n * 2 ^ (-e).toNat : Nat) := by push_cast; positivity
    rw [← Nat.cast_le (α := ℝ), ← div_le_one hpos, hs, le_div_iff₀ hd', div_mul_eq_mul_div,
      div_le_one hn', mul_comm]
  unfold floorLog2Ratio
  simp only [he, test]
  split
  next h => exact ⟨h, up⟩
  next h => exact ⟨low, by simpa using h⟩

/-! ## The significand a real rounds to -/

/-- The non-negative real `z` rounds to `m * 2 ^ q`, before the largest finite value bounds it:
`2 ^ q` is the quantum of `z`, and `m` the integer nearest `z / 2 ^ q`, ties to even. -/
structure RoundsTo (m : Nat) (q : Int) (z : ℝ) : Prop where
  scale_ge : -1074 ≤ q
  normal : q = -1074 ∨ 2 ^ 52 * 2 ^ q ≤ z
  upper : z < 2 ^ 53 * 2 ^ q
  near : |m * 2 ^ q - z| ≤ 2 ^ q / 2
  even : |m * 2 ^ q - z| = 2 ^ q / 2 → m % 2 = 0

theorem RoundsTo.isSignificand {m : Nat} {q : Int} {z : ℝ} (h : RoundsTo m q z) :
    IsSignificand m q := by
  have hu : (0 : ℝ) < 2 ^ q := by positivity
  obtain ⟨h1, h2⟩ := abs_le.1 h.near
  refine ⟨h.scale_ge, ?_, h.normal.imp_right fun hn => ?_⟩
  · have : (m : ℝ) * 2 ^ q < (2 ^ 53 + 1) * 2 ^ q := by linarith [h.upper]
    have : (m : ℝ) < 2 ^ 53 + 1 := lt_of_mul_lt_mul_right this hu.le
    exact Nat.lt_succ_iff.1 (by exact_mod_cast this)
  · have : (2 ^ 52 - 1 : ℝ) * 2 ^ q < m * 2 ^ q := by linarith
    have : (2 ^ 52 : ℝ) < m + 1 := by linarith [lt_of_mul_lt_mul_right this hu.le]
    exact Nat.lt_succ_iff.1 (by exact_mod_cast this)

/-- Another multiple of the quantum is at least as far from `z`, and as far only in a tie. -/
theorem RoundsTo.nearest_multiple {m : Nat} {q : Int} {z : ℝ} (h : RoundsTo m q z) (k : ℤ)
    (hk : k ≠ m) :
    |(m : ℝ) * 2 ^ q - z| ≤ |(k : ℝ) * 2 ^ q - z| ∧
    (|(m : ℝ) * 2 ^ q - z| = |(k : ℝ) * 2 ^ q - z| → m % 2 = 0) := by
  have hu : (0 : ℝ) < 2 ^ q := by positivity
  have gap : (1 : ℝ) ≤ |(k : ℝ) - m| := by exact_mod_cast Int.one_le_abs (sub_ne_zero.2 hk)
  have far : (2 : ℝ) ^ q / 2 ≤ |(k : ℝ) * 2 ^ q - z| := by
    have tri := abs_sub_le ((k : ℝ) * 2 ^ q) z (m * 2 ^ q)
    rw [← sub_mul, abs_mul, abs_of_pos hu, abs_sub_comm z] at tri
    have := mul_le_mul_of_nonneg_right gap hu.le
    linarith [h.near]
  exact ⟨h.near.trans far, fun heq => h.even (le_antisymm h.near (heq ▸ far))⟩

/-- A real that is a multiple of its quantum rounds to itself. -/
theorem RoundsTo.exact {m : Nat} {q : Int} {z : ℝ} (h : RoundsTo m q z) (k : ℤ)
    (hz : z = k * 2 ^ q) : (m : ℝ) * 2 ^ q = z := by
  by_cases hk : k = m
  · rw [hz, hk]; rfl
  · have := (h.nearest_multiple k hk).1
    rw [← hz, sub_self, abs_zero, abs_nonpos_iff] at this
    linarith

/-- A finite value is a multiple of a given quantum, or lies below every value that has it. -/
theorem f64Value_multiple_or_small (c : F64) (q : Int) :
    (∃ k : ℤ, (f64Value c : ℝ) = k * 2 ^ q) ∨
    (q ≠ -1074 ∧ |(f64Value c : ℝ)| < 2 ^ 52 * 2 ^ q) := by
  have hM := magnitudeSignificand_lt (f64Magnitude c)
  have hS := (magnitude_isSignificand (f64Magnitude c)).scale_ge
  have hv : (f64Value c : ℝ) = signOf (f64Negative c) *
      (magnitudeSignificand (f64Magnitude c) * 2 ^ magnitudeScale (f64Magnitude c)) := by
    rw [f64Value_real, magnitudeValue]; push_cast; rfl
  generalize magnitudeSignificand (f64Magnitude c) = M at *
  generalize magnitudeScale (f64Magnitude c) = s at *
  rcases le_or_gt q s with h | h
  · refine .inl ⟨(if f64Negative c then -1 else 1) * (M * 2 ^ (s - q).toNat), ?_⟩
    have : (2 : ℝ) ^ s = 2 ^ (s - q).toNat * 2 ^ q := by
      rw [← zpow_natCast, ← zpow_add₀ two_ne_zero]; congr 1; omega
    rw [hv, this, signOf]
    push_cast; ring
  · refine .inr ⟨by omega, ?_⟩
    rw [hv, abs_mul, abs_signOf, one_mul, abs_of_nonneg (by positivity)]
    have hM' : (M : ℝ) < 2 ^ 53 := by exact_mod_cast hM
    calc (M : ℝ) * 2 ^ s < 2 ^ 53 * 2 ^ s := by gcongr
      _ = 2 ^ 52 * 2 ^ (s + 1) := by rw [zpow_add_one₀ two_ne_zero]; ring
      _ ≤ 2 ^ 52 * 2 ^ q := by gcongr; norm_num; omega

/-- No finite value is nearer than the one a real rounds to. -/
theorem RoundsTo.nearest_value {m : Nat} {q : Int} {z : ℝ} (h : RoundsTo m q z) (c : F64)
    (hc : (f64Value c : ℝ) ≠ m * 2 ^ q) :
    |(m : ℝ) * 2 ^ q - z| ≤ |(f64Value c : ℝ) - z| ∧
    (|(m : ℝ) * 2 ^ q - z| = |(f64Value c : ℝ) - z| → m % 2 = 0) := by
  rcases f64Value_multiple_or_small c q with ⟨k, hk⟩ | ⟨hq, hsmall⟩
  · rw [hk]
    exact h.nearest_multiple k fun e => hc (by rw [hk, e]; rfl)
  · have hz := h.normal.resolve_left hq
    have near : |(m : ℝ) * 2 ^ q - z| ≤ z - 2 ^ 52 * 2 ^ q := by
      rw [← abs_of_nonneg (sub_nonneg.2 hz), abs_sub_comm z]
      by_cases hm : m = 2 ^ 52
      · rw [hm]; norm_num
      · have := (h.nearest_multiple (2 ^ 52) (by exact_mod_cast Ne.symm hm)).1
        norm_num at this ⊢
        exact this
    have far : z - 2 ^ 52 * 2 ^ q < |(f64Value c : ℝ) - z| := by
      rw [abs_sub_comm]
      exact lt_of_lt_of_le (by linarith [(abs_lt.1 hsmall).2]) (le_abs_self _)
    exact ⟨(near.trans_lt far).le, fun e => absurd e (near.trans_lt far).ne⟩

/-! ## Packing what a real rounds to -/

theorem f64Negative_packMagnitude (negative : Bool) (m : Nat) (q : Int) :
    f64Negative (packMagnitude negative m q) = negative := by
  rw [packMagnitude_eq, f64Negative_ofMagnitude _ (by omega)]

/-- A significand at a scale that is packed without reaching infinity. -/
theorem packMagnitude_finite (negative : Bool) {m : Nat} {q : Int} (h : IsSignificand m q)
    (hlt : (q + 1074).toNat * 2 ^ 52 + m < 2047 * 2 ^ 52) :
    f64IsFinite (packMagnitude negative m q) = true ∧
    (f64Value (packMagnitude negative m q) : ℝ) = signOf negative * (m * 2 ^ q) ∧
    f64Significand (packMagnitude negative m q) % 2 = m % 2 := by
  rw [packMagnitude_eq, min_eq_left hlt.le, f64IsFinite_iff, f64Value_real, f64Significand_eq,
    f64Magnitude_ofMagnitude _ (by omega), f64Negative_ofMagnitude _ (by omega),
    magnitudeValue_of_significand h]
  refine ⟨hlt, by push_cast; rfl, ?_⟩
  unfold magnitudeSignificand
  split <;> omega

theorem packMagnitude_overflow (negative : Bool) {m : Nat} {q : Int}
    (hle : 2047 * 2 ^ 52 ≤ (q + 1074).toNat * 2 ^ 52 + m) :
    packMagnitude negative m q = f64Inf negative := by
  rw [packMagnitude_eq, min_eq_right hle, f64Inf_eq]

theorem overflowBound_eq : (overflowBound : ℝ) = (2 ^ 53 - 1 / 2) * 2 ^ (971 : ℤ) := by
  have h971 : (2 : ℝ) ^ (971 : ℤ) = 2 * 2 ^ 970 := by
    rw [show (971 : ℤ) = (971 : ℕ) from rfl, zpow_natCast, pow_succ']
  have h1024 : (2 : ℝ) ^ 1024 = 2 ^ 54 * 2 ^ 970 := by rw [← pow_add]
  rw [overflowBound]
  push_cast
  rw [h971, h1024]
  generalize (2 : ℝ) ^ 970 = u
  ring

theorem RoundsTo.fits {m : Nat} {q : Int} {z : ℝ} (h : RoundsTo m q z)
    (hz : z < overflowBound) : (q + 1074).toNat * 2 ^ 52 + m < 2047 * 2 ^ 52 := by
  have hs := h.isSignificand
  rw [overflowBound_eq] at hz
  have hq : q ≤ 971 := by
    by_contra hq
    have hn := h.normal.resolve_left (by omega)
    have : (2 : ℝ) ^ (972 : ℤ) ≤ 2 ^ q := zpow_le_zpow_right₀ one_le_two (by omega)
    rw [show (972 : ℤ) = 971 + 1 from rfl, zpow_add_one₀ two_ne_zero] at this
    have hu : (0 : ℝ) < 2 ^ (971 : ℤ) := by positivity
    generalize (2 : ℝ) ^ (971 : ℤ) = u at *
    linarith
  rcases hq.lt_or_eq with hq | rfl
  · have := hs.le; omega
  · have hu : (0 : ℝ) < 2 ^ (971 : ℤ) := by positivity
    have hm : (m : ℝ) * 2 ^ (971 : ℤ) < 2 ^ 53 * 2 ^ (971 : ℤ) := by
      linarith [(abs_le.1 h.near).2]
    have hm : m < 2 ^ 53 := by exact_mod_cast lt_of_mul_lt_mul_right hm hu.le
    omega

theorem RoundsTo.overflows {m : Nat} {q : Int} {z : ℝ} (h : RoundsTo m q z)
    (hz : overflowBound ≤ z) : 2047 * 2 ^ 52 ≤ (q + 1074).toNat * 2 ^ 52 + m := by
  have hs := h.isSignificand
  rw [overflowBound_eq] at hz
  have hq : 971 ≤ q := by
    by_contra hq
    have : (2 : ℝ) ^ q ≤ 2 ^ (970 : ℤ) := zpow_le_zpow_right₀ one_le_two (by omega)
    have h971 : (2 : ℝ) ^ (971 : ℤ) = 2 * 2 ^ (970 : ℤ) := by
      rw [show (971 : ℤ) = 970 + 1 from rfl, zpow_add_one₀ two_ne_zero]; ring
    have hu : (0 : ℝ) < 2 ^ (970 : ℤ) := by positivity
    have := h.upper
    rw [h971] at hz
    generalize (2 : ℝ) ^ (970 : ℤ) = u, (2 : ℝ) ^ q = v at *
    linarith only [hz, this, hu, ‹v ≤ u›]
  rcases hq.eq_or_lt with rfl | hq
  · have hu : (0 : ℝ) < 2 ^ (971 : ℤ) := by positivity
    have hm : 2 ^ 53 ≤ m := by
      by_contra hm
      have hm' : (m : ℝ) ≤ 2 ^ 53 - 1 := by
        have : (m : ℝ) + 1 ≤ 2 ^ 53 := by exact_mod_cast Nat.succ_le_of_lt (not_le.1 hm)
        linarith
      have hle := mul_le_mul_of_nonneg_right hm' hu.le
      have near := h.near
      have even := h.even
      generalize (2 : ℝ) ^ (971 : ℤ) = u at *
      have hge := (abs_le.1 near).1
      have heven := even (by rw [abs_sub_comm, abs_of_nonneg] <;> linarith)
      have : (2 ^ 53 - 1 : ℝ) * u ≤ m * u := by linarith
      have : (2 ^ 53 : ℝ) ≤ m + 1 := by linarith [le_of_mul_le_mul_right this hu]
      have : 2 ^ 53 ≤ m + 1 := by exact_mod_cast this
      omega
    omega
  · have := hs.normal; omega

/-- Every value has one of the opposite sign. -/
theorem exists_f64Value_signed (negative : Bool) (c : F64) :
    ∃ c' : F64, (f64Value c' : ℝ) = signOf negative * f64Value c := by
  cases negative with
  | false => exact ⟨c, by simp [signOf]⟩
  | true =>
    refine ⟨f64OfMagnitude (!f64Negative c) (f64Magnitude c), ?_⟩
    rw [f64Value_real, f64Value_real, f64Magnitude_ofMagnitude _ (f64Magnitude_lt c),
      f64Negative_ofMagnitude _ (f64Magnitude_lt c)]
    cases f64Negative c <;> simp [signOf]

/-- What a real below the overflow bound rounds to is, packed with a sign, the nearest value. -/
theorem RoundsTo.nearestEven {m : Nat} {q : Int} {z : ℝ} (h : RoundsTo m q z)
    (hz : z < overflowBound) (negative : Bool) :
    NearestEven (packMagnitude negative m q) (signOf negative * z) := by
  obtain ⟨hfin, hval, hsig⟩ := packMagnitude_finite negative h.isSignificand (h.fits hz)
  refine ⟨hfin, fun c _ => ?_⟩
  -- a sign on all three values leaves the distances as they are
  obtain ⟨c', hc'⟩ := exists_f64Value_signed negative c
  have dist (x : ℝ) : |signOf negative * x - z| = |x - signOf negative * z| := by
    rw [← one_mul (|_|), ← abs_signOf negative, ← abs_mul, mul_sub, ← mul_assoc, signOf_mul_self,
      one_mul]
  have hr : |(f64Value (packMagnitude negative m q) : ℝ) - signOf negative * z| =
      |(m : ℝ) * 2 ^ q - z| := by
    rw [hval, ← mul_sub, abs_mul, abs_signOf, one_mul]
  rw [hr, ← dist, ← hc', hsig]
  by_cases heq : (f64Value c' : ℝ) = m * 2 ^ q
  · refine ⟨by rw [heq], fun _ hne => absurd ?_ hne⟩
    rw [hc'] at heq
    have : (f64Value c : ℝ) = f64Value (packMagnitude negative m q) := by
      rw [hval, ← heq, ← mul_assoc, signOf_mul_self, one_mul]
    exact_mod_cast this
  · exact ⟨(h.nearest_value c' heq).1, fun e _ => (h.nearest_value c' heq).2 e⟩

/-! ## `roundRatio` -/

/-- The quantum `roundRatio` takes is that of the exact value's binade, or the least one. -/
theorem quantum_spec {n d : Nat} (hn : 0 < n) (hd : 0 < d) {e q : Int}
    (hq : max (floorLog2Ratio n d + e - 52) (-1074) = q) :
    -1074 ≤ q ∧ (q = -1074 ∨ (2 : ℝ) ^ 52 * 2 ^ q ≤ n / d * 2 ^ e) ∧
      (n : ℝ) / d * 2 ^ e < 2 ^ 53 * 2 ^ q := by
  obtain ⟨low, up⟩ := floorLog2Ratio_spec hn hd
  generalize floorLog2Ratio n d = l at *
  refine ⟨by omega, ?_, ?_⟩
  · refine (le_total (l + e - 52) (-1074)).imp (fun h => by omega) fun h => ?_
    calc (2 : ℝ) ^ 52 * 2 ^ q = 2 ^ l * 2 ^ e := by
          rw [← zpow_natCast, ← zpow_add₀ two_ne_zero, ← zpow_add₀ two_ne_zero]; congr 1; omega
      _ ≤ n / d * 2 ^ e := by gcongr
  · calc (n : ℝ) / d * 2 ^ e < 2 ^ (l + 1) * 2 ^ e := by gcongr
      _ ≤ 2 ^ 53 * 2 ^ q := by
          rw [← zpow_natCast, ← zpow_add₀ two_ne_zero, ← zpow_add₀ two_ne_zero]
          exact zpow_le_zpow_right₀ one_le_two (by push_cast; omega)

/-- `roundRatio` packs what the exact value rounds to. -/
theorem roundRatio_spec (negative : Bool) (n : Nat) {d : Nat} (hd : 0 < d) (e : Int) :
    ∃ m q, roundRatio negative n d e = packMagnitude negative m q ∧
      RoundsTo m q ((n : ℝ) / d * 2 ^ e) := by
  unfold roundRatio
  split
  next hn =>
    refine ⟨0, -1074, rfl, ?_⟩
    rw [hn]
    refine ⟨le_rfl, .inl rfl, ?_, ?_, fun _ => rfl⟩
    · simp only [Nat.cast_zero, zero_div, zero_mul]; positivity
    · simp only [Nat.cast_zero, zero_div, zero_mul, sub_self, abs_zero]; positivity
  next hn =>
    dsimp only
    generalize hq : max (floorLog2Ratio n d + e - 52) (-1074) = q
    obtain ⟨qge, qnormal, qupper⟩ := quantum_spec (Nat.pos_of_ne_zero hn) hd hq
    refine ⟨_, q, rfl, ?_⟩
    have hu : (0 : ℝ) < 2 ^ q := by positivity
    have scaled : ((n * 2 ^ (e - q).toNat : Nat) : ℝ) / ((d * 2 ^ (q - e).toNat : Nat) : ℝ) * 2 ^ q
        = n / d * 2 ^ e := by
      have := ratio_scaled n d (e - q)
      rw [neg_sub] at this
      rw [this, mul_assoc, ← zpow_add₀ two_ne_zero, sub_add_cancel]
    obtain ⟨near, even⟩ := roundHalfEven_spec (n * 2 ^ (e - q).toNat)
      (d := d * 2 ^ (q - e).toNat) (by positivity)
    generalize roundHalfEven _ _ = m at *
    generalize ((n * 2 ^ (e - q).toNat : Nat) : ℝ) / ((d * 2 ^ (q - e).toNat : Nat) : ℝ) = x at *
    have dist : |(m : ℝ) * 2 ^ q - n / d * 2 ^ e| = |m - x| * 2 ^ q := by
      rw [← scaled, ← sub_mul, abs_mul, abs_of_pos hu]
    refine ⟨qge, qnormal, qupper, ?_, fun h => even ?_⟩
    · rw [dist, div_eq_mul_one_div, mul_comm]; gcongr
    · rw [dist, div_eq_mul_one_div, mul_comm] at h
      exact mul_left_cancel₀ hu.ne' h

theorem f64Negative_roundRatio (negative : Bool) (n : Nat) {d : Nat} (hd : 0 < d) (e : Int) :
    f64Negative (roundRatio negative n d e) = negative := by
  obtain ⟨m, q, hr, -⟩ := roundRatio_spec negative n hd e
  rw [hr, f64Negative_packMagnitude]

theorem roundRatio_nearestEven (negative : Bool) (n : Nat) {d : Nat} (hd : 0 < d) (e : Int)
    (hz : (n : ℝ) / d * 2 ^ e < overflowBound) :
    NearestEven (roundRatio negative n d e) (signOf negative * (n / d * 2 ^ e)) := by
  obtain ⟨m, q, hr, h⟩ := roundRatio_spec negative n hd e
  rw [hr]
  exact h.nearestEven hz negative

theorem roundRatio_overflow (negative : Bool) (n : Nat) {d : Nat} (hd : 0 < d) (e : Int)
    (hz : overflowBound ≤ (n : ℝ) / d * 2 ^ e) :
    roundRatio negative n d e = f64Inf negative := by
  obtain ⟨m, q, hr, h⟩ := roundRatio_spec negative n hd e
  rw [hr, packMagnitude_overflow negative (h.overflows hz)]

end Sys2Proof.Machine
end

section
/-! The statements about the binary64 operations. -/

namespace Sys2Proof.Machine

/-! ## Rounding -/

/-- The overflow bound is far above every value met below. -/
theorem two_pow_lt_overflowBound : (2 : ℝ) ^ 1000 < overflowBound := by
  have h : (2 : ℝ) ^ (971 : ℤ) = 2 ^ 971 := by rw [← zpow_natCast]; rfl
  rw [overflowBound_eq, h, show (1000 : ℕ) = 29 + 971 from rfl, pow_add]
  gcongr
  norm_num

theorem lt_overflowBound_of_le {x : ℝ} (h : x ≤ 2 ^ 53) : x < overflowBound :=
  (h.trans (pow_le_pow_right₀ one_le_two (by norm_num))).trans_lt two_pow_lt_overflowBound

theorem signOf_natAbs (v : ℤ) : signOf (decide (v < 0)) * (v.natAbs : ℝ) = v := by
  rw [Nat.cast_natAbs, signOf]
  rcases lt_or_ge v 0 with h | h
  · simp [h, abs_of_neg h]
  · simp [not_lt.2 h, abs_of_nonneg h]

/-- An integer of at most 53 bits is a multiple of its quantum. -/
theorem RoundsTo.natCast_exact {m : Nat} {q : Int} {n : Nat} (h : RoundsTo m q (n : ℝ))
    (hn : n ≤ 2 ^ 53) : (m : ℝ) * 2 ^ q = n := by
  rcases le_or_gt q 0 with hq | hq
  · refine h.exact (n * 2 ^ (-q).toNat) ?_
    have : (2 : ℝ) ^ (-q).toNat * 2 ^ q = 1 := by
      rw [← zpow_natCast, ← zpow_add₀ two_ne_zero, show ((-q).toNat : ℤ) + q = 0 by omega,
        zpow_zero]
    push_cast
    rw [mul_assoc, this, mul_one]
  · have hn' : (n : ℝ) ≤ 2 ^ 53 := by exact_mod_cast hn
    have hlow := h.normal.resolve_left (by omega)
    have hq2 : (2 : ℝ) ^ q = 2 := by
      have : (2 : ℝ) ^ (1 : ℤ) ≤ 2 ^ q := zpow_le_zpow_right₀ one_le_two hq
      rw [zpow_one] at this
      linarith
    refine h.exact (2 ^ 52) ?_
    rw [hq2] at hlow ⊢
    push_cast
    linarith

theorem f64OfInt_exact {v : Int} (hv : |v| ≤ 2 ^ 53) :
    f64IsFinite (f64OfInt v) = true ∧ f64Value (f64OfInt v) = (v : ℚ) := by
  obtain ⟨m, q, hr, h⟩ := roundRatio_spec (decide (v < 0)) v.natAbs one_pos 0
  rw [Nat.cast_one, div_one, zpow_zero, mul_one] at h
  have hv' : v.natAbs ≤ 2 ^ 53 := by rw [Int.abs_eq_natAbs] at hv; omega
  have hlt := h.fits (lt_overflowBound_of_le (by exact_mod_cast hv'))
  obtain ⟨hfin, hval, -⟩ := packMagnitude_finite (decide (v < 0)) h.isSignificand hlt
  rw [h.natCast_exact hv', signOf_natAbs] at hval
  rw [f64OfInt, hr]
  exact ⟨hfin, by exact_mod_cast hval⟩

/-- Settles O55, by `f64OfInt_exact` and the three facts about `roundRatio`. -/
theorem roundingIsNearestEven : Obligations.RoundingIsNearestEven := by
  refine ⟨fun v hv => f64OfInt_exact hv, fun negative n d e hd => ⟨fun h => ?_, fun h => ?_, ?_⟩⟩
  · have hz : (n : ℝ) / d * 2 ^ e < overflowBound := by
      simpa using (Rat.cast_lt (K := ℝ)).2 h
    have := roundRatio_nearestEven negative n hd e hz
    cases negative <;> simpa [signOf] using this
  · exact roundRatio_overflow negative n hd e (by simpa using (Rat.cast_le (K := ℝ)).2 h)
  · exact f64Negative_roundRatio negative n hd e

/-! ## The exact result of an operation, rounded once -/

/-- `r` is the exact result `z` rounded once: the nearest value, or the infinity of its sign. -/
def RoundsExact (r : F64) (z : ℚ) : Prop :=
  (|z| < overflowBound → NearestEven r (z : ℝ)) ∧
  (overflowBound ≤ |z| → r = f64Inf (decide (z < 0)))

theorem overflowBound_pos : 0 < overflowBound := by
  have : (0 : ℝ) < overflowBound := lt_overflowBound_of_le (by positivity)
  exact_mod_cast this

theorem roundRatio_roundsExact (negative : Bool) (n : Nat) {d : Nat} (hd : 0 < d) (e : Int) :
    RoundsExact (roundRatio negative n d e)
      ((if negative then -1 else 1) * ((n : ℚ) / d * 2 ^ e)) := by
  obtain ⟨-, h⟩ := roundingIsNearestEven
  obtain ⟨hnear, hover, -⟩ := h negative n d e hd
  have hw : (0 : ℚ) ≤ n / d * 2 ^ e := by positivity
  generalize (n : ℚ) / d * 2 ^ e = w at *
  have habs : |(if negative then -1 else 1) * w| = w := by
    cases negative <;> simp [abs_of_nonneg hw]
  rw [RoundsExact, habs]
  refine ⟨hnear, fun h => ?_⟩
  have hpos := overflowBound_pos.trans_le h
  rw [hover h]
  cases negative <;> simp [hpos, hw.not_gt]

/-- A zero is zero rounded. -/
theorem f64Zero_roundsExact (negative : Bool) : RoundsExact (f64Zero negative) 0 := by
  have h := roundRatio_roundsExact negative 0 one_pos 0
  simp only [Nat.cast_zero, zero_div, zero_mul, mul_zero] at h
  exact h

theorem f64Value_eq_significand (a : F64) :
    f64Value a = (if f64Negative a then -1 else 1) * (f64Significand a * 2 ^ f64Scale a) := by
  rw [f64Value, mul_assoc]

theorem f64Significand_pos {a : F64} (hz : f64IsZero a = false) : 0 < f64Significand a := by
  refine Nat.pos_of_ne_zero fun h => ?_
  have : f64Value a = 0 := by rw [f64Value_eq_significand, h]; simp
  rw [f64Value_eq_zero, hz] at this
  exact absurd this (by decide)

/-! ## Addition and subtraction -/

theorem exactSum_spec (a b : F64) (negateB : Bool) :
    f64Value a + (if negateB then -1 else 1) * f64Value b =
      (exactSum a b negateB).1 * 2 ^ (exactSum a b negateB).2 := by
  have scaled (x e : ℤ) (h : e ≤ x) : (2 : ℚ) ^ x = 2 ^ (x - e).toNat * 2 ^ e := by
    rw [← zpow_natCast, ← zpow_add₀ two_ne_zero]; congr 1; omega
  rw [f64Value_eq_significand, f64Value_eq_significand, exactSum,
    scaled (f64Scale a) _ (min_le_left (f64Scale a) (f64Scale b)),
    scaled (f64Scale b) _ (min_le_right (f64Scale a) (f64Scale b))]
  cases f64Negative a <;> cases f64Negative b <;> cases negateB <;> simp <;> ring

theorem addWith_finite (op : FpOp) (negateB : Bool) {a b : F64} (ha : f64IsFinite a = true)
    (hb : f64IsFinite b = true) :
    RoundsExact (addWith op negateB a b)
      (f64Value a + (if negateB then -1 else 1) * f64Value b) ∧
    (f64Value a + (if negateB then -1 else 1) * f64Value b = 0 →
      addWith op negateB a b = f64Zero (f64Negative a && (f64Negative b != negateB))) := by
  obtain ⟨hna, hia⟩ := f64IsFinite_excludes ha
  obtain ⟨hnb, hib⟩ := f64IsFinite_excludes hb
  rw [exactSum_spec a b negateB]
  generalize hs : exactSum a b negateB = s
  obtain ⟨v, e⟩ := s
  simp only [addWith, hna, hnb, hia, hib, hs, Bool.or_self, Bool.false_eq_true, if_false]
  by_cases hv : v = 0
  · simp only [hv, if_true, Int.cast_zero, zero_mul, forall_const, and_true]
    exact f64Zero_roundsExact _
  · have hz : (v : ℚ) * 2 ^ e ≠ 0 := mul_ne_zero (by exact_mod_cast hv) (by positivity)
    simp only [hv, hz, if_false, IsEmpty.forall_iff, and_true]
    have h := roundRatio_roundsExact (decide (v < 0)) v.natAbs one_pos e
    have hval : (if decide (v < 0) = true then -1 else 1) * (((v.natAbs : ℕ) : ℚ) / (1 : ℕ) * 2 ^ e)
        = v * 2 ^ e := by
      rw [Nat.cast_one, div_one, ← mul_assoc]
      congr 1
      rw [Nat.cast_natAbs]
      rcases lt_or_ge v 0 with h | h
      · simp [h, abs_of_neg h]
      · simp [not_lt.2 h, abs_of_nonneg h]
    rwa [hval] at h

theorem addWith_nan (op : FpOp) (negateB : Bool) {a b : F64}
    (h : f64IsNaN a = true ∨ f64IsNaN b = true) : f64IsNaN (addWith op negateB a b) = true := by
  rw [addWith, if_pos (by simpa using h), f64IsNaN_f64NaN]

theorem addWith_inf_finite (op : FpOp) (negateB : Bool) {a b : F64} (ha : f64IsInf a = true)
    (hb : f64IsFinite b = true) : addWith op negateB a b = a := by
  obtain ⟨hna, -, hself⟩ := f64IsInf_excludes ha
  obtain ⟨hnb, hib⟩ := f64IsFinite_excludes hb
  simp [addWith, hna, hnb, ha, hib, hself]

theorem addWith_finite_inf (op : FpOp) (negateB : Bool) {a b : F64} (ha : f64IsFinite a = true)
    (hb : f64IsInf b = true) : addWith op negateB a b = f64Inf (f64Negative b != negateB) := by
  obtain ⟨hna, hia⟩ := f64IsFinite_excludes ha
  obtain ⟨hnb, -, -⟩ := f64IsInf_excludes hb
  simp [addWith, hna, hnb, hb, hia]

theorem addWith_inf_inf (op : FpOp) (negateB : Bool) {a b : F64} (ha : f64IsInf a = true)
    (hb : f64IsInf b = true) :
    addWith op negateB a b =
      if f64Negative a != (f64Negative b != negateB) then f64NaN op a b else a := by
  obtain ⟨hna, -, hself⟩ := f64IsInf_excludes ha
  obtain ⟨hnb, -, -⟩ := f64IsInf_excludes hb
  simp [addWith, hna, hnb, ha, hb, hself]

/-! ## Multiplication and division -/

theorem fmul_finite {a b : F64} (ha : f64IsFinite a = true) (hb : f64IsFinite b = true) :
    RoundsExact (fmul a b) (f64Value a * f64Value b) ∧
    f64Negative (fmul a b) = (f64Negative a != f64Negative b) := by
  obtain ⟨hna, hia⟩ := f64IsFinite_excludes ha
  obtain ⟨hnb, hib⟩ := f64IsFinite_excludes hb
  simp only [fmul, hna, hnb, hia, hib, Bool.or_self, Bool.false_eq_true, if_false]
  refine ⟨?_, f64Negative_roundRatio _ _ one_pos _⟩
  convert roundRatio_roundsExact (f64Negative a != f64Negative b)
    (f64Significand a * f64Significand b) one_pos (f64Scale a + f64Scale b) using 1
  rw [f64Value_eq_significand, f64Value_eq_significand, zpow_add₀ two_ne_zero]
  cases f64Negative a <;> cases f64Negative b <;> simp <;> ring

theorem fmul_nan {a b : F64} (h : f64IsNaN a = true ∨ f64IsNaN b = true) :
    f64IsNaN (fmul a b) = true := by
  rw [fmul, if_pos (by simpa using h), f64IsNaN_f64NaN]

theorem fmul_inf {a b : F64} (hna : f64IsNaN a = false) (hnb : f64IsNaN b = false)
    (h : f64IsInf a = true ∨ f64IsInf b = true) :
    fmul a b = if f64IsZero a || f64IsZero b then f64NaN .mul a b
      else f64Inf (f64Negative a != f64Negative b) := by
  have h' : (f64IsInf a || f64IsInf b) = true := by simpa using h
  simp only [fmul, hna, hnb, h', Bool.or_self, Bool.false_eq_true, if_false, if_true]

theorem fdiv_finite {a b : F64} (ha : f64IsFinite a = true) (hb : f64IsFinite b = true)
    (hz : f64IsZero b = false) :
    RoundsExact (fdiv a b) (f64Value a / f64Value b) ∧
    f64Negative (fdiv a b) = (f64Negative a != f64Negative b) := by
  obtain ⟨hna, hia⟩ := f64IsFinite_excludes ha
  obtain ⟨hnb, hib⟩ := f64IsFinite_excludes hb
  have hsig := f64Significand_pos hz
  simp only [fdiv, hna, hnb, hia, hib, hz, Bool.or_self, Bool.false_eq_true, if_false]
  refine ⟨?_, f64Negative_roundRatio _ _ hsig _⟩
  convert roundRatio_roundsExact (f64Negative a != f64Negative b)
    (f64Significand a) hsig (f64Scale a - f64Scale b) using 1
  rw [f64Value_eq_significand, f64Value_eq_significand, zpow_sub₀ two_ne_zero]
  cases f64Negative a <;> cases f64Negative b <;> simp <;> field_simp

theorem fdiv_nan {a b : F64} (h : f64IsNaN a = true ∨ f64IsNaN b = true) :
    f64IsNaN (fdiv a b) = true := by
  rw [fdiv, if_pos (by simpa using h), f64IsNaN_f64NaN]

theorem fdiv_finite_zero {a b : F64} (ha : f64IsFinite a = true) (hb : f64IsFinite b = true)
    (hz : f64IsZero b = true) :
    fdiv a b = if f64IsZero a then f64NaN .div a b
      else f64Inf (f64Negative a != f64Negative b) := by
  obtain ⟨hna, hia⟩ := f64IsFinite_excludes ha
  obtain ⟨hnb, hib⟩ := f64IsFinite_excludes hb
  simp only [fdiv, hna, hnb, hia, hib, hz, Bool.or_self, Bool.false_eq_true, if_false, if_true]

theorem fdiv_inf_left {a b : F64} (ha : f64IsInf a = true) (hnb : f64IsNaN b = false) :
    fdiv a b = if f64IsInf b then f64NaN .div a b
      else f64Inf (f64Negative a != f64Negative b) := by
  obtain ⟨hna, -, -⟩ := f64IsInf_excludes ha
  simp only [fdiv, hna, hnb, ha, Bool.or_self, Bool.false_eq_true, if_false, if_true]

theorem fdiv_finite_inf {a b : F64} (ha : f64IsFinite a = true) (hb : f64IsInf b = true) :
    fdiv a b = f64Zero (f64Negative a != f64Negative b) := by
  obtain ⟨hna, hia⟩ := f64IsFinite_excludes ha
  obtain ⟨hnb, -, -⟩ := f64IsInf_excludes hb
  simp only [fdiv, hna, hnb, hia, hb, Bool.or_self, Bool.false_eq_true, if_false, if_true]

/-! ## The four operations by the classes of their operands -/

theorem f64Value_ne_zero (a : F64) : f64Value a ≠ 0 ↔ f64IsZero a = false := by
  rw [Ne, f64Value_eq_zero, Bool.not_eq_true]

theorem operations_finite {a b : F64} (ha : f64IsFinite a = true) (hb : f64IsFinite b = true) :
    RoundsExact (fadd a b) (f64Value a + f64Value b) ∧
    (f64Value a + f64Value b = 0 → fadd a b = f64Zero (f64Negative a && f64Negative b)) ∧
    RoundsExact (fsub a b) (f64Value a - f64Value b) ∧
    (f64Value a - f64Value b = 0 → fsub a b = f64Zero (f64Negative a && !f64Negative b)) ∧
    RoundsExact (fmul a b) (f64Value a * f64Value b) ∧
    f64Negative (fmul a b) = (f64Negative a != f64Negative b) ∧
    (f64Value b ≠ 0 → RoundsExact (fdiv a b) (f64Value a / f64Value b) ∧
      f64Negative (fdiv a b) = (f64Negative a != f64Negative b)) ∧
    (f64Value b = 0 → f64Value a ≠ 0 → fdiv a b = f64Inf (f64Negative a != f64Negative b)) ∧
    (f64Value b = 0 → f64Value a = 0 → f64IsNaN (fdiv a b) = true) := by
  obtain ⟨hadd, hadd0⟩ := addWith_finite .add false ha hb
  obtain ⟨hsub, hsub0⟩ := addWith_finite .sub true ha hb
  obtain ⟨hmul, hmuls⟩ := fmul_finite ha hb
  simp only [Bool.false_eq_true, if_false, if_true, one_mul, neg_one_mul, ← sub_eq_add_neg,
    Bool.bne_false, Bool.bne_true] at hadd hadd0 hsub hsub0
  refine ⟨hadd, hadd0, hsub, hsub0, hmul, hmuls, fun h => ?_, fun h h' => ?_, fun h h' => ?_⟩
  · exact fdiv_finite ha hb ((f64Value_ne_zero b).1 h)
  · rw [fdiv_finite_zero ha hb ((f64Value_eq_zero b).1 h), (f64Value_ne_zero a).1 h',
      if_neg (by simp)]
  · rw [fdiv_finite_zero ha hb ((f64Value_eq_zero b).1 h), (f64Value_eq_zero a).1 h', if_pos rfl,
      f64IsNaN_f64NaN]

theorem operations_inf_finite {a b : F64} (ha : f64IsInf a = true) (hb : f64IsFinite b = true) :
    fadd a b = a ∧ fsub a b = a ∧ fdiv a b = f64Inf (f64Negative a != f64Negative b) ∧
    (f64Value b ≠ 0 → fmul a b = f64Inf (f64Negative a != f64Negative b)) ∧
    (f64Value b = 0 → f64IsNaN (fmul a b) = true) := by
  obtain ⟨hna, hza, -⟩ := f64IsInf_excludes ha
  obtain ⟨hnb, hib⟩ := f64IsFinite_excludes hb
  refine ⟨addWith_inf_finite _ _ ha hb, addWith_inf_finite _ _ ha hb, ?_, fun h => ?_, fun h => ?_⟩
  · rw [fdiv_inf_left ha hnb, hib, if_neg (by simp)]
  · rw [fmul_inf hna hnb (.inl ha), hza, (f64Value_ne_zero b).1 h, if_neg (by simp)]
  · rw [fmul_inf hna hnb (.inl ha), (f64Value_eq_zero b).1 h, if_pos (by simp), f64IsNaN_f64NaN]

theorem operations_finite_inf {a b : F64} (ha : f64IsFinite a = true) (hb : f64IsInf b = true) :
    fadd a b = b ∧ fsub a b = f64Inf (!f64Negative b) ∧
    fdiv a b = f64Zero (f64Negative a != f64Negative b) ∧
    (f64Value a ≠ 0 → fmul a b = f64Inf (f64Negative a != f64Negative b)) ∧
    (f64Value a = 0 → f64IsNaN (fmul a b) = true) := by
  obtain ⟨hna, hia⟩ := f64IsFinite_excludes ha
  obtain ⟨hnb, hzb, hself⟩ := f64IsInf_excludes hb
  refine ⟨?_, ?_, fdiv_finite_inf ha hb, fun h => ?_, fun h => ?_⟩
  · rw [fadd, addWith_finite_inf _ _ ha hb, Bool.bne_false, hself]
  · rw [fsub, addWith_finite_inf _ _ ha hb, Bool.bne_true]
  · rw [fmul_inf hna hnb (.inr hb), hzb, (f64Value_ne_zero a).1 h, if_neg (by simp)]
  · rw [fmul_inf hna hnb (.inr hb), (f64Value_eq_zero a).1 h, if_pos (by simp), f64IsNaN_f64NaN]

theorem operations_inf_inf {a b : F64} (ha : f64IsInf a = true) (hb : f64IsInf b = true) :
    (if f64Negative a != f64Negative b then f64IsNaN (fadd a b) = true ∧ fsub a b = a
     else fadd a b = a ∧ f64IsNaN (fsub a b) = true) ∧
    fmul a b = f64Inf (f64Negative a != f64Negative b) ∧ f64IsNaN (fdiv a b) = true := by
  obtain ⟨hna, hza, -⟩ := f64IsInf_excludes ha
  obtain ⟨hnb, hzb, -⟩ := f64IsInf_excludes hb
  refine ⟨?_, ?_, ?_⟩
  · rw [fadd, fsub, addWith_inf_inf _ _ ha hb, addWith_inf_inf _ _ ha hb, Bool.bne_false,
      Bool.bne_true]
    cases f64Negative a <;> cases f64Negative b <;> simp [f64IsNaN_f64NaN]
  · rw [fmul_inf hna hnb (.inl ha), hza, hzb, if_neg (by simp)]
  · rw [fdiv_inf_left ha hnb, if_pos hb, f64IsNaN_f64NaN]

/-- Settles O56, one class of operands at a time. -/
theorem arithmeticRoundsExactResult : Obligations.ArithmeticRoundsExactResult := fun _ _ =>
  ⟨operations_finite, fun h => ⟨addWith_nan _ _ h, addWith_nan _ _ h, fmul_nan h, fdiv_nan h⟩,
    operations_inf_finite, operations_finite_inf, operations_inf_inf⟩

/-! ## Square root -/

theorem isqrtBits_spec (bits n : Nat) (h : n < 4 ^ bits) :
    isqrtBits bits n * isqrtBits bits n ≤ n ∧
    n < (isqrtBits bits n + 1) * (isqrtBits bits n + 1) := by
  induction bits generalizing n with
  | zero => simp at h; simp [isqrtBits, h]
  | succ bits ih =>
    obtain ⟨hle, hlt⟩ := ih (n / 4) (by omega)
    simp only [isqrtBits]
    generalize isqrtBits bits (n / 4) = r at *
    split
    next hc =>
      have : n < 4 * ((r + 1) * (r + 1)) := by omega
      exact ⟨hc, by linarith⟩
    next hc =>
      have : 4 * (r * r) ≤ n := by omega
      exact ⟨by linarith, not_le.1 hc⟩

theorem isqrt_eq_sqrt (n : Nat) : isqrt n = Nat.sqrt n := by
  have hn : n < 4 ^ (Nat.log2 n / 2 + 1) := by
    calc n < 2 ^ (Nat.log2 n + 1) := Nat.lt_log2_self
      _ ≤ 2 ^ (2 * (Nat.log2 n / 2 + 1)) := Nat.pow_le_pow_right two_pos (by omega)
      _ = 4 ^ (Nat.log2 n / 2 + 1) := by rw [pow_mul]; rfl
  obtain ⟨hle, hlt⟩ := isqrtBits_spec _ n hn
  exact Nat.eq_sqrt.2 ⟨hle, hlt⟩

/-- Two reals between the same neighbouring multiples of `w` round alike when half the quantum is a
multiple of `w`: no tie and no end of a binade lies between them. -/
theorem RoundsTo.of_same_cell {m : Nat} {q : Int} {z z' w : ℝ} (h : RoundsTo m q z) (hw : 0 < w)
    (t k : ℤ) (hq : (2 : ℝ) ^ q = 2 * t * w) (hz : k * w < z ∧ z < (k + 1) * w)
    (hz' : k * w < z' ∧ z' < (k + 1) * w) : RoundsTo m q z' := by
  have above (x : ℤ) (hx : x * w ≤ z) : x * w < z' := by
    have : x < k + 1 := by exact_mod_cast lt_of_mul_lt_mul_right (hx.trans_lt hz.2) hw.le
    have : (x : ℝ) ≤ k := by exact_mod_cast Int.lt_add_one_iff.1 this
    exact (mul_le_mul_of_nonneg_right this hw.le).trans_lt hz'.1
  have below (x : ℤ) (hx : z ≤ x * w) : z' < x * w := by
    have : k < x := by exact_mod_cast lt_of_mul_lt_mul_right (hz.1.trans_le hx) hw.le
    have : (k + 1 : ℝ) ≤ x := by exact_mod_cast this
    exact hz'.2.trans_le (mul_le_mul_of_nonneg_right this hw.le)
  obtain ⟨hge, hnormal, hupper, hnear, -⟩ := h
  rw [hq] at hnormal hupper hnear
  obtain ⟨h1, h2⟩ := abs_le.1 hnear
  have a1 := above (2 * m * t - t) (by push_cast; linarith)
  have a2 := below (2 * m * t + t) (by push_cast; linarith)
  have hupper' := below (2 ^ 53 * (2 * t)) (by push_cast; linarith)
  push_cast at a1 a2 hupper'
  have near : |(m : ℝ) * (2 * t * w) - z'| < 2 * t * w / 2 := by
    rw [abs_lt]; constructor <;> linarith
  refine ⟨hge, hnormal.imp_right fun hn => ?_, ?_, ?_, fun he => ?_⟩
  · have := above (2 ^ 52 * (2 * t)) (by push_cast; linarith)
    push_cast at this
    rw [hq]; linarith
  · rw [hq]; linarith
  · rw [hq]; exact near.le
  · rw [hq] at he; exact absurd he near.ne

end Sys2Proof.Machine
end

section
/-! The square root and the comparisons. -/

namespace Sys2Proof.Machine

theorem f64Value_finite_lt {a : F64} (h : f64IsFinite a = true) : |f64Value a| < 2 ^ 1024 := by
  rw [abs_f64Value]
  have hinf : magnitudeValue (2047 * 2 ^ 52) = 2 ^ 1024 := by
    have := magnitudeValue_of_significand (m := 2 ^ 52) (q := 972) ⟨by omega, by omega, .inr le_rfl⟩
    have h1024 : (2 : ℚ) ^ 1024 = 2 ^ 52 * 2 ^ (972 : ℤ) := by
      rw [show (972 : ℤ) = (972 : ℕ) from rfl, zpow_natCast, ← pow_add]
    rw [h1024]
    exact_mod_cast this
  rw [← hinf]
  exact magnitudeValue_strictMono ((f64IsFinite_iff a).1 h)

theorem sqrt_lt_overflowBound {z : ℝ} (h : z < 2 ^ 1024) : √z < overflowBound := by
  have h2 : (2 : ℝ) ^ 1024 = (2 ^ 512) ^ 2 := by rw [← pow_mul]
  calc √z < 2 ^ 512 := (Real.sqrt_lt' (by positivity)).2 (h2 ▸ h)
    _ ≤ 2 ^ 1000 := pow_le_pow_right₀ one_le_two (by norm_num)
    _ < overflowBound := two_pow_lt_overflowBound

/-- The integer root with its sticky bit, as `fsqrt` rounds it. -/
def stickyRoot (n : Nat) : Nat := 2 * isqrt n + if isqrt n * isqrt n = n then 0 else 1

theorem isqrt_bounds (n : Nat) :
    isqrt n * isqrt n ≤ n ∧ n < (isqrt n + 1) * (isqrt n + 1) := by
  rw [isqrt_eq_sqrt]
  exact ⟨Nat.sqrt_le n, Nat.lt_succ_sqrt n⟩

/-- What the sticky root of an inexact root rounds to, the root itself rounds to: it has more than
64 bits, so half a quantum is a multiple of its unit. -/
theorem RoundsTo.of_stickyRoot {r n m : Nat} {e q : Int} (hr : 2 ^ 64 ≤ r) (hlow : r * r < n)
    (hup : n < (r + 1) * (r + 1)) (h : RoundsTo m q (((2 * r + 1 : ℕ) : ℝ) / (1 : ℕ) * 2 ^ e)) :
    RoundsTo m q (√n * 2 ^ (e + 1)) := by
  have hw : (0 : ℝ) < 2 ^ (e + 1) := by positivity
  have hval : ((2 * r + 1 : ℕ) : ℝ) / (1 : ℕ) * 2 ^ e = (r + 1 / 2) * 2 ^ (e + 1) := by
    rw [zpow_add_one₀ two_ne_zero]; push_cast; ring
  rw [hval] at h
  have hq : e + 1 < q := by
    have h64 : (2 : ℝ) ^ 64 ≤ r := by exact_mod_cast hr
    have hlow : (2 : ℝ) ^ 64 * 2 ^ (e + 1) < 2 ^ 53 * 2 ^ q := by
      refine lt_of_le_of_lt ?_ h.upper
      gcongr; linarith
    simp only [← zpow_natCast, ← zpow_add₀ (two_ne_zero (α := ℝ))] at hlow
    have := (zpow_lt_zpow_iff_right₀ one_lt_two).1 hlow
    push_cast at this
    omega
  have hroot : (r : ℝ) < √n ∧ √n < r + 1 := by
    refine ⟨Real.lt_sqrt_of_sq_lt ?_, (Real.sqrt_lt' (by positivity)).2 ?_⟩
    · rw [sq]; exact_mod_cast hlow
    · rw [sq]; exact_mod_cast hup
  refine h.of_same_cell hw (2 ^ (q - (e + 2)).toNat) r ?_ ⟨?_, ?_⟩ ⟨?_, ?_⟩
  · have : q = (q - (e + 2)).toNat + 1 + (e + 1) := by omega
    conv_lhs => rw [this]
    rw [zpow_add₀ two_ne_zero, zpow_add_one₀ two_ne_zero, zpow_natCast]
    push_cast; ring
  all_goals push_cast; gcongr
  · linarith
  · linarith
  · exact hroot.1
  · exact hroot.2

/-- The sticky root is rounded as the exact root. -/
theorem stickyRoot_nearestEven {n : Nat} (hn : 2 ^ 128 ≤ n) (e : Int)
    (hz : √n * 2 ^ (e + 1) < overflowBound) :
    NearestEven (roundRatio false (stickyRoot n) 1 e) (√n * 2 ^ (e + 1)) := by
  have hr : 2 ^ 64 ≤ isqrt n := by
    rw [isqrt_eq_sqrt]; exact Nat.le_sqrt.2 (le_trans (by norm_num) hn)
  obtain ⟨hle, hlt⟩ := isqrt_bounds n
  unfold stickyRoot
  generalize isqrt n = r at *
  by_cases hexact : r * r = n
  · have hroot : √(n : ℝ) = r := by
      rw [← hexact, Nat.cast_mul, Real.sqrt_mul_self (Nat.cast_nonneg r)]
    have hval : ((2 * r : ℕ) : ℝ) / (1 : ℕ) * 2 ^ e = √n * 2 ^ (e + 1) := by
      rw [hroot, zpow_add_one₀ two_ne_zero]; push_cast; ring
    have h := roundRatio_nearestEven false (2 * r) one_pos e (hval ▸ hz)
    rw [if_pos hexact, add_zero]
    rwa [hval, signOf, if_neg (by simp), one_mul] at h
  · obtain ⟨m, q, hround, h⟩ := roundRatio_spec false (2 * r + 1) one_pos e
    rw [if_neg hexact, hround]
    have h' := h.of_stickyRoot hr (lt_of_le_of_ne hle hexact) hlt
    simpa [signOf] using h'.nearestEven hz false

/-- The significand `fsqrt` takes the root of: that of `a` at an even scale. -/
theorem fsqrt_significand (a : F64) :
    (f64Significand a : ℝ) * 2 ^ f64Scale a =
      (if f64Scale a % 2 = 0 then f64Significand a else 2 * f64Significand a : ℕ) *
        (2 ^ ((f64Scale a - f64Scale a % 2) / 2)) ^ 2 := by
  generalize f64Scale a = e
  rw [← zpow_natCast, ← zpow_mul]
  split
  next he => rw [show (e - e % 2) / 2 * (2 : ℕ) = e by push_cast; omega]
  next he =>
    rw [show e = (e - e % 2) / 2 * (2 : ℕ) + 1 by push_cast; omega, zpow_add_one₀ two_ne_zero]
    rw [show (((e - e % 2) / 2 * (2 : ℕ) + 1) - ((e - e % 2) / 2 * (2 : ℕ) + 1) % 2) / 2 =
      (e - e % 2) / 2 by push_cast; omega]
    push_cast; ring

theorem fsqrt_finite {a : F64} (hfin : f64IsFinite a = true) (hpos : f64Negative a = false)
    (hz : f64IsZero a = false) :
    NearestEven (fsqrt a) (√(f64Value a : ℝ)) ∧ f64Negative (fsqrt a) = false := by
  obtain ⟨hnan, hinf⟩ := f64IsFinite_excludes hfin
  have hlt : (f64Value a : ℝ) < 2 ^ 1024 := by
    exact_mod_cast (abs_lt.1 (f64Value_finite_lt hfin)).2
  have hval : (f64Value a : ℝ) = f64Significand a * 2 ^ f64Scale a := by
    rw [f64Value_eq_significand, hpos]; simp
  have hsig := f64Significand_pos hz
  have hsqrt := sqrt_lt_overflowBound hlt
  rw [hval, fsqrt_significand] at *
  simp only [fsqrt, hnan, hz, hpos, hinf, Bool.false_eq_true, if_false]
  rw [show (f64Scale a - f64Scale a % 2 - 128) / 2 - 1 =
    (f64Scale a - f64Scale a % 2) / 2 - 65 by omega]
  generalize (f64Scale a - f64Scale a % 2) / 2 = h at *
  generalize hm : (if f64Scale a % 2 = 0 then f64Significand a else 2 * f64Significand a) = m at *
  have hm0 : 0 < m := by rw [← hm]; split <;> omega
  have hroot : √((m : ℝ) * (2 ^ h) ^ 2) = √((m * 2 ^ 128 : ℕ) : ℝ) * 2 ^ (h - 65 + 1) := by
    rw [Real.sqrt_mul (by positivity), Real.sqrt_sq (by positivity), Nat.cast_mul,
      Real.sqrt_mul (by positivity), show (h - 65 + 1 : ℤ) = h - 64 by ring,
      zpow_sub₀ two_ne_zero]
    have : √((2 ^ 128 : ℕ) : ℝ) = 2 ^ 64 := by
      rw [show ((2 ^ 128 : ℕ) : ℝ) = (2 ^ 64) ^ 2 by norm_num, Real.sqrt_sq (by positivity)]
    rw [this]
    have : (2 : ℝ) ^ (64 : ℤ) = 2 ^ 64 := by norm_cast
    rw [this]; field_simp
  rw [hroot] at hsqrt ⊢
  exact ⟨stickyRoot_nearestEven (by omega) (h - 65) hsqrt, f64Negative_roundRatio _ _ one_pos _⟩

/-- A finite value is the value nearest itself. -/
theorem nearestEven_self {a : F64} (h : f64IsFinite a = true) : NearestEven a (f64Value a : ℝ) := by
  refine ⟨h, fun c _ => ?_⟩
  rw [sub_self, abs_zero]
  refine ⟨abs_nonneg _, fun he hne => absurd ?_ hne⟩
  exact_mod_cast sub_eq_zero.1 (abs_eq_zero.1 he.symm)

/-- Settles O57: a non-zero finite value by its sticky root, the rest by the classes of operands. -/
theorem squareRootRoundsExactResult : Obligations.SquareRootRoundsExactResult := by
  intro a
  have nan (h : f64IsNaN a = true) : f64IsNaN (fsqrt a) = true := by
    rw [fsqrt, if_pos h, f64IsNaN_f64NaN]
  have zero (h : f64IsZero a = true) : fsqrt a = a := by
    have : f64IsNaN a = false := by
      rw [f64IsZero_iff] at h
      rw [← Bool.not_eq_true, f64IsNaN_iff]; omega
    simp [fsqrt, this, h]
  refine ⟨fun hfin hpos => ?_, zero, fun hinf hpos => ?_, nan, fun hnan hz hneg => ?_⟩
  · cases hz : f64IsZero a with
    | false => exact fsqrt_finite hfin hpos hz
    | true =>
      have hv := (f64Value_eq_zero a).2 hz
      have hs : √((f64Value a : ℚ) : ℝ) = (f64Value a : ℝ) := by simp [hv]
      rw [zero hz, hs]
      exact ⟨nearestEven_self hfin, hpos⟩
  · obtain ⟨hnan, hz, -⟩ := f64IsInf_excludes hinf
    simp [fsqrt, hnan, hz, hpos, hinf]
  · simp [fsqrt, hnan, hz, hneg, f64IsNaN_f64NaN]

/-! ## Comparisons -/

/-- The value of an order number: the value of its magnitude with its sign. -/
def orderValue (n : Int) : ℚ := n.sign * magnitudeValue n.natAbs

theorem orderValue_of_nonneg {n : Int} (h : 0 ≤ n) : orderValue n = magnitudeValue n.natAbs := by
  rcases h.eq_or_lt with rfl | h
  · simp [orderValue]
  · simp [orderValue, Int.sign_eq_one_of_pos h]

theorem orderValue_strictMono : StrictMono orderValue := by
  refine strictMono_of_odd_strictMonoOn_nonneg (fun n => ?_) fun x hx y hy hxy => ?_
  · simp [orderValue]
  · rw [orderValue_of_nonneg hx, orderValue_of_nonneg hy]
    exact magnitudeValue_strictMono (Int.natAbs_lt_natAbs_of_nonneg_of_lt hx hxy)

theorem f64Order_eq (a : F64) :
    f64Order a = if f64Negative a then -(f64Magnitude a : Int) else f64Magnitude a := rfl

theorem f64Value_eq_orderValue (a : F64) : f64Value a = orderValue (f64Order a) := by
  rw [f64Value_eq, f64Order_eq]
  rcases Nat.eq_zero_or_pos (f64Magnitude a) with h | h
  · simp [h, orderValue]
  · cases f64Negative a <;> simp [orderValue, Int.sign_eq_one_of_pos, h]

theorem f64Order_bounds {a : F64} (h : f64IsNaN a = false) :
    -(2047 * 2 ^ 52) ≤ f64Order a ∧ f64Order a ≤ 2047 * 2 ^ 52 := by
  rw [← Bool.not_eq_true, f64IsNaN_iff] at h
  rw [f64Order_eq]
  split <;> omega

/-- Only the infinity of a sign has its order. -/
theorem f64Order_eq_inf_iff (a : F64) (negative : Bool) :
    f64Order a = (if negative then -(2047 * 2 ^ 52) else 2047 * 2 ^ 52) ↔ a = f64Inf negative := by
  constructor
  · intro h
    rw [f64Order_eq] at h
    refine f64_ext ?_ ?_
    · rw [f64Inf_eq, f64Negative_ofMagnitude _ (by omega)]
      cases hn : f64Negative a <;> cases negative <;> simp [hn] at h ⊢
      all_goals omega
    · rw [f64Inf_eq, f64Magnitude_ofMagnitude _ (by omega)]
      cases hn : f64Negative a <;> cases negative <;> simp [hn] at h
      all_goals omega
  · rintro rfl
    rw [f64Order_eq, f64Inf_eq, f64Magnitude_ofMagnitude _ (by omega),
      f64Negative_ofMagnitude _ (by omega)]
    cases negative <;> rfl

theorem flt_iff {a b : F64} (ha : f64IsNaN a = false) (hb : f64IsNaN b = false) :
    flt a b = true ↔ f64Order a < f64Order b := by simp [flt, ha, hb]

theorem fle_iff {a b : F64} (ha : f64IsNaN a = false) (hb : f64IsNaN b = false) :
    fle a b = true ↔ f64Order a ≤ f64Order b := by simp [fle, ha, hb]

/-- Settles O58: the order numbers are ordered as the values, with the infinities at both ends. -/
theorem comparisonsFollowValues : Obligations.ComparisonsFollowValues := by
  refine ⟨fun a b ha hb => ?_, fun a b h => ?_, fun a ha => ?_⟩
  · obtain ⟨hna, -⟩ := f64IsFinite_excludes ha
    obtain ⟨hnb, -⟩ := f64IsFinite_excludes hb
    rw [flt_iff hna hnb, fle_iff hna hnb, f64Value_eq_orderValue, f64Value_eq_orderValue,
      orderValue_strictMono.lt_iff_lt, orderValue_strictMono.le_iff_le]
    exact ⟨Iff.rfl, Iff.rfl⟩
  · rcases h with h | h <;> simp [flt, fle, h]
  · have hneg : f64Order (f64Inf true) = -(2047 * 2 ^ 52) := (f64Order_eq_inf_iff _ true).2 rfl
    have hpos : f64Order (f64Inf false) = 2047 * 2 ^ 52 := (f64Order_eq_inf_iff _ false).2 rfl
    have eqneg := f64Order_eq_inf_iff a true
    have eqpos := f64Order_eq_inf_iff a false
    obtain ⟨low, up⟩ := f64Order_bounds ha
    have nneg : f64IsNaN (f64Inf true) = false := by decide
    have npos : f64IsNaN (f64Inf false) = false := by decide
    simp only [← Bool.not_eq_true, Ne, ← eqneg, ← eqpos, flt_iff nneg ha, flt_iff ha nneg,
      flt_iff npos ha, flt_iff ha npos, fle_iff nneg ha, fle_iff ha npos, fle_iff ha nneg,
      fle_iff npos ha, hneg, hpos]
    simp only [if_true, Bool.false_eq_true, if_false]
    omega

end Sys2Proof.Machine
end

section
/-! Enclosures: a value between two numbers that round alike rounds as they do. -/

namespace Sys2Proof.Machine

/-! ## Rounding the ends of an enclosure -/

/-- A finite value nearest both ends of an interval is the nearest one all along it: the midpoint
towards any other value lies outside, or is the end itself. -/
theorem NearestEven.of_between {r : F64} {x y z : ℝ} (hx : NearestEven r x) (hy : NearestEven r y)
    (hxz : x ≤ z) (hzy : z ≤ y) : NearestEven r z := by
  obtain ⟨hfin, hx⟩ := hx
  refine ⟨hfin, fun c hc => ?_⟩
  obtain ⟨hxc, hxe⟩ := hx c hc
  obtain ⟨hyc, hye⟩ := hy.2 c hc
  -- the square of the distance makes every comparison one with the midpoint
  have closer (w : ℝ) : |(f64Value r : ℝ) - w| ≤ |(f64Value c : ℝ) - w| ↔
      2 * w * (f64Value c - f64Value r) ≤ (f64Value c : ℝ) ^ 2 - (f64Value r : ℝ) ^ 2 := by
    rw [← sq_le_sq]; constructor <;> intro h <;> linarith
  have tie (w : ℝ) : |(f64Value r : ℝ) - w| = |(f64Value c : ℝ) - w| ↔
      2 * w * (f64Value c - f64Value r) = (f64Value c : ℝ) ^ 2 - (f64Value r : ℝ) ^ 2 := by
    rw [← sq_eq_sq_iff_abs_eq_abs]; constructor <;> intro h <;> linarith
  rw [closer] at hxc hyc
  rw [tie] at hxe hye
  rw [closer, tie]
  rcases le_total (f64Value r : ℝ) (f64Value c) with h | h
  · have step := mul_le_mul_of_nonneg_right hzy (sub_nonneg.2 h)
    exact ⟨by linarith, fun e => hye (by linarith)⟩
  · have step := mul_le_mul_of_nonneg_right hxz (sub_nonneg.2 h)
    exact ⟨by linarith, fun e => hxe (by linarith)⟩

/-- `roundFixed` rounds its fixed-point number. -/
theorem roundFixed_nearestEven (p : Nat) (v : Int) (hv : |(v : ℝ) / 2 ^ p| ≤ 2 ^ 53) :
    NearestEven (roundFixed p v) ((v : ℝ) / 2 ^ p) := by
  have hval : signOf (decide (v < 0)) * ((v.natAbs : ℝ) / (1 : ℕ) * 2 ^ (-(p : ℤ))) =
      v / 2 ^ p := by
    rw [Nat.cast_one, div_one, ← mul_assoc, signOf_natAbs, zpow_neg, zpow_natCast, div_eq_mul_inv]
  have habs : (v.natAbs : ℝ) / (1 : ℕ) * 2 ^ (-(p : ℤ)) = |(v : ℝ) / 2 ^ p| := by
    rw [← hval, abs_mul, abs_signOf, one_mul, abs_of_nonneg (by positivity)]
  have h := roundRatio_nearestEven (decide (v < 0)) v.natAbs one_pos (-(p : ℤ))
    (lt_overflowBound_of_le (habs ▸ hv))
  rwa [hval] at h

/-- A settled enclosure answers the value nearest every number in it. -/
theorem roundEnclosure_nearestEven {p : Nat} {lo hi : Int} {r : F64} {z : ℝ}
    (h : roundEnclosure p lo hi = some r) (hlo : (lo : ℝ) ≤ 2 ^ p * z) (hhi : 2 ^ p * z ≤ hi)
    (hz : |z| ≤ 2 ^ 52) (hwidth : (hi : ℝ) - lo ≤ 2 ^ p * 2 ^ 52) : NearestEven r z := by
  have hp : (0 : ℝ) < 2 ^ p := by positivity
  unfold roundEnclosure at h
  split at h
  next heq =>
    obtain rfl := Option.some.inj h
    have hlo' : (lo : ℝ) / 2 ^ p ≤ z := (div_le_iff₀' hp).2 hlo
    have hhi' : z ≤ (hi : ℝ) / 2 ^ p := (le_div_iff₀' hp).2 hhi
    have hwidth' : (hi : ℝ) / 2 ^ p - lo / 2 ^ p ≤ 2 ^ 52 := by
      rw [← sub_div]; exact (div_le_iff₀' hp).2 hwidth
    obtain ⟨hz1, hz2⟩ := abs_le.1 hz
    refine (roundFixed_nearestEven p lo ?_).of_between
      (heq ▸ roundFixed_nearestEven p hi ?_) hlo' hhi'
    · rw [abs_le]; constructor <;> linarith
    · rw [abs_le]; constructor <;> linarith
  next => cases h

/-- Of two enclosures tried in turn, one that is settled answers. -/
theorem orElse_getD_of_isSome {α : Type} {x y : Option α} (d : α)
    (h : x.isSome = true ∨ y.isSome = true) :
    x = some ((x <|> y).getD d) ∨ y = some ((x <|> y).getD d) := by
  cases x with
  | some v => exact .inl rfl
  | none =>
    cases y with
    | some v => exact .inr rfl
    | none => simp at h

/-- The integer quotient is the ratio less a truncation below one unit. -/
theorem natDiv_bounds (n d : Nat) :
    (n : ℝ) / d - 1 ≤ (n / d : Nat) ∧ ((n / d : Nat) : ℝ) ≤ n / d := by
  rw [← Nat.floor_div_eq_div (K := ℝ)]
  exact ⟨(Nat.sub_one_lt_floor _).le, Nat.floor_le (by positivity)⟩

/-! ## The Taylor series in fixed point -/

/-- The term `y ^ j / j!` in units of `2 ^ -p`. -/
noncomputable def taylorTerm (p : Nat) (y : ℝ) (j : Nat) : ℝ := 2 ^ p * y ^ j / j.factorial

theorem taylorTerm_succ (p : Nat) (y : ℝ) (j : Nat) :
    taylorTerm p y (j + 1) = taylorTerm p y j * y / (j + 1) := by
  have : (j.factorial : ℝ) ≠ 0 := by exact_mod_cast j.factorial_ne_zero
  rw [taylorTerm, taylorTerm, Nat.factorial_succ, pow_succ]
  push_cast
  field_simp

/-- How far below its exact value truncation can leave the term `j`, for arguments up to 8: each
step multiplies the error by at most `8 / (j + 1)` and adds a unit. -/
noncomputable def truncationError : Nat → ℝ
  | 0 => 0
  | j + 1 => truncationError j * 8 / (j + 1) + 1

theorem truncationError_nonneg (j : Nat) : 0 ≤ truncationError j := by
  induction j with
  | zero => exact le_rfl
  | succ j ih => rw [truncationError]; positivity

theorem truncationError_le (j : Nat) : truncationError j ≤ 80 := by
  rcases le_or_gt j 8 with h | h
  · interval_cases j <;> norm_num [truncationError]
  · induction j, h using Nat.le_induction with
    | base => norm_num [truncationError]
    | succ j hj ih =>
      have hj' : (9 : ℝ) ≤ j := by exact_mod_cast hj
      have : truncationError j * 8 / (j + 1) ≤ 64 := by
        rw [div_le_iff₀ (by positivity)]; linarith
      rw [truncationError]; linarith

/-- `t` is the term `j` of the series at `y`, truncated. -/
def IsTruncatedTerm (p : Nat) (y : ℝ) (j t : Nat) : Prop :=
  taylorTerm p y j - truncationError j ≤ t ∧ t ≤ taylorTerm p y j

theorem IsTruncatedTerm.step {p x j t : Nat} {y : ℝ} (hx : (x : ℝ) = 2 ^ p * y) (h0 : 0 ≤ y)
    (h8 : y ≤ 8) (h : IsTruncatedTerm p y j t) :
    IsTruncatedTerm p y (j + 1) (t * x / (2 ^ p * (j + 1))) := by
  obtain ⟨hlow, hup⟩ := h
  have ratio : ((t * x : ℕ) : ℝ) / ((2 ^ p * (j + 1) : ℕ) : ℝ) = t * y / (j + 1) := by
    push_cast; rw [hx]; field_simp
  obtain ⟨dlow, dup⟩ := natDiv_bounds (t * x) (2 ^ p * (j + 1))
  rw [ratio] at dlow dup
  refine ⟨?_, dup.trans ?_⟩
  · have lower : (taylorTerm p y j * y - truncationError j * 8) / (j + 1) ≤ t * y / (j + 1) := by
      gcongr
      have := mul_le_mul_of_nonneg_right hlow h0
      have := mul_le_mul_of_nonneg_left h8 (truncationError_nonneg j)
      linarith
    rw [taylorTerm_succ, truncationError]
    rw [sub_div] at lower
    linarith
  · rw [taylorTerm_succ]; gcongr

/-- The fixed-point sum is the partial sum of the series but for the truncations of its terms. -/
theorem taylorSum_error {p x : Nat} {y : ℝ} (hx : (x : ℝ) = 2 ^ p * y) (h0 : 0 ≤ y) (h8 : y ≤ 8)
    (count : Nat) : ∀ (j t : Nat), IsTruncatedTerm p y j t →
      |(taylorSum p x count j t : ℝ) -
        ∑ i ∈ Finset.range count, (-1) ^ i * taylorTerm p y (j + 2 * i)| ≤ 80 * count := by
  induction count with
  | zero => intro j t _; simp [taylorSum]
  | succ count ih =>
    intro j t h
    have rest := ih (j + 2) _ ((h.step hx h0 h8).step hx h0 h8)
    have shift : ∑ i ∈ Finset.range (count + 1), (-1) ^ i * taylorTerm p y (j + 2 * i) =
        taylorTerm p y j -
          ∑ i ∈ Finset.range count, (-1) ^ i * taylorTerm p y (j + 2 + 2 * i) := by
      rw [Finset.sum_range_succ', sub_eq_neg_add, ← Finset.sum_neg_distrib]
      congr 1
      · refine Finset.sum_congr rfl fun i _ => ?_
        rw [show j + 2 * (i + 1) = j + 2 + 2 * i by ring]
        ring
      · simp
    have first : |(t : ℝ) - taylorTerm p y j| ≤ 80 := by
      have := truncationError_le j
      rw [abs_le]; constructor <;> linarith [h.1, h.2]
    rw [shift, taylorSum]
    push_cast
    rw [abs_le] at first rest ⊢
    constructor <;> linarith [first.1, first.2, rest.1, rest.2]

/-! ## The partial sums and the cosine and sine -/

/-- The partial sums of the exponential series at `y i`. -/
theorem exp_partialSum (y : ℝ) (count : Nat) :
    ∑ m ∈ Finset.range (2 * count), (y * Complex.I) ^ m / (m.factorial : ℂ) =
      ((∑ i ∈ Finset.range count, (-1) ^ i * taylorTerm 0 y (0 + 2 * i) : ℝ) : ℂ) +
      ((∑ i ∈ Finset.range count, (-1) ^ i * taylorTerm 0 y (1 + 2 * i) : ℝ) : ℂ) * Complex.I := by
  induction count with
  | zero => simp
  | succ count ih =>
    have hI : Complex.I ^ (2 * count) = (-1) ^ count := by rw [pow_mul, Complex.I_sq]
    rw [Nat.mul_succ, Finset.sum_range_succ, Finset.sum_range_succ, ih, Finset.sum_range_succ,
      Finset.sum_range_succ, taylorTerm, taylorTerm, zero_add, add_comm 1, mul_pow, mul_pow,
      pow_succ Complex.I, hI]
    push_cast
    ring

/-- Both series truncated after `count` terms, for arguments up to 8. -/
theorem trig_partialSum_error {y : ℝ} (h0 : 0 ≤ y) (h8 : y ≤ 8) {count : Nat} (hc : 8 ≤ count) :
    |Real.cos y - ∑ i ∈ Finset.range count, (-1) ^ i * taylorTerm 0 y (0 + 2 * i)| ≤
      8 ^ (2 * count) / (2 * count).factorial * 2 ∧
    |Real.sin y - ∑ i ∈ Finset.range count, (-1) ^ i * taylorTerm 0 y (1 + 2 * i)| ≤
      8 ^ (2 * count) / (2 * count).factorial * 2 := by
  have hnorm : ‖(y : ℂ) * Complex.I‖ = y := by simp [abs_of_nonneg h0]
  have hratio : ‖(y : ℂ) * Complex.I‖ / (2 * count).succ ≤ 1 / 2 := by
    have : (8 : ℝ) ≤ count := by exact_mod_cast hc
    rw [hnorm, div_le_iff₀ (by positivity)]
    push_cast
    linarith
  have bound := Complex.exp_bound' hratio
  rw [hnorm, exp_partialSum] at bound
  have bound8 := bound.trans (show y ^ (2 * count) / (2 * count).factorial * 2 ≤
    8 ^ (2 * count) / (2 * count).factorial * 2 by gcongr)
  generalize ∑ i ∈ Finset.range count, (-1) ^ i * taylorTerm 0 y (0 + 2 * i) = C at *
  generalize ∑ i ∈ Finset.range count, (-1) ^ i * taylorTerm 0 y (1 + 2 * i) = S at *
  constructor
  · have h := (Complex.abs_re_le_norm _).trans bound8
    simpa [Complex.exp_ofReal_mul_I_re] using h
  · have h := (Complex.abs_im_le_norm _).trans bound8
    simpa [Complex.exp_ofReal_mul_I_im] using h

/-- A precision and a count of terms whose truncation after the last term is below a unit. -/
structure TrigPrecision (p count : Nat) : Prop where
  precise : 32 ≤ p
  enough : 8 ≤ count
  few : count ≤ 112
  tail : 2 ^ p * (8 ^ (2 * count) * 2) ≤ (2 * count).factorial

theorem trigPrecision_of_mem {p count : Nat} (h : (p, count) ∈ [(256, 64), (512, 112)]) :
    TrigPrecision p count := by
  simp only [List.mem_cons, Prod.mk.injEq, List.not_mem_nil, or_false] at h
  rcases h with ⟨rfl, rfl⟩ | ⟨rfl, rfl⟩
  · exact ⟨by decide, by decide, by decide, by decide +kernel⟩
  · exact ⟨by decide, by decide, by decide, by decide +kernel⟩

theorem taylorTerm_scaled (p : Nat) (y : ℝ) (j : Nat) :
    taylorTerm p y j = 2 ^ p * taylorTerm 0 y j := by
  rw [taylorTerm, taylorTerm]; ring

/-- At such a precision the partial sum of a series is off by at most a unit. -/
theorem TrigPrecision.partialSum_scaled {p count j : Nat} (hp : TrigPrecision p count) {y z : ℝ}
    (h : |z - ∑ i ∈ Finset.range count, (-1) ^ i * taylorTerm 0 y (j + 2 * i)| ≤
      8 ^ (2 * count) / (2 * count).factorial * 2) :
    |2 ^ p * z - ∑ i ∈ Finset.range count, (-1) ^ i * taylorTerm p y (j + 2 * i)| ≤ 1 := by
  have hpos : (0 : ℝ) < 2 ^ p := by positivity
  have scale : ∑ i ∈ Finset.range count, (-1) ^ i * taylorTerm p y (j + 2 * i) =
      2 ^ p * ∑ i ∈ Finset.range count, (-1) ^ i * taylorTerm 0 y (j + 2 * i) := by
    rw [Finset.mul_sum]
    exact Finset.sum_congr rfl fun i _ => by rw [taylorTerm_scaled]; ring
  have tail : (2 : ℝ) ^ p * (8 ^ (2 * count) * 2) ≤ (2 * count).factorial := by
    exact_mod_cast hp.tail
  rw [scale, ← mul_sub, abs_mul, abs_of_pos hpos]
  calc (2 : ℝ) ^ p * _ ≤ 2 ^ p * (8 ^ (2 * count) / (2 * count).factorial * 2) :=
        mul_le_mul_of_nonneg_left h hpos.le
    _ = 2 ^ p * (8 ^ (2 * count) * 2) / (2 * count).factorial := by ring
    _ ≤ 1 := div_le_one_of_le₀ tail (by positivity)

/-- The fixed-point argument is the exact one, rounded down. -/
theorem fixedOf_bounds (p : Nat) (a : F64) :
    2 ^ p * (|f64Value a| : ℚ) - 1 ≤ (fixedOf p a : ℝ) ∧
      (fixedOf p a : ℝ) ≤ 2 ^ p * (|f64Value a| : ℚ) := by
  have h := natDiv_bounds (f64Significand a * 2 ^ (f64Scale a + p).toNat)
    (1 * 2 ^ (-(f64Scale a + p)).toNat)
  rw [ratio_scaled, one_mul] at h
  have hval : (f64Significand a : ℝ) / (1 : ℕ) * 2 ^ (f64Scale a + p) =
      2 ^ p * ((|f64Value a| : ℚ) : ℝ) := by
    rw [abs_f64Value, magnitudeValue, f64Significand_eq, f64Scale_eq, zpow_add₀ two_ne_zero,
      zpow_natCast]
    push_cast
    ring
  rwa [hval] at h

/-- A series summed in fixed point at the truncated argument is off by less than the slack the
enclosures allow, whatever function with slope at most 1 the series belongs to. -/
theorem taylorSum_within_slack {p count j : Nat} (hp : TrigPrecision p count) {a : F64}
    (ha : |f64Value a| < 8) {f : ℝ → ℝ} (lipschitz : ∀ x y, |f x - f y| ≤ |x - y|) (t : Nat)
    (ht : IsTruncatedTerm p (fixedOf p a / 2 ^ p) j t)
    (series : ∀ y, 0 ≤ y → y ≤ 8 →
      |f y - ∑ i ∈ Finset.range count, (-1) ^ i * taylorTerm 0 y (j + 2 * i)| ≤
        8 ^ (2 * count) / (2 * count).factorial * 2) :
    |(taylorSum p (fixedOf p a) count j t : ℝ) - 2 ^ p * f (|f64Value a| : ℚ)| ≤ taylorSlack := by
  have hpos : (0 : ℝ) < 2 ^ p := by positivity
  obtain ⟨xlow, xup⟩ := fixedOf_bounds p a
  have ha' : ((|f64Value a| : ℚ) : ℝ) < 8 := by exact_mod_cast ha
  generalize ((|f64Value a| : ℚ) : ℝ) = A at *
  generalize hy : (fixedOf p a : ℝ) / 2 ^ p = y at *
  have hx : (fixedOf p a : ℝ) = 2 ^ p * y := by rw [← hy]; field_simp
  have h0 : 0 ≤ y := by rw [← hy]; positivity
  have hyA : y ≤ A := by rw [← hy]; exact (div_le_iff₀' hpos).2 xup
  have h8 : y ≤ 8 := hyA.trans ha'.le
  have sum := taylorSum_error hx h0 h8 count j t ht
  have trunc := hp.partialSum_scaled (series y h0 h8)
  have arg : |2 ^ p * f y - 2 ^ p * f A| ≤ 1 := by
    rw [← mul_sub, abs_mul, abs_of_pos hpos]
    calc 2 ^ p * |f y - f A| ≤ 2 ^ p * |y - A| := mul_le_mul_of_nonneg_left (lipschitz y A) hpos.le
      _ = 2 ^ p * A - 2 ^ p * y := by rw [abs_sub_comm, abs_of_nonneg (sub_nonneg.2 hyA)]; ring
      _ ≤ 1 := by rw [← hx]; linarith
  have few : (count : ℝ) ≤ 112 := by exact_mod_cast hp.few
  have slack : (taylorSlack : ℝ) = 2 ^ 32 := by rw [taylorSlack]; norm_num
  rw [slack]
  rw [abs_le] at sum trunc arg ⊢
  constructor <;> linarith [sum.1, sum.2, trunc.1, trunc.2, arg.1, arg.2]

/-! ## Cosine and sine -/

theorem f64Value_lt_eight {a : F64} (h : trigComputed a = true) : |f64Value a| < 8 := by
  simp only [trigComputed, Bool.and_eq_true, decide_eq_true_eq] at h
  have h8 : magnitudeValue 0x4020000000000000 = 8 := by
    have := magnitudeValue_of_significand (m := 2 ^ 52) (q := -49) ⟨by omega, by omega, .inr le_rfl⟩
    norm_num at this
    exact this
  rw [abs_f64Value, ← h8]
  exact magnitudeValue_strictMono h.2

/-- The enclosure of width twice the slack around a number within the slack of a cosine or sine. -/
theorem enclosure_nearestEven {p : Nat} (hp : 32 ≤ p) {v : Int} {r : F64} {z : ℝ} (hz : |z| ≤ 1)
    (hv : |(v : ℝ) - 2 ^ p * z| ≤ taylorSlack)
    (h : roundEnclosure p (v - taylorSlack) (v + taylorSlack) = some r) : NearestEven r z := by
  obtain ⟨h1, h2⟩ := abs_le.1 hv
  refine roundEnclosure_nearestEven h ?_ ?_ (hz.trans (by norm_num)) ?_
  · push_cast; linarith
  · push_cast; linarith
  · have slack : (taylorSlack : ℝ) = 2 ^ 32 := by rw [taylorSlack]; norm_num
    have : (2 : ℝ) ^ 32 ≤ 2 ^ p := pow_le_pow_right₀ one_le_two hp
    push_cast
    rw [slack]
    linarith

theorem cosEnclosure_nearestEven {p count : Nat} (hp : TrigPrecision p count) {a r : F64}
    (ha : |f64Value a| < 8) (h : cosEnclosure p count a = some r) :
    NearestEven r (Real.cos (f64Value a : ℝ)) := by
  refine enclosure_nearestEven hp.precise (Real.abs_cos_le_one _) ?_ h
  rw [← Real.cos_abs, ← Rat.cast_abs]
  refine taylorSum_within_slack hp ha Real.abs_cos_sub_cos_le (2 ^ p) ?_
    fun y h0 h8 => (trig_partialSum_error h0 h8 hp.enough).1
  simp [IsTruncatedTerm, taylorTerm, truncationError]

theorem sin_signed (a : F64) :
    Real.sin (f64Value a : ℝ) = signOf (f64Negative a) * Real.sin (|f64Value a| : ℚ) := by
  rw [abs_f64Value, f64Value_real]
  cases f64Negative a <;> simp [signOf]

theorem sinEnclosure_nearestEven {p count : Nat} (hp : TrigPrecision p count) {a r : F64}
    (ha : |f64Value a| < 8) (h : sinEnclosure p count a = some r) :
    NearestEven r (Real.sin (f64Value a : ℝ)) := by
  refine enclosure_nearestEven hp.precise (Real.abs_sin_le_one _) ?_ h
  have first : IsTruncatedTerm p (fixedOf p a / 2 ^ p) 1 (fixedOf p a) := by
    have : (2 : ℝ) ^ p * (fixedOf p a / 2 ^ p) = fixedOf p a := by field_simp
    simp [IsTruncatedTerm, taylorTerm, truncationError, this]
  have sum := taylorSum_within_slack hp ha Real.abs_sin_sub_sin_le _ first
    fun y h0 h8 => (trig_partialSum_error h0 h8 hp.enough).2
  rw [sin_signed]
  cases f64Negative a with
  | false => simpa [signOf] using sum
  | true =>
    rw [← abs_neg]
    simpa [signOf, ← sub_eq_add_neg, neg_add_eq_sub] using sum

theorem f64Value_one : f64Value f64One = 1 := by
  have h : f64OfInt 1 = f64One := by decide +kernel
  have := (f64OfInt_exact (v := 1) (by norm_num)).2
  rw [h] at this
  exact_mod_cast this

theorem fcos_zero {a : F64} (h : f64IsZero a = true) : fcos a = f64One := by rw [fcos, if_pos h]

theorem fsin_zero {a : F64} (h : f64IsZero a = true) : fsin a = a := by rw [fsin, if_pos h]

theorem fcos_nearestEven {a : F64} (ha : trigComputed a = true)
    (h : (cosEnclosure 256 64 a).isSome = true ∨ (cosEnclosure 512 112 a).isSome = true) :
    NearestEven (fcos a) (Real.cos (f64Value a : ℝ)) := by
  have hlt := f64Value_lt_eight ha
  by_cases hz : f64IsZero a = true
  · have hone : Real.cos ((f64Value a : ℚ) : ℝ) = ((f64Value f64One : ℚ) : ℝ) := by
      simp [(f64Value_eq_zero a).2 hz, f64Value_one]
    rw [fcos_zero hz, hone]
    exact nearestEven_self (by decide)
  · rw [fcos, if_neg hz, if_pos ha]
    obtain hr | hr := orElse_getD_of_isSome (Config.elementary .cos a) h
    · exact cosEnclosure_nearestEven (trigPrecision_of_mem (by simp)) hlt hr
    · exact cosEnclosure_nearestEven (trigPrecision_of_mem (by simp)) hlt hr

theorem fsin_nearestEven {a : F64} (ha : trigComputed a = true)
    (h : (sinEnclosure 256 64 a).isSome = true ∨ (sinEnclosure 512 112 a).isSome = true) :
    NearestEven (fsin a) (Real.sin (f64Value a : ℝ)) := by
  have hlt := f64Value_lt_eight ha
  by_cases hz : f64IsZero a = true
  · have hself : Real.sin ((f64Value a : ℚ) : ℝ) = ((f64Value a : ℚ) : ℝ) := by
      simp [(f64Value_eq_zero a).2 hz]
    rw [fsin_zero hz, hself]
    simp only [trigComputed, Bool.and_eq_true] at ha
    exact nearestEven_self ha.1
  · rw [fsin, if_neg hz, if_pos ha]
    obtain hr | hr := orElse_getD_of_isSome (Config.elementary .sin a) h
    · exact sinEnclosure_nearestEven (trigPrecision_of_mem (by simp)) hlt hr
    · exact sinEnclosure_nearestEven (trigPrecision_of_mem (by simp)) hlt hr

/-- Settles O59: each enclosure contains the exact value, and one that is settled rounds as that
value does. -/
theorem settledCosineSineCorrectlyRounded : Obligations.SettledCosineSineCorrectlyRounded := by
  refine ⟨fun p count a r hp ha => ?_,
    fun a ha => ⟨fun h => fcos_nearestEven ha h, fun h => fsin_nearestEven ha h⟩,
    fun a h => ⟨fcos_zero h, fsin_zero h⟩⟩
  have hlt := f64Value_lt_eight ha
  have hp := trigPrecision_of_mem hp
  exact ⟨fun h => cosEnclosure_nearestEven hp hlt h, fun h => sinEnclosure_nearestEven hp hlt h⟩

end Sys2Proof.Machine
end

section
/-! The enclosure of the natural logarithm. -/

namespace Sys2Proof.Machine

/-! ## The series of atanh in fixed point -/

/-- The power `z ^ j` in units of `2 ^ -p`, truncated: low by at most two units. -/
def IsTruncatedPower (p : Nat) (z : ℝ) (j power : Nat) : Prop :=
  2 ^ p * z ^ j - 2 ≤ power ∧ (power : ℝ) ≤ 2 ^ p * z ^ j

theorem IsTruncatedPower.step {p zz j power : Nat} {z : ℝ} (h0 : 0 ≤ z) (h3 : z ≤ 1 / 3)
    (hj : 1 ≤ j) (hzz : 2 ^ p * z ^ 2 - 1 ≤ zz ∧ (zz : ℝ) ≤ 2 ^ p * z ^ 2)
    (h : IsTruncatedPower p z j power) :
    IsTruncatedPower p z (j + 2) (power * zz / 2 ^ p) := by
  obtain ⟨hlow, hup⟩ := h
  obtain ⟨zlow, zup⟩ := hzz
  have hp : (0 : ℝ) < 2 ^ p := by positivity
  obtain ⟨dlow, dup⟩ := natDiv_bounds (power * zz) (2 ^ p)
  push_cast at dlow dup
  have hz2 : z ^ 2 ≤ 1 / 9 := by
    calc z ^ 2 ≤ (1 / 3) ^ 2 := by gcongr
      _ = 1 / 9 := by norm_num
  have hzj : z ^ j ≤ 1 / 3 := by
    calc z ^ j ≤ z ^ 1 := pow_le_pow_of_le_one h0 (by linarith) hj
      _ ≤ 1 / 3 := by rwa [pow_one]
  refine ⟨?_, dup.trans ?_⟩
  · have lost : (power : ℝ) / 2 ^ p ≤ 1 / 3 := by
      rw [div_le_iff₀' hp]
      exact hup.trans (mul_le_mul_of_nonneg_left hzj hp.le)
    have next : power * z ^ 2 - power / 2 ^ p ≤ power * zz / 2 ^ p := by
      have := mul_le_mul_of_nonneg_left zlow (Nat.cast_nonneg (α := ℝ) power)
      rw [le_div_iff₀ hp, sub_mul, div_mul_cancel₀ _ hp.ne']
      linarith
    have carried := mul_le_mul_of_nonneg_right hlow (sq_nonneg z)
    rw [pow_add]
    linarith
  · calc (power : ℝ) * zz / 2 ^ p ≤ 2 ^ p * z ^ j * (2 ^ p * z ^ 2) / 2 ^ p := by gcongr
      _ = 2 ^ p * z ^ (j + 2) := by rw [pow_add]; field_simp

/-- The fixed-point sum is below the partial sum, each term by at most three units. -/
theorem atanhSum_bounds {p zz : Nat} {z : ℝ} (h0 : 0 ≤ z) (h3 : z ≤ 1 / 3)
    (hzz : 2 ^ p * z ^ 2 - 1 ≤ zz ∧ (zz : ℝ) ≤ 2 ^ p * z ^ 2) (count : Nat) :
    ∀ j power : Nat, 1 ≤ j → IsTruncatedPower p z j power →
      2 ^ p * ∑ i ∈ Finset.range count, z ^ (2 * i + j) / (2 * i + j) - 3 * count ≤
        (atanhSum p zz count j power : ℝ) ∧
      (atanhSum p zz count j power : ℝ) ≤
        2 ^ p * ∑ i ∈ Finset.range count, z ^ (2 * i + j) / (2 * i + j) := by
  induction count with
  | zero => intro j power _ _; simp [atanhSum]
  | succ count ih =>
    intro j power hj h
    obtain ⟨rlow, rup⟩ := ih (j + 2) _ (by omega) (h.step h0 h3 hj hzz)
    obtain ⟨hlow, hup⟩ := h
    obtain ⟨dlow, dup⟩ := natDiv_bounds power j
    have hj' : (1 : ℝ) ≤ j := by exact_mod_cast hj
    have shift : ∑ i ∈ Finset.range (count + 1), z ^ (2 * i + j) / (2 * (i : ℝ) + j) =
        z ^ j / j +
          ∑ i ∈ Finset.range count, z ^ (2 * i + (j + 2)) / (2 * (i : ℝ) + (j + 2 : ℕ)) := by
      rw [Finset.sum_range_succ', add_comm]
      congr 1
      · simp
      · refine Finset.sum_congr rfl fun i _ => ?_
        rw [show 2 * (i + 1) + j = 2 * i + (j + 2) by ring]
        push_cast
        ring_nf
    have term : 2 ^ p * (z ^ j / j) - 2 ≤ (power : ℝ) / j := by
      rw [← mul_div_assoc, le_div_iff₀ (by linarith), sub_mul, div_mul_cancel₀ _ (by linarith)]
      linarith
    have term' : (power : ℝ) / j ≤ 2 ^ p * (z ^ j / j) := by
      rw [← mul_div_assoc]; gcongr
    rw [shift, atanhSum, mul_add]
    push_cast at rlow rup ⊢
    constructor <;> linarith

/-- A precision and a count of terms whose truncation after the last term is below a unit. -/
structure LogPrecision (p count : Nat) : Prop where
  precise : 32 ≤ p
  few : count ≤ 256
  tail : 2 ^ p ≤ 9 ^ count

theorem logPrecision_of_mem {p count : Nat} (h : (p, count) ∈ [(256, 128), (512, 256)]) :
    LogPrecision p count := by
  simp only [List.mem_cons, Prod.mk.injEq, List.not_mem_nil, or_false] at h
  rcases h with ⟨rfl, rfl⟩ | ⟨rfl, rfl⟩
  · exact ⟨by decide, by decide, by decide +kernel⟩
  · exact ⟨by decide, by decide, by decide +kernel⟩

/-- `atanhFixed` is `atanh (n / d)`, in the form of a logarithm, rounded down within its slack. -/
theorem atanhFixed_bounds {p count n d : Nat} (hp : LogPrecision p count) (hd : 0 < d)
    (h3 : 3 * n ≤ d) :
    (atanhFixed p count n d : ℝ) ≤ 2 ^ p * (1 / 2 * Real.log ((d + n) / (d - n))) ∧
    2 ^ p * (1 / 2 * Real.log ((d + n) / (d - n))) ≤
      atanhFixed p count n d + atanhSlack count := by
  have hd' : (0 : ℝ) < d := by exact_mod_cast hd
  have hpos : (0 : ℝ) < 2 ^ p := by positivity
  generalize hz : (n : ℝ) / d = z
  have h0 : 0 ≤ z := by rw [← hz]; positivity
  have hz3 : z ≤ 1 / 3 := by
    have : (3 : ℝ) * n ≤ d := by exact_mod_cast h3
    rw [← hz, div_le_iff₀ hd']; linarith
  have ratio : ((d : ℝ) + n) / (d - n) = (1 + z) / (1 - z) := by
    rw [← hz]; field_simp
  have hzz := natDiv_bounds (n * n * 2 ^ p) (d * d)
  rw [show ((n * n * 2 ^ p : ℕ) : ℝ) / ((d * d : ℕ) : ℝ) = 2 ^ p * z ^ 2 by
    rw [← hz]; push_cast; field_simp] at hzz
  have first := natDiv_bounds (n * 2 ^ p) d
  rw [show ((n * 2 ^ p : ℕ) : ℝ) / d = 2 ^ p * z ^ 1 by rw [← hz]; push_cast; field_simp] at first
  obtain ⟨low, up⟩ := atanhSum_bounds h0 hz3 hzz count 1 _ le_rfl
    ⟨by linarith [first.1], first.2⟩
  rw [Nat.cast_one] at low up
  have hz1 : z < 1 := by linarith
  have below := Real.sum_range_le_log_div h0 hz1 count
  have above := Real.log_div_le_sum_range_add h0 hz1 count
  have tail : 2 ^ p * (z ^ (2 * count + 1) / (1 - z ^ 2)) ≤ 1 := by
    have h9 : (2 : ℝ) ^ p ≤ 9 ^ count := by exact_mod_cast hp.tail
    have hz2 : z ^ 2 ≤ 1 / 9 := by
      calc z ^ 2 ≤ (1 / 3) ^ 2 := by gcongr
        _ = 1 / 9 := by norm_num
    have hpow : z ^ (2 * count + 1) ≤ (1 / 9) ^ count * (1 / 3) := by
      rw [pow_succ, pow_mul]; gcongr
    have hcancel : (9 : ℝ) ^ count * (1 / 9) ^ count = 1 := by rw [← mul_pow]; norm_num
    rw [← mul_div_assoc, div_le_one (by linarith)]
    calc 2 ^ p * z ^ (2 * count + 1) ≤ 9 ^ count * ((1 / 9) ^ count * (1 / 3)) := by gcongr
      _ = 1 / 3 := by rw [← mul_assoc, hcancel, one_mul]
      _ ≤ 1 - z ^ 2 := by linarith
  rw [ratio, atanhFixed]
  refine ⟨up.trans (mul_le_mul_of_nonneg_left below hpos.le), ?_⟩
  have above' := mul_le_mul_of_nonneg_left above hpos.le
  rw [mul_add] at above'
  rw [atanhSlack]
  push_cast
  linarith [Nat.cast_nonneg (α := ℝ) count]

/-! ## The logarithm of a value -/

/-- The enclosure of a logarithm contains it: `lnTwo` and `lnF` are rounded down within the slack,
and the exponent `k` may have either sign. -/
theorem logInterval_bounds {k lnTwo lnF slack : ℤ} {x y : ℝ} (hx : (lnTwo : ℝ) ≤ x)
    (hx' : x ≤ lnTwo + slack) (hy : (lnF : ℝ) ≤ y) (hy' : y ≤ lnF + slack) :
    ((lnF + k * lnTwo + min 0 (k * slack) : ℤ) : ℝ) ≤ y + k * x ∧
    y + k * x ≤ ((lnF + slack + k * lnTwo + max 0 (k * slack) : ℤ) : ℝ) := by
  push_cast
  rcases le_total 0 (k : ℝ) with hk | hk
  · have h1 := mul_le_mul_of_nonneg_left hx hk
    have h2 := mul_le_mul_of_nonneg_left hx' hk
    have := min_le_left 0 ((k : ℝ) * slack)
    have := le_max_right 0 ((k : ℝ) * slack)
    constructor <;> linarith
  · have h1 := mul_le_mul_of_nonpos_left hx hk
    have h2 := mul_le_mul_of_nonpos_left hx' hk
    have := min_le_right 0 ((k : ℝ) * slack)
    have := le_max_left 0 ((k : ℝ) * slack)
    constructor <;> linarith

/-- The width of that enclosure. -/
theorem logInterval_width {k lnTwo lnF slack : ℤ} (hs : 0 ≤ slack) :
    (lnF + slack + k * lnTwo + max 0 (k * slack)) - (lnF + k * lnTwo + min 0 (k * slack)) =
      (1 + |k|) * slack := by
  rw [add_mul, one_mul, ← abs_of_nonneg hs, ← abs_mul, abs_of_nonneg hs]
  have := max_sub_min_eq_abs 0 (k * slack)
  rw [sub_zero] at this
  linarith

/-- The leading bit of a significand. -/
theorem f64Significand_log2 {a : F64} (hz : f64IsZero a = false) :
    2 ^ Nat.log2 (f64Significand a) ≤ f64Significand a ∧
    f64Significand a < 2 ^ (Nat.log2 (f64Significand a) + 1) ∧
    Nat.log2 (f64Significand a) < 53 := by
  have hlow := Nat.log2_self_le (f64Significand_pos hz).ne'
  have hlt : f64Significand a < 2 ^ 53 := by
    rw [f64Significand_eq]; exact magnitudeSignificand_lt _
  exact ⟨hlow, Nat.lt_log2_self, (Nat.pow_lt_pow_iff_right one_lt_two).1 (hlow.trans_lt hlt)⟩

/-- The exponent of a finite value is that of its scale and leading bit. -/
theorem abs_exponent_le {a : F64} (hfin : f64IsFinite a = true) (hz : f64IsZero a = false) :
    |f64Scale a + Nat.log2 (f64Significand a)| ≤ 1200 := by
  have hmag := (f64IsFinite_iff a).1 hfin
  obtain ⟨-, -, hl⟩ := f64Significand_log2 hz
  rw [f64Scale_eq, magnitudeScale, abs_le]
  omega

/-- A positive value is `f * 2 ^ k` with `1 ≤ f < 2`, and its logarithm is `ln f + k ln 2`. -/
theorem log_f64Value {a : F64} (hz : f64IsZero a = false) (hneg : f64Negative a = false) :
    Real.log (f64Value a : ℝ) =
      Real.log (f64Significand a / 2 ^ Nat.log2 (f64Significand a)) +
        (f64Scale a + Nat.log2 (f64Significand a) : ℤ) * Real.log 2 := by
  have hm : (0 : ℝ) < f64Significand a := by exact_mod_cast f64Significand_pos hz
  have hval : (f64Value a : ℝ) = f64Significand a / 2 ^ Nat.log2 (f64Significand a) *
      2 ^ (f64Scale a + Nat.log2 (f64Significand a)) := by
    rw [f64Value_eq_significand, hneg, zpow_add₀ two_ne_zero, zpow_natCast]
    simp only [Bool.false_eq_true, if_false, one_mul]
    push_cast
    field_simp
  rw [hval, Real.log_mul (by positivity) (by positivity), Real.log_zpow]

/-- The logarithm of a significand taken between 1 and 2. -/
theorem log_significand_bounds {a : F64} (hz : f64IsZero a = false) :
    0 ≤ Real.log (f64Significand a / 2 ^ Nat.log2 (f64Significand a)) ∧
    Real.log (f64Significand a / 2 ^ Nat.log2 (f64Significand a)) ≤ Real.log 2 := by
  have hm : (0 : ℝ) < f64Significand a := by exact_mod_cast f64Significand_pos hz
  obtain ⟨hlow, hup, -⟩ := f64Significand_log2 hz
  refine ⟨Real.log_nonneg ((one_le_div (by positivity)).2 (by exact_mod_cast hlow)),
    Real.log_le_log (by positivity) ((div_le_iff₀ (by positivity)).2 ?_)⟩
  rw [← pow_succ']
  exact_mod_cast hup.le

theorem abs_log_f64Value_le {a : F64} (hfin : f64IsFinite a = true) (hz : f64IsZero a = false)
    (hneg : f64Negative a = false) : |Real.log (f64Value a : ℝ)| ≤ 2 ^ 52 := by
  have hlog2 : Real.log 2 ≤ 1 := by linarith [Real.log_two_lt_d9]
  obtain ⟨hf0, hf1⟩ := log_significand_bounds hz
  have hk : |((f64Scale a + Nat.log2 (f64Significand a) : ℤ) : ℝ)| ≤ 1200 := by
    exact_mod_cast abs_exponent_le hfin hz
  rw [log_f64Value hz hneg]
  generalize ((f64Scale a + Nat.log2 (f64Significand a) : ℤ) : ℝ) = k at *
  generalize Real.log (f64Significand a / 2 ^ Nat.log2 (f64Significand a)) = y at *
  calc |y + k * Real.log 2| ≤ |y| + |k| * |Real.log 2| := by rw [← abs_mul]; exact abs_add_le _ _
    _ ≤ 1 + 1200 * 1 := by
      rw [abs_of_nonneg hf0, abs_of_nonneg (Real.log_nonneg one_le_two)]
      gcongr
      exact hf1.trans hlog2
    _ ≤ 2 ^ 52 := by norm_num

theorem logEnclosure_nearestEven {p count : Nat} (hp : LogPrecision p count) {a r : F64}
    (hfin : f64IsFinite a = true) (hz : f64IsZero a = false) (hneg : f64Negative a = false)
    (h : logEnclosure p count a = some r) : NearestEven r (Real.log (f64Value a : ℝ)) := by
  have habs := abs_log_f64Value_le hfin hz hneg
  have hk := abs_exponent_le hfin hz
  have hlog : 2 ^ p * Real.log (f64Value a : ℝ) =
      2 ^ p * Real.log (f64Significand a / 2 ^ Nat.log2 (f64Significand a)) +
        (f64Scale a + Nat.log2 (f64Significand a) : ℤ) * (2 ^ p * Real.log 2) := by
    rw [log_f64Value hz hneg]; ring
  obtain ⟨hl1, hl2, -⟩ := f64Significand_log2 hz
  have hm : (0 : ℝ) < f64Significand a := by exact_mod_cast f64Significand_pos hz
  simp only [logEnclosure] at h
  generalize Nat.log2 (f64Significand a) = l at *
  generalize f64Significand a = m at *
  -- the two logarithms the enclosure adds: `ln 2` and `ln f`
  obtain ⟨two1, two2⟩ := atanhFixed_bounds (n := 1) (d := 3) hp (by decide) (by decide)
  obtain ⟨f1, f2⟩ := atanhFixed_bounds (n := m - 2 ^ l) (d := m + 2 ^ l) hp (by omega)
    (by rw [pow_succ] at hl2; omega)
  rw [show (((3 : ℕ) : ℝ) + (1 : ℕ)) / ((3 : ℕ) - (1 : ℕ)) = 2 by norm_num] at two1 two2
  rw [show (((m + 2 ^ l : ℕ) : ℝ) + (m - 2 ^ l : ℕ)) / ((m + 2 ^ l : ℕ) - (m - 2 ^ l : ℕ)) =
    m / 2 ^ l by push_cast [hl1]; field_simp; ring] at f1 f2
  generalize atanhFixed p count 1 3 = A at *
  generalize atanhFixed p count (m - 2 ^ l) (m + 2 ^ l) = B at *
  obtain ⟨hlo, hhi⟩ := logInterval_bounds (k := f64Scale a + l) (lnTwo := 2 * A) (lnF := 2 * B)
    (slack := 2 * atanhSlack count) (x := 2 ^ p * Real.log 2) (y := 2 ^ p * Real.log (m / 2 ^ l))
    (by push_cast; linarith) (by push_cast; linarith) (by push_cast; linarith)
    (by push_cast; linarith)
  rw [← hlog] at hlo hhi
  refine roundEnclosure_nearestEven h hlo hhi habs ?_
  rw [← Int.cast_sub, logInterval_width (by positivity), atanhSlack]
  have hc : count ≤ 256 := hp.few
  have hwidth : (1 + |f64Scale a + l|) * (2 * (4 * count + 4 : ℕ) : ℤ) ≤ 1201 * 2056 :=
    mul_le_mul (by omega) (by omega) (by positivity) (by norm_num)
  calc (((1 + |f64Scale a + l|) * (2 * (4 * count + 4 : ℕ) : ℤ) : ℤ) : ℝ)
      ≤ ((1201 * 2056 : ℤ) : ℝ) := Int.cast_le.2 hwidth
    _ ≤ 2 ^ 32 * 2 ^ 52 := by norm_num
    _ ≤ 2 ^ p * 2 ^ 52 := by gcongr; exacts [one_le_two, hp.precise]

theorem flog_one : flog f64One = f64PlusZero := by rw [flog, if_pos rfl]

theorem flog_nearestEven {a : F64} (hfin : f64IsFinite a = true) (hz : f64IsZero a = false)
    (hneg : f64Negative a = false)
    (h : (logEnclosure 256 128 a).isSome = true ∨ (logEnclosure 512 256 a).isSome = true) :
    NearestEven (flog a) (Real.log (f64Value a : ℝ)) := by
  by_cases h1 : a = f64One
  · have hzero : f64Value f64PlusZero = 0 := (f64Value_eq_zero _).2 (by decide)
    have hlog : Real.log ((f64Value a : ℚ) : ℝ) = ((f64Value f64PlusZero : ℚ) : ℝ) := by
      simp [h1, f64Value_one, hzero]
    rw [hlog, h1, flog_one]
    exact nearestEven_self (by decide)
  · rw [flog, if_neg h1, if_pos (by simp [hfin, hz, hneg])]
    obtain hr | hr := orElse_getD_of_isSome (Config.elementary .log a) h
    · exact logEnclosure_nearestEven (logPrecision_of_mem (by simp)) hfin hz hneg hr
    · exact logEnclosure_nearestEven (logPrecision_of_mem (by simp)) hfin hz hneg hr

/-- Settles O60: each enclosure contains the exact value, and one that is settled rounds as that
value does. -/
theorem settledLogarithmCorrectlyRounded : Obligations.SettledLogarithmCorrectlyRounded :=
  ⟨fun _ _ _ _ hp hfin hz hneg h =>
      logEnclosure_nearestEven (logPrecision_of_mem hp) hfin hz hneg h,
    fun _ hfin hz hneg h => flog_nearestEven hfin hz hneg h, flog_one⟩

end Sys2Proof.Machine
end

section
/-! The lengths of what the compressor produces (44_compress.md R219). -/

namespace Sys2Proof.Machine

/-! ## Symbols -/

theorem symbolsFrom_length_le (d : Word) (positions : List Nat) (last : Nat) :
    (symbolsFrom d positions last).length ≤ positions.length + 1 := by
  induction positions generalizing last with
  | nil => simp [symbolsFrom]
  | cons p ps ih =>
    simp only [symbolsFrom]
    split
    · simpa using ih (p + 1)
    · exact (ih last).trans (by simp)

/-- The symbols that pass 2 has to repeat (44_compress.md R215). -/
def exceptional (sym : List Nat) : List Nat := sym.filter fun x => decide (maxNormal ≤ x)

/-- Each exceptional symbol is a gap of at least 7 positions, and the gaps do not overlap. -/
theorem exceptional_symbolsFrom_le (d : Word) (n p last : Nat) (hlast : last ≤ p) :
    7 * (exceptional (symbolsFrom d (List.range' p n) last)).length + last ≤ p + n := by
  induction n generalizing p last with
  | zero => simpa [symbolsFrom, exceptional, maxNormal] using hlast
  | succ n ih =>
    simp only [List.range'_succ, symbolsFrom]
    split
    · have rest := ih (p + 1) (p + 1) le_rfl
      by_cases h7 : maxNormal ≤ p + 1 - last
      · simp only [exceptional, h7, decide_true, List.filter_cons_of_pos, List.length_cons]
          at rest ⊢
        simp only [maxNormal] at h7 rest ⊢
        omega
      · rw [exceptional, List.filter_cons_of_neg (by simpa using h7), ← exceptional]
        omega
    · have rest := ih (p + 1) last (by omega)
      omega

theorem deltaSymbols_length_le (d : Word) : (deltaSymbols d).length ≤ 33 := by
  simpa [deltaSymbols] using symbolsFrom_length_le d (List.range 32) 0

theorem exceptional_deltaSymbols_le (d : Word) : (exceptional (deltaSymbols d)).length ≤ 4 := by
  have h := exceptional_symbolsFrom_le d 32 0 0 le_rfl
  rw [← List.range_eq_range', ← deltaSymbols] at h
  omega

@[simp] theorem deltasAfter_length (previous : Word) (s : List Word) :
    (deltasAfter previous s).length = s.length := by
  induction s generalizing previous with
  | nil => rfl
  | cons x xs ih => simp [deltasAfter, ih]

@[simp] theorem deltas_length (s : List Word) : (deltas s).length = s.length := by
  cases s <;> simp [deltas]

theorem length_flatMap_le {α β : Type} (f : α → List β) (bound : Nat)
    (h : ∀ a, (f a).length ≤ bound) (l : List α) : (l.flatMap f).length ≤ bound * l.length := by
  rw [List.length_flatMap]
  simpa [mul_comm] using
    List.sum_le_card_nsmul (l.map fun a => (f a).length) bound (by simpa using fun a _ => h a)

theorem symbols_length_le (s : List Word) : (symbols s).length ≤ 33 * s.length := by
  rw [← deltas_length s]
  exact length_flatMap_le deltaSymbols 33 deltaSymbols_length_le (deltas s)

theorem exceptional_symbols_le (s : List Word) :
    (exceptional (symbols s)).length ≤ 4 * s.length := by
  rw [exceptional, symbols, List.filter_flatMap, ← deltas_length s]
  exact length_flatMap_le _ 4 exceptional_deltaSymbols_le (deltas s)

/-! ## Packed bytes -/

@[simp] theorem lowBytes_length (count acc : Nat) : (lowBytes count acc).length = count := by
  induction count generalizing acc with
  | zero => rfl
  | succ count ih => simp [lowBytes, ih]

/-- Packing fills whole bytes, from the `n` bits the accumulator already holds. -/
theorem packFrom_length (width acc n : Nat) (v : List Nat) (hn : n < 8) :
    (packFrom width acc n v).length = (n + width * v.length + 7) / 8 := by
  induction v generalizing acc n with
  | nil =>
    simp only [packFrom]
    split <;> simp <;> omega
  | cons x xs ih =>
    simp only [packFrom, List.length_append, lowBytes_length, ih _ _ (Nat.mod_lt _ (by decide)),
      List.length_cons, Nat.mul_succ]
    omega

@[simp] theorem pack_length (width : Nat) (v : List Nat) :
    (pack width v).length = (width * v.length + 7) / 8 := by
  simp [pack, packFrom_length]

/-- No fingerprint of at most 256 values overflows `RAW`. -/
theorem rawBytes_length_le (s : List Word) (h : s.length ≤ subfpCap) :
    (rawBytes s).length ≤ rawCap := by
  have hsym := symbols_length_le s
  have hexc := exceptional_symbols_le s
  simp only [exceptional] at hexc
  simp only [rawBytes, pass1, pass2, List.length_append, List.length_cons, List.length_nil,
    pack_length, List.length_map, normalBits, excBits, rawCap, symCap, subfpCap] at *
  omega

/-! ## Base64 characters -/

@[simp] theorem base64_length : ∀ r : List Byte, (base64 r).length = (4 * r.length + 2) / 3
  | [] => rfl
  | [_] => by simp [base64, base64Group]
  | [_, _] => by simp [base64, base64Group]
  | a :: b :: c :: r => by
    have ih := base64_length r
    simp only [base64, base64Group, List.length_append, List.length_cons, List.length_nil, ih]
    omega

end Sys2Proof.Machine
end

section
/-! What each command does when it runs, said once for all ten. -/

namespace Sys2Proof.Machine

/-- The tables of size `2^k` are ready in the second state: they stood before, or a draw that
succeeded let them be built (40_fft.md R101). -/
inductive TablesReady (s : State) (k : Nat) : State → Prop
  | before (built : s.tableValid.getLsbD k = true) : TablesReady s k s
  | now (unbuilt : s.tableValid.getLsbD k = false) (draw : s.nextDraw = true) :
      TablesReady s k (s.drawn.buildTables k)

/-- What a command leaves behind: it raises an error, a draw fails, or it completes with the effect
of its own rule, under the checks it has passed. -/
inductive CommandEffect (s : State) : Instr → State → Prop
  | raises (i : Instr) (e : ErrCode) (he : e ≠ .ok) : CommandEffect s i (s.raise e)
  | drawFails (i : Instr) (hi : i ∈ [Instr.fftForward, .addSamples]) :
      CommandEffect s i (s.drawn.raise .allocationFailed)
  | nop : CommandEffect s .nop s.complete
  | sessionOpen : CommandEffect s .sessionOpen s.openSession.complete
  | sessionClose : CommandEffect s .sessionClose s.closeSession.complete
  | needsSamples : CommandEffect s .needsSamples (s.answer s.needsSamples).complete
  | canCalculate : CommandEffect s .canCalculate (s.answer s.canCalculate).complete
  | budgetReached : CommandEffect s .addSamples s.complete
  | addSamples (s₁ : State) (x : List F64) (live : s.live = true) (unfinished : s.finalized = false)
      (needs : s.needsSamples = true) (chunk : minChunk ≤ x.length) (ready : TablesReady s 12 s₁) :
      CommandEffect s .addSamples (s₁.consume x).complete
  | calculateFingerprint (live : s.live = true) (rows : maxWidth < s.row.toNat) :
      CommandEffect s .calculateFingerprint
        (s.fingerprint (s.row.toNat - (maxWidth - 1))).complete
  | fftForward (s₁ : State) (k : Nat) (size : 2 ≤ k ∧ k ≤ 12) (ready : TablesReady s k s₁) :
      CommandEffect s .fftForward (s₁.transformFb k).complete
  | window (x : List F64) (frame : x.length = frameSize) :
      CommandEffect s .window (s.writeFb (windowFn x)).complete
  | compress (least : 2 ≤ s.arg) (most : s.arg ≤ subfpCap) :
      CommandEffect s .compress (s.compress (s.subfpSlice s.arg)).complete

/-- `EnsureTables` makes the tables ready, or its draw fails. -/
theorem State.ensureTables_ready (s : State) (k : Nat) :
    (∃ s₁, s.ensureTables k = (true, s₁) ∧ TablesReady s k s₁) ∨
      s.ensureTables k = (false, s.drawn) := by
  obtain ⟨h, e⟩ | ⟨h, hd, e⟩ | ⟨-, -, e⟩ := s.ensureTables_cases k
  · exact .inl ⟨_, e, .before h⟩
  · exact .inl ⟨_, e, .now h hd⟩
  · exact .inr e

/-- Normalising gives as many samples as there are words. -/
theorem normAll_length {fmt : SampleFormat} {ws : List Word} {x : List F64}
    (h : normAll fmt ws = some x) : x.length = ws.length := by
  rw [normAll_eq] at h
  split at h
  · rename_i hn
    rw [← Option.some.inj h, filterMap_norm_length fmt ws hn]
  · exact absurd h nofun

@[simp] theorem State.sinSlice_length (s : State) (n : Nat) : (s.sinSlice n).length = n :=
  Memory.slice_length ..

@[simp] theorem State.subfpSlice_length (s : State) (n : Nat) : (s.subfpSlice n).length = n :=
  Memory.slice_length ..

theorem execAddSamples_effect (s : State) :
    ∃ t, execAddSamples s = .next t ∧ CommandEffect s .addSamples t := by
  unfold execAddSamples
  split
  · exact ⟨_, rfl, .raises _ _ nofun⟩
  next hlive =>
  split
  · exact ⟨_, rfl, .raises _ _ nofun⟩
  split
  · exact ⟨_, rfl, .raises _ _ nofun⟩
  next hchunk =>
  split
  · exact ⟨_, rfl, .budgetReached⟩
  next hneeds =>
  cases hx : normAll s.sessionFmt (s.sinSlice s.arg) with
  | none => exact ⟨_, rfl, .raises _ _ nofun⟩
  | some x =>
    obtain ⟨s₁, he, ready⟩ | he := s.ensureTables_ready 12 <;> simp only [he]
    · simp only [Bool.or_eq_true, Bool.not_eq_true', not_or, Bool.not_eq_false,
        Bool.not_eq_true] at hlive hneeds
      refine ⟨_, rfl, .addSamples s₁ x hlive.1 hlive.2 hneeds ?_ ready⟩
      rw [normAll_length hx, State.sinSlice_length]
      exact Nat.not_lt.1 hchunk
    · exact ⟨_, rfl, .drawFails _ (by simp)⟩

theorem execCalculateFingerprint_effect (s : State) :
    ∃ t, execCalculateFingerprint s = .next t ∧ CommandEffect s .calculateFingerprint t := by
  unfold execCalculateFingerprint
  split
  · exact ⟨_, rfl, .raises _ _ nofun⟩
  next hlive =>
  split
  · exact ⟨_, rfl, .raises _ _ nofun⟩
  next hrows =>
  simp only [Bool.or_eq_true, Bool.not_eq_true', not_or, Bool.not_eq_false] at hlive
  exact ⟨_, rfl, .calculateFingerprint hlive.1 (Nat.not_lt.1 hrows)⟩

theorem execFftForward_effect (s : State) :
    ∃ t, execFftForward s = .next t ∧ CommandEffect s .fftForward t := by
  unfold execFftForward
  cases hk : transformLog? s.arg with
  | none => exact ⟨_, rfl, .raises _ _ nofun⟩
  | some k =>
    obtain ⟨h2, h12, -⟩ := (transformLog?_eq_some _ _).1 hk
    obtain ⟨s₁, he, ready⟩ | he := s.ensureTables_ready k <;> simp only [he]
    · exact ⟨_, rfl, .fftForward s₁ k ⟨h2, h12⟩ ready⟩
    · exact ⟨_, rfl, .drawFails _ (by simp)⟩

theorem execWindow_effect (s : State) :
    ∃ t, execWindow s = .next t ∧ CommandEffect s .window t := by
  unfold execWindow
  split
  · exact ⟨_, rfl, .raises _ _ nofun⟩
  cases hx : normAll s.ctrlFmt (s.sinSlice frameSize) with
  | none => exact ⟨_, rfl, .raises _ _ nofun⟩
  | some x => exact ⟨_, rfl, .window x (by rw [normAll_length hx, State.sinSlice_length])⟩

theorem execCompress_effect (s : State) :
    ∃ t, execCompress s = .next t ∧ CommandEffect s .compress t := by
  unfold execCompress
  split
  · exact ⟨_, rfl, .raises _ _ nofun⟩
  next hleast =>
  split
  · exact ⟨_, rfl, .raises _ _ nofun⟩
  next hmost =>
  exact ⟨_, rfl, .compress (Nat.not_lt.1 hleast) (Nat.not_lt.1 hmost)⟩

/-- A command with no check but that of the session either has its effect or raises its error. -/
theorem effect_of_live_check {i : Instr} {s t : State} {e : ErrCode} (he : e ≠ .ok)
    (ht : CommandEffect s i t) :
    ∃ u, (if s.live then .next t else .next (s.raise e) : Host.Outcome State Fault Refusal) =
      .next u ∧ CommandEffect s i u := by
  cases s.live
  · exact ⟨_, rfl, .raises i e he⟩
  · exact ⟨_, rfl, ht⟩

/-- Every command answers a next state, and its effect is one of those listed. -/
theorem exec_effect (i : Instr) (s : State) : ∃ t, exec i s = .next t ∧ CommandEffect s i t := by
  cases i with
  | nop => exact ⟨_, rfl, .nop⟩
  | sessionOpen =>
    show ∃ t, execSessionOpen s = .next t ∧ _
    unfold execSessionOpen
    split
    · exact ⟨_, rfl, .raises _ _ nofun⟩
    · exact ⟨_, rfl, .sessionOpen⟩
  | sessionClose => exact effect_of_live_check nofun .sessionClose
  | addSamples => exact execAddSamples_effect s
  | needsSamples => exact effect_of_live_check nofun .needsSamples
  | canCalculate => exact effect_of_live_check nofun .canCalculate
  | calculateFingerprint => exact execCalculateFingerprint_effect s
  | fftForward => exact execFftForward_effect s
  | window => exact execWindow_effect s
  | compress => exact execCompress_effect s

/-! ## What the frames of ADD_SAMPLES leave alone -/

/-- The second state differs from the first only in what processing samples writes: the counters and
arrays of the session, `FB`, and the use of an `AUX_k` (45_controller.md R250, R252). -/
def State.SameButStream (s t : State) : Prop :=
  t = { s with
    framesProcessed := t.framesProcessed, row := t.row, coeff := t.coeff
    noteIndex := t.noteIndex, carryLen := t.carryLen, fb := t.fb, carry := t.carry
    ring := t.ring, chroma := t.chroma, caches := t.caches }

theorem State.SameButStream.trans {s t u : State} (h : s.SameButStream t) (h' : t.SameButStream u) :
    s.SameButStream u :=
  Eq.trans h' (by rw [h])

theorem State.touchAux_sameButStream (s : State) (k : Nat) : s.SameButStream (s.touchAux k) := by
  unfold State.SameButStream State.touchAux
  split <;> rfl

theorem State.gateRow_sameButStream (s : State) : s.SameButStream s.gateRow := by
  obtain ⟨-, h⟩ | ⟨-, h⟩ := s.gateRow_cases <;> rw [h] <;> rfl

theorem State.countFrame_sameButStream (s : State) : s.SameButStream s.countFrame := by
  simp only [State.SameButStream, State.countFrame]

theorem State.processFrame_sameButStream (s : State) (f : List F64) :
    s.SameButStream (s.processFrame f) := by
  have transform : s.SameButStream ((s.writeFb (s.fft 12 (windowFn f))).touchAux 12) :=
    .trans (t := s.writeFb (s.fft 12 (windowFn f))) rfl (State.touchAux_sameButStream ..)
  have chroma (t : State) (y : List F64) : t.SameButStream (t.chromaStep y) :=
    .trans (t := (t.writeRingSlot t.noteIndex.toNat (noteEnergies y.toArray).toList).advanceNote)
      rfl (State.gateRow_sameButStream _)
  exact (transform.trans (chroma _ _)).trans (State.countFrame_sameButStream _)

theorem frameLoop_sameButStream (passes : Nat) (b : List F64) (s : State) :
    s.SameButStream (frameLoop passes b s).2 :=
  frameLoop_keeps (P := s.SameButStream)
    (fun t f _ _ h => h.trans (t.processFrame_sameButStream f)) passes b s rfl

theorem State.keepRest_sameButStream (s : State) (rest : List F64) :
    s.SameButStream (s.keepRest rest) := by
  unfold State.keepRest
  split <;> rfl

theorem State.consume_sameButStream (s : State) (x : List F64) : s.SameButStream (s.consume x) :=
  .trans (frameLoop_sameButStream _ _ s) (State.keepRest_sameButStream ..)

end Sys2Proof.Machine
end

section
/-! O2, O3, O4: every operation on the state keeps the invariant, so every step does. -/

namespace Sys2Proof.Machine

/-! ## The table caches -/

@[simp] theorem Memory.read?_splice_one {β : Type} (m : Memory β) (k : Nat) (v : β) (j : Nat) :
    (Memory.splice m k [v]).read? j = if j = k then some v else m.read? j := by
  rw [Memory.read?_splice]
  by_cases h : j = k
  · simp [h]
  · rw [if_neg (by simp; omega), if_neg h]

theorem Memory.mem_splice_one {β : Type} {m : Memory β} {k : Nat} {v : β} {e : Nat × β}
    (h : e ∈ Memory.splice m k [v]) : e ∈ m ∨ e = (k, v) := by
  simp only [Memory.splice, List.mem_append, List.mem_filter, List.zipIdx_cons, List.zipIdx_nil,
    List.map_cons, List.map_nil, List.mem_singleton] at h
  tauto

theorem Memory.mem_of_read? {β : Type} {m : Memory β} {i : Nat} {v : β} (h : m.read? i = some v) :
    (i, v) ∈ m := by
  induction m with
  | nil => exact absurd h nofun
  | cons e m ih =>
    simp only [Memory.read?] at h
    split at h
    · rename_i he
      rw [← he, ← Option.some.inj h]
      exact List.mem_cons_self
    · exact List.mem_cons_of_mem _ (ih h)

/-- The entry holds the tables of 40_fft.md R102 for its size, and an `AUX_k` of `4 * 2^k`
elements. -/
def IsTablesOf (k : Nat) (c : SizeCache) : Prop :=
  2 ≤ k ∧ c.tabCos = cosTable k ∧ c.tabSin = sinTable k ∧ c.auxLen = 4 * 2 ^ k

theorem State.tablesWf_iff (s : State) :
    s.tablesWf ↔ s.caches.wf 13 ∧ (∀ e ∈ s.caches, IsTablesOf e.1 e.2) ∧
      ∀ k < 32, s.tableValid.getLsbD k = (s.caches.read? k).isSome := Iff.rfl

theorem State.tablesWf.valid {s : State} (h : s.tablesWf) {k : Nat} (hk : k < 32) :
    s.tableValid.getLsbD k = (s.caches.read? k).isSome := h.2.2 k hk

theorem State.tablesWf.isTablesOf {s : State} (h : s.tablesWf) {k : Nat} {c : SizeCache}
    (hc : s.caches.read? k = some c) : k < 13 ∧ IsTablesOf k c :=
  have hmem := Memory.mem_of_read? hc
  ⟨h.1.2 _ hmem, h.2.1 _ hmem⟩

/-- Writing the entry of one size keeps the tables as TABLE_VALID says when its bit is set. -/
theorem tablesWf_of_splice {s t : State} {k : Nat} {c : SizeCache} (h : s.tablesWf) (hk : k < 13)
    (hc : IsTablesOf k c) (hcaches : t.caches = s.caches.splice k [c])
    (hvalid : ∀ j < 32, t.tableValid.getLsbD j = (s.tableValid.getLsbD j || decide (j = k))) :
    t.tablesWf := by
  obtain ⟨hwf, hents, hbits⟩ := s.tablesWf_iff.1 h
  refine t.tablesWf_iff.2 ⟨?_, fun e he => ?_, fun j hj => ?_⟩
  · rw [hcaches]
    exact Memory.splice_wf hwf k [c] hk
  · obtain he | rfl := Memory.mem_splice_one (hcaches ▸ he)
    · exact hents e he
    · exact hc
  · rw [hvalid j hj, hbits j hj, hcaches, Memory.read?_splice_one]
    by_cases hjk : j = k <;> simp [hjk]

theorem State.buildTables_getLsbD (s : State) (k j : Nat) (hj : j < 32) :
    (s.buildTables k).tableValid.getLsbD j = (s.tableValid.getLsbD j || decide (j = k)) := by
  rw [State.buildTables_tableValid, BitVec.getLsbD_or, BitVec.getLsbD_ofNat, Nat.testBit_two_pow]
  simp [hj, eq_comm]

theorem State.buildTables_tablesWf {s : State} {k : Nat} (h : s.tablesWf) (hk : 2 ≤ k ∧ k ≤ 12) :
    (s.buildTables k).tablesWf :=
  tablesWf_of_splice h (by omega) ⟨hk.1, rfl, rfl, rfl⟩ (s.buildTables_caches k)
    (s.buildTables_getLsbD k)

theorem State.touchAux_tablesWf {s : State} (k : Nat) (h : s.tablesWf) :
    (s.touchAux k).tablesWf := by
  have hcaches := s.touchAux_caches k
  cases hc : s.caches.read? k with
  | none =>
    simp only [hc] at hcaches
    simpa only [State.tablesWf, hcaches, State.touchAux_tableValid] using h
  | some c =>
    simp only [hc] at hcaches
    obtain ⟨hk, hents⟩ := h.isTablesOf hc
    refine tablesWf_of_splice h hk (c := { c with auxRuns := c.auxRuns + 1 }) hents hcaches
      fun j hj => ?_
    by_cases hjk : j = k
    · simp [hjk, h.valid (k := k) (by omega), hc]
    · simp [hjk]

/-! ## The position of a session in its stream -/

/-- The counters after `n` frames of the session (10_state.md R50). -/
structure State.AtFrame (s : State) (n : Nat) : Prop where
  consumed : s.framesProcessed.toNat = 1365 * n
  row : s.row.toNat = n / 5
  coeff : s.coeff.toNat = n % 5
  note : s.noteIndex.toNat = n % 8

theorem State.AtFrame.frames_eq {s : State} {n : Nat} (h : s.AtFrame n) : s.frames = n := by
  simp [State.frames, overlap, h.consumed]

theorem State.AtFrame.needsSamples_iff {s : State} {n : Nat} (h : s.AtFrame n) :
    s.needsSamples = true ↔ n < maxFrames := by
  simp only [State.needsSamples, h.consumed, frameSize, budget, maxFrames, overlap,
    decide_eq_true_eq]
  omega

/-- The session invariant while a session is live, in terms of its position. -/
theorem State.sessionWf_live_iff {s : State} (hlive : s.live = true) :
    s.sessionWf ↔ ∃ n ≤ maxFrames, s.AtFrame n ∧ s.img = s.finalized ∧
      s.carryLen.toNat ≤ carryCap ∧ (s.needsSamples = false → s.carryLen = 0) ∧
      (n = 0 → s.carryLen = 0) ∧ (s.finalized = true → maxWidth < s.row.toNat) := by
  rw [State.sessionWf, if_pos hlive]
  constructor
  · rintro ⟨hfp, hmax, hrow, hcoeff, hnote, hrest⟩
    exact ⟨s.frames, hmax, ⟨hfp, hrow, hcoeff, hnote⟩, hrest⟩
  · rintro ⟨n, hmax, hn, hrest⟩
    rw [hn.frames_eq]
    exact ⟨hn.consumed, hmax, hn.row, hn.coeff, hn.note, hrest⟩

/-- While no session is live the counters stand where a session begins. -/
theorem State.sessionWf.atFrame {s : State} (h : s.sessionWf) : ∃ n ≤ maxFrames, s.AtFrame n := by
  cases hlive : s.live with
  | true =>
    obtain ⟨n, hmax, hn, -⟩ := (State.sessionWf_live_iff hlive).1 h
    exact ⟨n, hmax, hn⟩
  | false =>
    rw [State.sessionWf, if_neg (by simp [hlive])] at h
    obtain ⟨hfp, hrow, hcoeff, hnote, -⟩ := h
    exact ⟨0, Nat.zero_le _, by simp [hfp], by simp [hrow], by simp [hcoeff], by simp [hnote]⟩

theorem State.sessionWf.carryLen_le {s : State} (h : s.sessionWf) :
    s.carryLen.toNat ≤ carryCap := by
  cases hlive : s.live with
  | true =>
    obtain ⟨_, -, -, -, hcarry, -⟩ := (State.sessionWf_live_iff hlive).1 h
    exact hcarry
  | false =>
    rw [State.sessionWf, if_neg (by simp [hlive])] at h
    obtain ⟨-, -, -, -, hcarry, -⟩ := h
    simp [hcarry]

theorem State.AtFrame.row_le {s : State} {n : Nat} (h : s.AtFrame n) (hn : n ≤ maxFrames) :
    s.row.toNat ≤ rowsCap := by
  rw [h.row, rowsCap, rowEvery]
  omega

/-! ## Operations that write no array and no counter -/

theorem State.Inv.tables {s : State} (h : s.Inv) : s.tablesWf := h.2.1

theorem State.Inv.session {s : State} (h : s.Inv) : s.sessionWf := h.2.2.1

theorem State.Inv.raise {s : State} (h : s.Inv) (e : ErrCode) : (s.raise e).Inv := h

theorem State.Inv.complete {s : State} (h : s.Inv) : s.complete.Inv := h

theorem State.Inv.drawn {s : State} (h : s.Inv) : s.drawn.Inv := h

theorem State.Inv.answer {s : State} (h : s.Inv) (b : Bool) : (s.answer b).Inv := h

theorem State.Inv.withPending {s : State} (h : s.Inv) (actions : List HostAction) :
    (s.withPending actions).Inv := h

/-- Settles O2. -/
theorem resetSatisfiesInvariant : Obligations.ResetSatisfiesInvariant := by
  unfold Obligations.ResetSatisfiesInvariant
  decide

theorem State.platformReset_inv (s : State) : s.platformReset.Inv := resetSatisfiesInvariant

/-! ## Writing arrays -/

theorem State.Inv.spliceSin {s : State} (h : s.Inv) (lo : Nat) (vs : List Word)
    (hcap : lo + vs.length ≤ sinCap) : State.Inv { s with sin := s.sin.splice lo vs } :=
  ⟨⟨Memory.splice_wf h.1.1 lo vs hcap, h.1.2⟩, h.2⟩

theorem State.Inv.spliceFb {s : State} (h : s.Inv) (lo : Nat) (vs : List F64)
    (hcap : lo + vs.length ≤ frameSize) : State.Inv { s with fb := s.fb.splice lo vs } := by
  obtain ⟨⟨hsin, hfb, harrays⟩, hrest⟩ := h
  exact ⟨⟨hsin, Memory.splice_wf hfb lo vs hcap, harrays⟩, hrest⟩

theorem State.Inv.spliceSubfp {s : State} (h : s.Inv) (lo : Nat) (vs : List Word)
    (hcap : lo + vs.length ≤ subfpCap) : State.Inv { s with subfp := s.subfp.splice lo vs } := by
  obtain ⟨⟨hsin, hfb, hsubfp, harrays⟩, hrest⟩ := h
  exact ⟨⟨hsin, hfb, Memory.splice_wf hsubfp lo vs hcap, harrays⟩, hrest⟩

theorem Space.lt_extent_of_admits {space : Space} {i : Nat} (h : space.admits i = true) :
    i < space.extent := by
  simp only [Space.admits, Bool.and_eq_true, decide_eq_true_eq] at h
  exact h.1

/-- What the host and the platform may do keeps the invariant (20_memory.md R64, R65). -/
theorem State.Inv.hostEffect {s : State} (h : s.Inv) {a : HostAction}
    (hadmitted : a.wellFormed = true) : (s.hostEffect a).Inv := by
  cases a with
  | read space i => exact h
  | writeCsr offset v =>
    show (s.writeCsr offset v).Inv
    unfold State.writeCsr
    split <;> exact h
  | writeSin i v =>
    exact h.spliceSin i [v] (Space.lt_extent_of_admits hadmitted)
  | writeFb i v =>
    exact h.spliceFb i [v] (Space.lt_extent_of_admits hadmitted)
  | writeSubfp i v =>
    exact h.spliceSubfp i [v] (Space.lt_extent_of_admits hadmitted)
  | writeOut i v => exact h
  | reset => exact s.platformReset_inv

/-! ## The session commands -/

theorem State.Inv.openSession {s : State} (h : s.Inv) : s.openSession.Inv := by
  obtain ⟨harrays, htables, -, hfp, -, hlengths⟩ := h
  refine ⟨harrays, htables, (State.sessionWf_live_iff rfl).2 ?_, hfp, Nat.zero_le _, hlengths⟩
  exact ⟨0, Nat.zero_le _, ⟨rfl, rfl, rfl, rfl⟩, rfl, Nat.zero_le _, fun _ => rfl, fun _ => rfl,
    nofun⟩

theorem State.Inv.closeSession {s : State} (h : s.Inv) : s.closeSession.Inv :=
  ⟨h.1, h.2.1, by simp [State.sessionWf], h.2.2.2⟩

/-! ## Tables and transform -/

theorem State.Inv.buildTables {s : State} (h : s.Inv) {k : Nat} (hk : 2 ≤ k ∧ k ≤ 12) :
    (s.buildTables k).Inv :=
  ⟨h.1, State.buildTables_tablesWf h.tables hk, h.2.2⟩

theorem TablesReady.inv {s t : State} {k : Nat} (ready : TablesReady s k t) (h : s.Inv)
    (hk : 2 ≤ k ∧ k ≤ 12) : t.Inv := by
  cases ready with
  | before => exact h
  | now => exact h.drawn.buildTables hk

theorem State.Inv.touchAux {s : State} (h : s.Inv) (k : Nat) : (s.touchAux k).Inv := by
  refine ⟨?_, State.touchAux_tablesWf k h.tables, ?_⟩
  · simpa [State.arraysWf] using h.1
  · simpa [State.sessionWf, State.lengthsWf, State.frames, State.needsSamples] using h.2.2

theorem State.Inv.transformFb {s : State} (h : s.Inv) {k : Nat} (hk : k ≤ 12) :
    (s.transformFb k).Inv := by
  have hsize : 2 ^ k ≤ 2 ^ 12 := Nat.pow_le_pow_right two_pos hk
  exact State.Inv.touchAux (h.spliceFb 0 (s.fft k (s.fbSlice (2 ^ k)))
    (by simpa [frameSize] using hsize)) k

/-! ## Fingerprints -/

theorem State.Inv.compress {s : State} (h : s.Inv) (ws : List Word) (hw : ws.length ≤ subfpCap) :
    (s.compress ws).Inv := by
  obtain ⟨⟨hsin, hfb, hsubfp, hout, hcarry, hring, hchroma, hsym, hraw⟩, htables, hsession, -⟩ := h
  have hsymbols : (symbols ws).length ≤ symCap :=
    (symbols_length_le ws).trans (Nat.mul_le_mul_left 33 hw)
  have hbytes := rawBytes_length_le ws hw
  have htext : (base64 (rawBytes ws)).length ≤ outCap := by
    rw [base64_length]
    simp only [rawCap, symCap, subfpCap, outCap] at hbytes ⊢
    omega
  have hreg (n cap : Nat) (hn : n ≤ cap) : (BitVec.ofNat 32 n).toNat ≤ cap :=
    (BitVec.toNat_ofNat n 32 ▸ Nat.mod_le n _).trans hn
  exact ⟨⟨hsin, hfb, hsubfp, Memory.splice_wf hout 0 _ (by simpa using htext), hcarry, hring,
    hchroma, Memory.splice_wf hsym 0 _ (by simpa using hsymbols),
    Memory.splice_wf hraw 0 _ (by simpa using hbytes)⟩, htables, hsession,
    hreg _ _ hw, hreg _ _ hsymbols, hreg _ _ hbytes, hreg _ _ htext⟩

@[simp] theorem subFingerprints_length (img : List F64) (l : Nat) :
    (subFingerprints img l).length = l := by simp [subFingerprints]

theorem State.Inv.fingerprint {s : State} (h : s.Inv) (hlive : s.live = true)
    (hrows : maxWidth < s.row.toNat) : (s.fingerprint (s.row.toNat - (maxWidth - 1))).Inv := by
  obtain ⟨⟨hsin, hfb, hsubfp, hout, hcarry, hring, hchroma, harrays⟩, htables, hsession,
    hlengths⟩ := h
  obtain ⟨n, hmax, hn, -, hlen, hbudget, hempty, -⟩ := (State.sessionWf_live_iff hlive).1 hsession
  have hrow := hn.row_le hmax
  have himage : 0 + s.imageOf.length ≤ rowsCap * notes := by
    rw [State.imageOf_length, Nat.zero_add, Nat.mul_comm]
    exact Nat.mul_le_mul_right _ hrow
  have hfp : (subFingerprints s.imageOf (s.row.toNat - (maxWidth - 1))).length ≤ subfpCap := by
    rw [subFingerprints_length]
    exact (Nat.sub_le _ _).trans (hrow.trans (by decide))
  -- the image, the sub-fingerprints and `FINAL` together; the compressor runs before `FINAL` is set
  -- but neither reads what the other writes
  have hmarked : State.Inv (((s.writeImage s.imageOf).writeSubfp
      (subFingerprints s.imageOf (s.row.toNat - (maxWidth - 1)))).finalize) := by
    refine ⟨⟨hsin, hfb, Memory.splice_wf hsubfp 0 _ (by simpa using hfp), hout, hcarry, hring,
      Memory.splice_wf hchroma 0 _ himage, harrays⟩, htables,
      ?_, hlengths⟩
    refine (State.sessionWf_live_iff ?_).2 ?_
    · exact hlive
    exact ⟨n, hmax, ⟨hn.consumed, hn.row, hn.coeff, hn.note⟩, rfl, hlen, hbudget, hempty,
      fun _ => hrows⟩
  exact hmarked.compress _ hfp

/-! ## Frames -/

/-- What the frame loop keeps: arrays, tables and lengths as in `Inv`, and the counters at some
frame of the session, at least the one given. `CARRY_LEN` is settled only after the loop. -/
structure State.Streaming (s : State) (least : Nat) : Prop where
  arrays : s.arraysWf
  tables : s.tablesWf
  lengths : s.lengthsWf
  position : ∃ n, least ≤ n ∧ n ≤ maxFrames ∧ s.AtFrame n

/-- The count of the row gate, which its three bits hold (42_chroma.md R157). -/
theorem State.gateCount {s : State} {n : Nat} (hcoeff : s.coeff.toNat = n % 5) :
    (s.coeff + 1).toNat = n % 5 + 1 := by
  rw [BitVec.toNat_add, hcoeff]
  exact Nat.mod_eq_of_lt (by simp; omega)

/-- At frame `n + 1` the row gate has emitted a row for every fifth frame (42_chroma.md R157). -/
theorem State.gateRow_counts {s : State} {n : Nat} (hrow : s.row.toNat = n / 5)
    (hcoeff : s.coeff.toNat = n % 5) (hn : n < maxFrames) :
    s.gateRow.row.toNat = (n + 1) / 5 ∧ s.gateRow.coeff.toNat = (n + 1) % 5 := by
  simp only [maxFrames, budget, frameSize, overlap] at hn
  have hnext := State.gateCount hcoeff
  obtain ⟨h5, he⟩ | ⟨h5, he⟩ := s.gateRow_cases <;> rw [hnext, rowEvery] at h5 <;> rw [he]
  · have hstep : (s.row + 1).toNat = n / 5 + 1 := by
      rw [BitVec.toNat_add, hrow]
      exact Nat.mod_eq_of_lt (by simp; omega)
    rw [State.emitRow_row, State.emitRow_coeff, State.setCoeff_row, State.setCoeff_coeff, hstep,
      show (0 : BitVec 3).toNat = 0 from rfl]
    omega
  · rw [State.setCoeff_row, State.setCoeff_coeff, hrow, hnext]
    omega

/-- The row the gate emits lies inside `CHROMA`. -/
theorem State.gateRow_chroma_wf {s : State} {n : Nat} (h : s.chroma.wf (rowsCap * notes))
    (hrow : s.row.toNat = n / 5) (hcoeff : s.coeff.toNat = n % 5) (hn : n < maxFrames) :
    s.gateRow.chroma.wf (rowsCap * notes) := by
  obtain ⟨h5, he⟩ | ⟨-, he⟩ := s.gateRow_cases <;> rw [he]
  · rw [State.gateCount hcoeff, rowEvery] at h5
    refine Memory.splice_wf h _ _ ?_
    simp only [State.setCoeff_row, hrow, normaliseRow_length, List.length_map, List.length_range]
    simp only [maxFrames, rowsCap, notes, rowEvery, budget, frameSize, overlap] at hn ⊢
    omega
  · exact h

/-- The state the row gate sees in the course of a frame: spectrum and ring slot are written, the
note pointer is advanced (42_chroma.md R153). -/
def State.beforeGate (s : State) (f : List F64) : State :=
  (((s.writeFb (s.fft 12 (windowFn f))).touchAux 12).writeRingSlot s.noteIndex.toNat
    (noteEnergies (s.fft 12 (windowFn f)).toArray).toList).advanceNote

theorem State.processFrame_eq_gateRow (s : State) (f : List F64) :
    s.processFrame f = (s.beforeGate f).gateRow.countFrame := by
  simp [State.processFrame, State.chromaStep, State.beforeGate]

/-- One processed frame moves the session on by one frame, its arrays in their bounds. -/
theorem State.Streaming.processFrame {s : State} {least : Nat} (h : s.Streaming least)
    (hneeds : s.needsSamples = true) (f : List F64) : (s.processFrame f).Streaming (least + 1) := by
  obtain ⟨⟨hsin, hfb, hsubfp, hout, hcarry, hring, hchroma, harrays⟩, htables, hlengths,
    n, hleast, -, hn⟩ := h
  have hlast : n < maxFrames := hn.needsSamples_iff.1 hneeds
  have hgate := s.processFrame_eq_gateRow f
  have hrow : (s.beforeGate f).row.toNat = n / 5 := by simpa [State.beforeGate] using hn.row
  have hcoeff : (s.beforeGate f).coeff.toNat = n % 5 := by simpa [State.beforeGate] using hn.coeff
  obtain ⟨hrow', hcoeff'⟩ := State.gateRow_counts hrow hcoeff hlast
  have hring' : (s.ring.splice (notes * s.noteIndex.toNat)
      (noteEnergies (s.fft 12 (windowFn f)).toArray).toList).wf (ringSlots * notes) := by
    refine Memory.splice_wf hring _ _ ?_
    have := s.noteIndex.isLt
    simp only [Array.length_toList, noteEnergies_size, ringSlots, notes]
    omega
  have hchroma' : (s.beforeGate f).gateRow.chroma.wf (rowsCap * notes) :=
    State.gateRow_chroma_wf (by simpa [State.beforeGate] using hchroma) hrow hcoeff hlast
  have htables' : (s.processFrame f).tablesWf := by
    simpa [State.tablesWf, hgate, State.beforeGate] using
      State.touchAux_tablesWf (s := s.writeFb (s.fft 12 (windowFn f))) 12 htables
  refine ⟨?_, htables', ?_, n + 1, by omega, hlast, ?_, ?_, ?_, ?_⟩
  · simp only [State.arraysWf, State.processFrame_sin, State.processFrame_fb,
      State.processFrame_subfp, State.processFrame_out, State.processFrame_carry,
      State.processFrame_ring, State.processFrame_sym, State.processFrame_raw]
    exact ⟨hsin, Memory.splice_wf hfb 0 _ (by simp [frameSize]), hsubfp, hout, hcarry, hring',
      by rw [hgate, State.countFrame_chroma]; exact hchroma', harrays⟩
  · simpa [State.lengthsWf] using hlengths
  · simp only [State.processFrame_framesProcessed, BitVec.toNat_add, BitVec.toNat_ofNat,
      hn.consumed, overlap]
    simp only [maxFrames, budget, frameSize, overlap] at hlast
    omega
  · rw [hgate, State.countFrame_row, hrow']
  · rw [hgate, State.countFrame_coeff, hcoeff']
  · simp only [State.processFrame_noteIndex, BitVec.toNat_add, hn.note]
    simp

/-! ## A chunk of samples -/

theorem State.Streaming.mono {s : State} {least m : Nat} (h : s.Streaming least) (hm : m ≤ least) :
    s.Streaming m := by
  obtain ⟨harrays, htables, hlengths, n, hn, hrest⟩ := h
  exact ⟨harrays, htables, hlengths, n, hm.trans hn, hrest⟩

theorem State.Inv.streaming {s : State} (h : s.Inv) : s.Streaming 0 := by
  obtain ⟨harrays, htables, hsession, hlengths⟩ := h
  obtain ⟨n, hmax, hn⟩ := hsession.atFrame
  exact ⟨harrays, htables, hlengths, n, Nat.zero_le _, hmax, hn⟩

/-- A chunk that holds a frame, in a session that needs samples, processes one at least. -/
theorem frameLoop_streaming {s : State} (h : s.Streaming 0) (hneeds : s.needsSamples = true)
    {b : List F64} (hb : frameSize ≤ b.length) : (frameLoop b.length b s).2.Streaming 1 := by
  obtain ⟨passes, hp⟩ : ∃ passes, b.length = passes + 1 :=
    Nat.exists_eq_succ_of_ne_zero (by simp only [frameSize] at hb; omega)
  rw [hp, frameLoop, if_pos ⟨hb, hneeds⟩]
  exact frameLoop_keeps (P := fun t => t.Streaming 1)
    (fun t f hneeds _ ht => (ht.processFrame hneeds f).mono (by decide)) passes _ _
    (h.processFrame hneeds _)

/-- The carry-over is kept only while samples are needed, and then it is shorter than a frame, so
the invariant holds again. -/
theorem State.Streaming.keepRest_inv {s : State} (h : s.Streaming 1) (hlive : s.live = true)
    (himg : s.img = s.finalized) (hunfinished : s.finalized = false) {rest : List F64}
    (hrest : rest.length < frameSize ∨ s.needsSamples = false) : (s.keepRest rest).Inv := by
  obtain ⟨⟨hsin, hfb, hsubfp, hout, hcarry, harrays⟩, htables, hlengths, n, hn1, hmax, hn⟩ := h
  unfold State.keepRest
  split
  · rename_i hneeds
    have hshort : rest.length ≤ carryCap := by
      have := hrest.resolve_right (by simp [hneeds])
      simp only [carryCap]
      omega
    have hkept : (s.storeCarry rest).carryLen.toNat ≤ carryCap :=
      (BitVec.toNat_ofNat _ 32 ▸ Nat.mod_le _ _).trans hshort
    refine ⟨⟨hsin, hfb, hsubfp, hout, Memory.splice_wf hcarry 0 rest (by simpa using hshort),
      harrays⟩, htables, (State.sessionWf_live_iff ?_).2 ⟨n, hmax, ?_, himg, hkept, ?_, ?_, ?_⟩,
      hlengths⟩
    · exact hlive
    · exact ⟨hn.consumed, hn.row, hn.coeff, hn.note⟩
    · exact fun h => absurd (hneeds.symm.trans h) nofun
    · omega
    · exact fun h => absurd (hunfinished.symm.trans h) nofun
  · refine ⟨⟨hsin, hfb, hsubfp, hout, hcarry, harrays⟩, htables,
      (State.sessionWf_live_iff ?_).2 ⟨n, hmax, ?_, himg, Nat.zero_le _, fun _ => rfl, fun _ => rfl,
        ?_⟩, hlengths⟩
    · exact hlive
    · exact ⟨hn.consumed, hn.row, hn.coeff, hn.note⟩
    · exact fun h => absurd (hunfinished.symm.trans h) nofun

theorem State.Inv.consume {s : State} (h : s.Inv) (hlive : s.live = true)
    (hunfinished : s.finalized = false) (hneeds : s.needsSamples = true) {x : List F64}
    (hx : minChunk ≤ x.length) : (s.consume x).Inv := by
  obtain ⟨n, -, -, himg, -⟩ := (State.sessionWf_live_iff hlive).1 h.session
  have hb : frameSize ≤ (s.carrySlice s.carryLen.toNat ++ x).length := by
    simp only [List.length_append, minChunk, frameSize] at hx ⊢
    omega
  have kept := frameLoop_sameButStream (s.carrySlice s.carryLen.toNat ++ x).length
    (s.carrySlice s.carryLen.toNat ++ x) s
  have same {α : Type} (field : State → α) := congrArg field kept
  exact (frameLoop_streaming h.streaming hneeds hb).keepRest_inv
    ((same State.live).trans hlive)
    ((same State.img).trans (himg.trans (same State.finalized).symm))
    ((same State.finalized).trans hunfinished) (frameLoop_done _ _ _ le_rfl)

/-! ## Every step -/

theorem TablesReady.sameSession {s t : State} {k : Nat} (ready : TablesReady s k t) :
    t.live = s.live ∧ t.finalized = s.finalized ∧ t.needsSamples = s.needsSamples := by
  cases ready <;> exact ⟨rfl, rfl, rfl⟩

theorem CommandEffect.inv {s t : State} {i : Instr} (effect : CommandEffect s i t) (h : s.Inv) :
    t.Inv := by
  cases effect with
  | raises => exact h.raise _
  | drawFails => exact h.drawn.raise _
  | nop => exact h.complete
  | sessionOpen => exact h.openSession.complete
  | sessionClose => exact h.closeSession.complete
  | needsSamples => exact (h.answer _).complete
  | canCalculate => exact (h.answer _).complete
  | budgetReached => exact h.complete
  | addSamples s₁ x live unfinished needs chunk ready =>
    obtain ⟨hlive, hunfinished, hneeds⟩ := ready.sameSession
    exact ((ready.inv h (by decide)).consume (hlive.trans live) (hunfinished.trans unfinished)
      (hneeds.trans needs) chunk).complete
  | calculateFingerprint live rows => exact (h.fingerprint live rows).complete
  | fftForward s₁ k size ready => exact ((ready.inv h size).transformFb size.2).complete
  | window x frame => exact (h.spliceFb 0 (windowFn x) (by simp [frame])).complete
  | compress least most => exact (h.compress _ (by simpa using most)).complete

/-- Settles O3: by the kind of action the step performs, and for a command by its effect. -/
theorem stepKeepsInvariant : Obligations.StepKeepsInvariant := by
  intro s t h hstep
  obtain ⟨-, he⟩ | ⟨a, rest, -, ⟨w, i, -, -, he⟩ | ⟨w, r, -, -, he⟩ | ⟨-, hadmitted, he⟩ |
    ⟨f, -, -, he⟩⟩ := step_cases s <;> rw [he] at hstep
  · cases hstep
    exact h
  · obtain ⟨u, hu, effect⟩ := exec_effect i (s.withPending rest)
    rw [hu] at hstep
    cases hstep
    exact effect.inv (h.withPending rest)
  · cases hstep
    exact (h.withPending rest).raise _
  · cases hstep
    exact (h.withPending rest).hostEffect (by rw [← accessFault_isNone, hadmitted]; rfl)
  · cases hstep

/-- Settles O4: a session is at one frame of at most 967, and each built size is among 2 to 12. -/
theorem invariantBoundsCounters : Obligations.InvariantBoundsCounters := by
  intro s h
  obtain ⟨-, htables, hsession, -⟩ := h
  obtain ⟨n, hmax, hn⟩ := hsession.atFrame
  obtain ⟨hconsumed, hrow, hcoeff, hnote⟩ := hn
  have hcarry : s.carryLen.toNat ≤ 4095 := hsession.carryLen_le
  simp only [maxFrames, budget, frameSize, overlap] at hmax
  refine ⟨by omega, by omega, by omega, hcarry, by omega, by omega, by omega, fun k hk hbit => ?_⟩
  rw [htables.valid hk, Option.isSome_iff_exists] at hbit
  obtain ⟨c, hc⟩ := hbit
  obtain ⟨hlt, h2, -⟩ := htables.isTablesOf hc
  omega

end Sys2Proof.Machine
end

section
/-! O19 to O22: which command writes which part of the state. -/

namespace Sys2Proof.Machine

/-! ## ADD_SAMPLES -/

/-- Beyond the stream, ADD_SAMPLES writes what building the tables writes. -/
theorem TablesReady.stream_eq {s s₁ t : State} {k : Nat} (ready : TablesReady s k s₁)
    (same : s₁.SameButStream t) :
    t = { s with
      framesProcessed := t.framesProcessed, row := t.row, coeff := t.coeff
      noteIndex := t.noteIndex, carryLen := t.carryLen, tableValid := t.tableValid, fb := t.fb
      carry := t.carry, ring := t.ring, chroma := t.chroma, caches := t.caches
      allocDraws := t.allocDraws, drawCount := t.drawCount } := by
  unfold State.SameButStream at same
  have hvalid : t.tableValid = s₁.tableValid := (congrArg State.tableValid same :)
  have hdraws : t.allocDraws = s₁.allocDraws := (congrArg State.allocDraws same :)
  have hcount : t.drawCount = s₁.drawCount := (congrArg State.drawCount same :)
  refine same.trans ?_
  rw [hvalid, hdraws, hcount]
  cases ready <;> rfl

/-! ## What no command writes -/

theorem CommandEffect.keeps_operands {s t : State} {i : Instr} (effect : CommandEffect s i t) :
    t.arg0 = s.arg0 ∧ t.ctrlFmt = s.ctrlFmt ∧ t.sin = s.sin ∧ t.pending = s.pending ∧
      t.lastRead = s.lastRead ∧ t.resetCount = s.resetCount := by
  cases effect with
  | addSamples s₁ x _ _ _ _ ready =>
    have kept := ready.stream_eq (s₁.consume_sameButStream x)
    generalize s₁.consume x = u at kept
    rw [kept]
    exact ⟨rfl, rfl, rfl, rfl, rfl, rfl⟩
  | fftForward s₁ k _ ready =>
    cases ready <;> simp [State.transformFb]
  | _ => simp [State.fingerprint]

/-- Settles O21. -/
theorem commandsKeepOperandsAndSamples : Obligations.CommandsKeepOperandsAndSamples := by
  intro i s
  obtain ⟨t, ht, effect⟩ := exec_effect i s
  exact ⟨t, ht, effect.keeps_operands⟩

/-! ## What the named commands write -/

/-- Settles O22: each effect leaves alone the arrays and registers its command is not named for. -/
theorem onlyTheNamedCommandsWrite : Obligations.OnlyTheNamedCommandsWrite := by
  intro i s
  obtain ⟨t, ht, effect⟩ := exec_effect i s
  refine ⟨t, ht, ?_⟩
  clear ht
  cases effect with
  | addSamples s₁ x _ _ _ _ ready =>
    have kept := ready.stream_eq (s₁.consume_sameButStream x)
    generalize s₁.consume x = u at kept
    rw [kept]
    simp
  | fftForward s₁ k _ ready => cases ready <;> simp [State.transformFb]
  | drawFails _ hi => simp [hi]
  | _ => simp [State.fingerprint]

theorem State.needsSamples_eq (s : State) :
    s.needsSamples = decide (s.framesProcessed.toNat + 4095 < 1323000) :=
  decide_eq_decide.2 (by simp [frameSize, budget])

theorem State.canCalculate_eq (s : State) :
    s.canCalculate = decide (77175 ≤ s.framesProcessed.toNat) :=
  decide_eq_decide.2 (by simp [minCalc])

/-- Settles O19: only the effects of the two queries write `RES`. -/
theorem resultHoldsLastSuccessfulAnswer : Obligations.ResultHoldsLastSuccessfulAnswer := by
  intro i s
  obtain ⟨t, ht, effect⟩ := exec_effect i s
  refine ⟨t, ht, ?_⟩
  clear ht
  cases effect with
  | raises _ e he => simp [he]
  | addSamples s₁ x _ _ _ _ ready =>
    have kept := ready.stream_eq (s₁.consume_sameButStream x)
    generalize s₁.consume x = u at kept
    rw [kept]
    simp
  | fftForward s₁ k _ ready => cases ready <;> simp [State.transformFb]
  | needsSamples => simp [State.needsSamples_eq]
  | canCalculate => simp [State.canCalculate_eq]
  | _ => simp [State.fingerprint]

end Sys2Proof.Machine
end

section
/-! O20: the length registers and the text in `OUT` describe the last fingerprint. -/

namespace Sys2Proof.Machine

/-- The length registers and `OUT` hold the compressed string of `fp` (44_compress.md R218). -/
structure State.HoldsFingerprint (s : State) (fp : List Word) : Prop where
  values : s.fpLen.toNat = fp.length
  bytes : s.bytesLen.toNat = (rawBytes fp).length
  chars : s.outLen.toNat = (base64 (rawBytes fp)).length
  text : ∀ j < s.outLen.toNat, (base64 (rawBytes fp))[j]? = some (s.outAt j)

theorem State.HoldsFingerprint.complete {s : State} {fp : List Word} (h : s.HoldsFingerprint fp) :
    s.complete.HoldsFingerprint fp := ⟨h.values, h.bytes, h.chars, h.text⟩

theorem State.HoldsFingerprint.finalize {s : State} {fp : List Word} (h : s.HoldsFingerprint fp) :
    s.finalize.HoldsFingerprint fp := ⟨h.values, h.bytes, h.chars, h.text⟩

theorem State.subfpSlice_eq (s : State) (n : Nat) :
    s.subfpSlice n = (List.range n).map s.subfpAt := by
  rw [List.range_eq_range']
  rfl

/-- The values of a run that was written at the start of `SUBFP`, read back. -/
theorem State.map_subfpAt_writeSubfp (s : State) (vs : List Word) :
    (List.range vs.length).map (s.writeSubfp vs).subfpAt = vs := by
  rw [← State.subfpSlice_eq]
  exact Memory.slice_splice ..

/-- Reading back an element of a run that was written from index 0 on. -/
theorem Memory.getD_read?_splice {β : Type} (m : Memory β) {vs : List β} {j : Nat} (d : β)
    (hj : j < vs.length) : some (((Memory.splice m 0 vs).read? j).getD d) = vs[j]? := by
  have hread := Memory.read?_splice_inside m 0 vs j hj
  rw [Nat.zero_add] at hread
  rw [hread, List.getElem?_eq_getElem hj]
  rfl

theorem State.compress_holdsFingerprint (s : State) {fp : List Word} (h : fp.length ≤ subfpCap) :
    (s.compress fp).HoldsFingerprint fp := by
  have hbytes := rawBytes_length_le fp h
  have hchars := base64_length (rawBytes fp)
  simp only [subfpCap, rawCap, symCap] at h hbytes
  have hout : (s.compress fp).outLen.toNat = (base64 (rawBytes fp)).length := by
    rw [State.compress_outLen, BitVec.toNat_ofNat]
    omega
  refine ⟨?_, ?_, hout, fun j hj =>
    (Memory.getD_read?_splice s.out _ (hout ▸ hj)).symm⟩
  · rw [State.compress_fpLen, BitVec.toNat_ofNat]
    omega
  · rw [State.compress_bytesLen, BitVec.toNat_ofNat]
    omega

theorem State.fingerprint_holdsFingerprint (s : State) {l : Nat} (h : l ≤ subfpCap) :
    (s.fingerprint l).HoldsFingerprint ((List.range l).map (s.fingerprint l).subfpAt) := by
  have hread := (s.writeImage s.imageOf).map_subfpAt_writeSubfp (subFingerprints s.imageOf l)
  rw [subFingerprints_length] at hread
  rw [show (List.range l).map (s.fingerprint l).subfpAt = _ from hread]
  exact (State.compress_holdsFingerprint _ (by simpa using h)).finalize

/-- The fingerprint a command makes when it completes: COMPRESS from what stands in `SUBFP`,
CALCULATE_FINGERPRINT one value for each row but 15 (45_controller.md R262). -/
def State.fingerprintLength (s : State) (i : Instr) : Nat :=
  if i = .compress then s.arg0.toNat else s.row.toNat - 15

theorem CommandEffect.lengths {s t : State} {i : Instr} (effect : CommandEffect s i t)
    (hrow : s.row.toNat ≤ rowsCap) :
    (i = .compress ∨ i = .calculateFingerprint) ∧ t.err = .ok ∧
        t.HoldsFingerprint ((List.range (s.fingerprintLength i)).map t.subfpAt) ∨
      ¬((i = .compress ∨ i = .calculateFingerprint) ∧ t.err = .ok) ∧
        t.fpLen = s.fpLen ∧ t.bytesLen = s.bytesLen ∧ t.outLen = s.outLen := by
  cases effect with
  | compress least most =>
    refine .inl ⟨.inl rfl, rfl, ?_⟩
    have hread : (List.range (s.fingerprintLength .compress)).map
        (s.compress (s.subfpSlice s.arg)).complete.subfpAt = s.subfpSlice s.arg :=
      (s.subfpSlice_eq s.arg).symm
    rw [hread]
    exact (s.compress_holdsFingerprint (by simpa using most)).complete
  | calculateFingerprint live rows =>
    refine .inl ⟨.inr rfl, rfl, ?_⟩
    rw [show s.fingerprintLength .calculateFingerprint = s.row.toNat - (maxWidth - 1) from rfl]
    exact (s.fingerprint_holdsFingerprint
      ((Nat.sub_le _ _).trans (hrow.trans (by decide)))).complete
  | raises _ e he => exact .inr ⟨fun h => he h.2, rfl, rfl, rfl⟩
  | addSamples s₁ x _ _ _ _ ready =>
    have kept := ready.stream_eq (s₁.consume_sameButStream x)
    generalize s₁.consume x = u at kept
    rw [kept]
    exact .inr ⟨by simp, rfl, rfl, rfl⟩
  | fftForward s₁ k _ ready => exact .inr (by cases ready <;> simp [State.transformFb])
  | _ => exact .inr (by simp)

/-- Settles O20: the two commands that make a fingerprint leave it held, the others keep the
registers. The invariant bounds `ROW`, so that the fingerprint fits. -/
theorem lengthRegistersHoldLastFingerprint : Obligations.LengthRegistersHoldLastFingerprint := by
  intro i s h
  obtain ⟨t, ht, effect⟩ := exec_effect i s
  obtain ⟨n, hmax, hn⟩ := h.session.atFrame
  refine ⟨t, ht, ?_⟩
  obtain ⟨hi, herr, held⟩ | ⟨hother, kept⟩ := effect.lengths (hn.row_le hmax)
  · rw [if_pos ⟨hi, herr⟩]
    exact ⟨held.values.trans (by simp [State.fingerprintLength]), held.bytes, held.chars, held.text⟩
  · rw [if_neg hother]
    exact kept

end Sys2Proof.Machine
end

section
/-! O29, O33: the transform in place, and the tables it uses. -/

namespace Sys2Proof.Machine

/-! ## The tables of a size -/

theorem cosTable_getElem? {k i : Nat} (hi : i < 2 ^ k) :
    (cosTable k)[i]? = some (fcos (tableAngle k i)) := by
  simp [cosTable, hi]

theorem sinTable_getElem? {k i : Nat} (hi : i < 2 ^ k) :
    (sinTable k)[i]? = some (fsin (tableAngle k i)) := by
  simp [sinTable, hi]

/-- Where the tables of a size are ready its valid bit is set, and no other bit has changed. -/
theorem TablesReady.getLsbD {s t : State} {k : Nat} (ready : TablesReady s k t) {j : Nat}
    (hj : j < 32) : t.tableValid.getLsbD j = (s.tableValid.getLsbD j || decide (j = k)) := by
  cases ready with
  | before built =>
    by_cases hjk : j = k
    · simp [hjk, built]
    · simp [hjk]
  | now => exact s.drawn.buildTables_getLsbD k j hj

theorem TablesReady.read?_other {s t : State} {k : Nat} (ready : TablesReady s k t) {j : Nat}
    (hj : j ≠ k) : t.caches.read? j = s.caches.read? j := by
  cases ready with
  | before => rfl
  | now => rw [State.buildTables_caches, Memory.read?_splice_one, if_neg hj, State.drawn_caches]

theorem TablesReady.fbAt {s t : State} {k : Nat} (ready : TablesReady s k t) :
    t.fbAt = s.fbAt := by
  cases ready <;> rfl

/-- Where the tables of a size are ready, their entry stands and is the one of 40_fft.md R102. -/
theorem TablesReady.entry {s t : State} {k : Nat} (ready : TablesReady s k t) (h : s.Inv)
    (hk : 2 ≤ k ∧ k ≤ 12) : ∃ c, t.caches.read? k = some c ∧ IsTablesOf k c := by
  have htables := (ready.inv h hk).tables
  have hbit := ready.getLsbD (j := k) (by omega)
  rw [htables.valid (by omega), decide_eq_true rfl, Bool.or_true, Option.isSome_iff_exists] at hbit
  obtain ⟨c, hc⟩ := hbit
  exact ⟨c, hc, (htables.isTablesOf hc).2⟩

/-! ## The transform -/

theorem State.fbSlice_eq (s : State) (n : Nat) : s.fbSlice n = (List.range n).map s.fbAt := by
  rw [List.range_eq_range']
  rfl

theorem State.fft_eq {s : State} {k : Nat} {c : SizeCache} (hc : s.caches.read? k = some c)
    (htab : IsTablesOf k c) (x : List F64) :
    s.fft k x = (fftWith (cosTable k).toArray (sinTable k).toArray k x.toArray).toList := by
  obtain ⟨-, hcos, hsin, -⟩ := htab
  simp [State.fft, State.cacheOf, hc, hcos, hsin]

theorem State.touchAux_read? {s : State} {k : Nat} {c : SizeCache}
    (hc : s.caches.read? k = some c) (j : Nat) :
    (s.touchAux k).caches.read? j =
      if j = k then some { c with auxRuns := c.auxRuns + 1 } else s.caches.read? j := by
  rw [State.touchAux_caches]
  simp only [hc, Memory.read?_splice_one]

theorem State.transformFb_eq (s : State) (k : Nat) :
    s.transformFb k = { s with
      fb := s.fb.splice 0 (s.fft k (s.fbSlice (2 ^ k))), caches := (s.transformFb k).caches } := by
  unfold State.transformFb State.touchAux
  split <;> rfl

theorem State.transformFb_fbAt_inside (s : State) {k i : Nat} (hi : i < 2 ^ k) :
    some ((s.transformFb k).fbAt i) = (s.fft k (s.fbSlice (2 ^ k)))[i]? := by
  rw [s.transformFb_eq]
  exact Memory.getD_read?_splice s.fb _ (by simpa using hi)

theorem State.transformFb_fbAt_outside (s : State) {k i : Nat} (hi : 2 ^ k ≤ i) :
    (s.transformFb k).fbAt i = s.fbAt i := by
  rw [s.transformFb_eq]
  have hread := Memory.read?_splice_outside s.fb 0 (s.fft k (s.fbSlice (2 ^ k))) i
    (.inr (by simpa using hi))
  simp only [State.fbAt, State.unwritten, hread]

theorem execFftForward_ready {s : State} {k : Nat} (hk : 2 ≤ k ∧ k ≤ 12)
    (harg : s.arg0.toNat = 2 ^ k) (havail : s.tablesAvailable k = true) :
    ∃ s₁, TablesReady s k s₁ ∧ exec .fftForward s = .next (s₁.transformFb k).complete := by
  have hlog : transformLog? s.arg = some k := (transformLog?_eq_some _ _).2 ⟨hk.1, hk.2, harg⟩
  obtain ⟨s₁, he, ready⟩ | he := s.ensureTables_ready k
  · refine ⟨s₁, ready, ?_⟩
    show execFftForward s = _
    simp [execFftForward, hlog, he]
  · rw [← s.ensureTables_fst, he] at havail
    exact absurd havail nofun

/-- Settles O29: with its tables ready the command completes on the state `EnsureTables` leaves. -/
theorem fftForwardTransformsFrameBuffer : Obligations.FftForwardTransformsFrameBuffer := by
  intro s k h h2 h12 harg havail
  obtain ⟨s₁, ready, hexec⟩ := execFftForward_ready ⟨h2, h12⟩ harg havail
  obtain ⟨c, hc, htab⟩ := ready.entry h ⟨h2, h12⟩
  have hentry := fun j => State.touchAux_read?
    (s := s₁.writeFb (s₁.fft k (s₁.fbSlice (2 ^ k)))) (k := k) (c := c) hc j
  refine ⟨_, hexec, ?_, fun i hi => ?_, fun i hi => ?_, fun j hj => ?_, ?_, fun i => ?_,
    fun j hj => ?_, fun hbuilt => ?_⟩
  · rw [s₁.transformFb_eq]
    cases ready <;> rfl
  · refine (s₁.transformFb_fbAt_inside hi).trans ?_
    rw [State.fft_eq hc htab, State.fbSlice_eq, ready.fbAt]
    simp
  · exact (s₁.transformFb_fbAt_outside hi).trans (congrFun ready.fbAt i)
  · rw [s₁.transformFb_eq]
    exact ready.getLsbD hj
  · refine ⟨_, (hentry k).trans (if_pos rfl), ?_⟩
    obtain ⟨-, hcos, hsin, -⟩ := htab
    exact ⟨hcos, hsin, by simp [hcos], by simp [hsin], fun i hi =>
      ⟨hcos ▸ cosTable_getElem? hi, hsin ▸ sinTable_getElem? hi⟩⟩
  · obtain ⟨-, -, -, haux⟩ := htab
    rw [State.auxAt_isSome]
    show ((s₁.transformFb k).caches.read? k).any _ = _
    rw [show (s₁.transformFb k).caches.read? k = _ from hentry k]
    simp [haux]
  · exact (hentry j).trans ((if_neg hj).trans (ready.read?_other hj))
  · cases ready with
    | before => simp [State.transformFb]
    | now unbuilt => exact absurd (hbuilt.symm.trans unbuilt) nofun

/-! ## Built tables -/

/-- Every entry of the first state stands in the second, with the same tables and the same extent of
`AUX_k`; other entries may have come (40_fft.md R103). -/
def State.TablesKept (s t : State) : Prop :=
  ∀ (k : Nat) (c : SizeCache), s.caches.read? k = some c →
    ∃ c', t.caches.read? k = some c' ∧ c'.tabCos = c.tabCos ∧ c'.tabSin = c.tabSin ∧
      c'.auxLen = c.auxLen

theorem State.tablesKept_of_caches_eq {s t : State} (h : t.caches = s.caches) : s.TablesKept t :=
  fun _ c hc => ⟨c, by rw [h, hc], rfl, rfl, rfl⟩

theorem State.TablesKept.trans {s t u : State} (h : s.TablesKept t) (h' : t.TablesKept u) :
    s.TablesKept u := by
  intro k c hc
  obtain ⟨c₁, hc₁, hcos₁, hsin₁, haux₁⟩ := h k c hc
  obtain ⟨c₂, hc₂, hcos₂, hsin₂, haux₂⟩ := h' k c₁ hc₁
  exact ⟨c₂, hc₂, hcos₂.trans hcos₁, hsin₂.trans hsin₁, haux₂.trans haux₁⟩

theorem State.touchAux_tablesKept (s : State) (k : Nat) : s.TablesKept (s.touchAux k) := by
  intro j c hc
  cases hk : s.caches.read? k with
  | none => exact ⟨c, by simp [State.touchAux_caches, hk, hc], rfl, rfl, rfl⟩
  | some c' =>
    rw [State.touchAux_read? hk]
    by_cases hjk : j = k
    · subst hjk
      obtain rfl : c' = c := Option.some.inj (hk.symm.trans hc)
      exact ⟨_, if_pos rfl, rfl, rfl, rfl⟩
    · exact ⟨c, by rw [if_neg hjk, hc], rfl, rfl, rfl⟩

/-- Tables are built only for a size that has none: the invariant ties the valid bits to the
entries. -/
theorem TablesReady.tablesKept {s t : State} {k : Nat} (ready : TablesReady s k t) (h : s.Inv)
    (hk : k < 32) : s.TablesKept t := by
  cases ready with
  | before => exact State.tablesKept_of_caches_eq rfl
  | now unbuilt =>
    intro j c hc
    have hjk : j ≠ k := by
      rintro rfl
      rw [h.tables.valid hk, hc] at unbuilt
      exact absurd unbuilt nofun
    exact ⟨c, by simp [hjk, hc], rfl, rfl, rfl⟩

theorem State.transformFb_tablesKept (s : State) (k : Nat) : s.TablesKept (s.transformFb k) :=
  .trans (t := s.writeFb (s.fft k (s.fbSlice (2 ^ k)))) (State.tablesKept_of_caches_eq rfl)
    (State.touchAux_tablesKept _ k)

theorem State.processFrame_tablesKept (s : State) (f : List F64) :
    s.TablesKept (s.processFrame f) := by
  have used : s.TablesKept ((s.writeFb (s.fft 12 (windowFn f))).touchAux 12) :=
    .trans (State.tablesKept_of_caches_eq (s.writeFb_caches _)) (State.touchAux_tablesKept _ 12)
  exact used.trans (State.tablesKept_of_caches_eq (by simp [State.processFrame]))

theorem State.consume_tablesKept (s : State) (x : List F64) : s.TablesKept (s.consume x) := by
  have rest (t : State) (l : List F64) : t.TablesKept (t.keepRest l) := by
    unfold State.keepRest
    split <;> exact State.tablesKept_of_caches_eq rfl
  exact .trans (frameLoop_keeps (P := s.TablesKept)
    (fun t f _ _ h => h.trans (t.processFrame_tablesKept f)) _ _ _
    (State.tablesKept_of_caches_eq rfl)) (rest _ _)

theorem CommandEffect.tablesKept {s t : State} {i : Instr} (effect : CommandEffect s i t)
    (h : s.Inv) : s.TablesKept t := by
  cases effect with
  | addSamples s₁ x _ _ _ _ ready =>
    exact (ready.tablesKept h (by decide)).trans ((s₁.consume_tablesKept x).trans
      (State.tablesKept_of_caches_eq (State.complete_caches _)))
  | fftForward s₁ k size ready =>
    exact (ready.tablesKept h (by omega)).trans ((s₁.transformFb_tablesKept k).trans
      (State.tablesKept_of_caches_eq (State.complete_caches _)))
  | _ => exact State.tablesKept_of_caches_eq (by simp [State.fingerprint])

/-- Of the actions that issue no command, only a reset touches the tables. -/
theorem State.hostEffect_caches (s : State) {a : HostAction} (ha : a ≠ .reset) :
    (s.hostEffect a).caches = s.caches := by
  cases a with
  | reset => exact absurd rfl ha
  | writeCsr offset v =>
    show (s.writeCsr offset v).caches = _
    unfold State.writeCsr
    split <;> rfl
  | _ => rfl

theorem step_tablesKept {s t : State} (h : s.Inv) (hstep : step s = .next t)
    (hreset : s.pending.head? ≠ some .reset) : s.TablesKept t := by
  obtain ⟨-, he⟩ | ⟨a, rest, hpending, ⟨w, i, -, -, he⟩ | ⟨w, r, -, -, he⟩ | ⟨-, -, he⟩ |
    ⟨f, -, -, he⟩⟩ := step_cases s <;> rw [he] at hstep
  · cases hstep
    exact State.tablesKept_of_caches_eq rfl
  · obtain ⟨u, hu, effect⟩ := exec_effect i (s.withPending rest)
    rw [hu] at hstep
    cases hstep
    exact effect.tablesKept (h.withPending rest)
  · cases hstep
    exact State.tablesKept_of_caches_eq rfl
  · cases hstep
    refine State.tablesKept_of_caches_eq (State.hostEffect_caches _ ?_)
    rintro rfl
    exact hreset (by rw [hpending]; rfl)
  · cases hstep

/-- Settles O33: the step keeps the entry, and the invariant of the next state ties the valid bit to
it. -/
theorem builtTablesNeverChange : Obligations.BuiltTablesNeverChange := by
  intro s t k c h hc hstep hreset
  obtain ⟨c', hc', hsame⟩ := step_tablesKept h hstep hreset k c hc
  have htables := (stepKeepsInvariant s t h hstep).tables
  obtain ⟨hk, -⟩ := htables.isTablesOf hc'
  exact ⟨by rw [htables.valid (by omega), hc']; rfl, c', hc', hsame⟩

end Sys2Proof.Machine
end

section
/-! O1, O8, O11, O12, O14, O15: the register map, and the steps of the host. -/

namespace Sys2Proof.Machine

/-! ## Registers -/

/-- A register that the map of 10_state.md R23 does not name reads 0 (R40). -/
theorem State.csrAt_reserved (s : State) {offset : Nat} (h : 0x40 ≤ offset) :
    s.csrAt offset = 0 := by
  unfold State.csrAt
  split <;> simp_all

theorem State.reset_csrAt (offset : Nat) : State.reset.csrAt offset = 0 := by
  unfold State.csrAt
  split <;> rfl

/-- Settles O1. -/
theorem resetLeavesEveryRegisterZero : Obligations.ResetLeavesEveryRegisterZero :=
  ⟨State.reset_csrAt, rfl, rfl, rfl, fun _ => rfl,
    fun _ => ⟨rfl, rfl, rfl, rfl, rfl, rfl, rfl, rfl, rfl⟩⟩

theorem bitWord_formatBit (f : SampleFormat) :
    bitWord f.bit = if f = .float32 then 1#32 else 0#32 := by
  cases f <;> rfl

/-- A narrow register reads with zeros above it. -/
theorem toNat_setWidth_narrow (v : BitVec 3) : (v.setWidth 32).toNat = v.toNat := by
  rw [BitVec.toNat_setWidth]
  exact Nat.mod_eq_of_lt (v.isLt.trans (by decide))

theorem ErrCode.code_lt (e : ErrCode) : e.code < 16 := by cases e <;> decide

theorem SessionState.code_lt (st : SessionState) : st.code < 8 := by cases st <;> decide

/-- The two fields of `STATUS` and the zeros above them (10_state.md R23). -/
theorem statusFields {err state : Nat} (he : err < 16) (hs : state < 8) :
    (BitVec.ofNat 32 (err + 16 * state)).extractLsb' 7 25 = 0 ∧
    ((BitVec.ofNat 32 (err + 16 * state)).extractLsb' 0 4).toNat = err ∧
    ((BitVec.ofNat 32 (err + 16 * state)).extractLsb' 4 3).toNat = state := by
  refine ⟨BitVec.eq_of_toNat_eq (show _ = 0 from ?_), ?_, ?_⟩ <;>
    simp only [BitVec.extractLsb'_toNat, BitVec.toNat_ofNat, Nat.shiftRight_eq_div_pow] <;> omega

/-- The state code, by the chain of 10_state.md R41. -/
theorem State.sessionState_code (s : State) :
    s.sessionState.code =
      if s.live = false then 0
      else if s.finalized then 4
      else if s.framesProcessed = 0 then 1
      else if 77175 ≤ s.framesProcessed.toNat then 3
      else 2 := by
  unfold State.sessionState
  rw [State.canCalculate_eq]
  simp only [apply_ite SessionState.code, Bool.not_eq_true', decide_eq_true_eq]
  rfl

/-- Settles O12. -/
theorem statusWordFields : Obligations.StatusWordFields := by
  intro s
  obtain ⟨hzero, herr, hstate⟩ := statusFields s.err.code_lt s.sessionState.code_lt
  refine ⟨hzero, herr.trans ?_, hstate.trans s.sessionState_code⟩
  cases s.err <;> rfl

/-! ## Steps of the host -/

/-- A pending action that issues no command and is admitted takes its effect. -/
theorem step_of_admitted {s : State} {a : HostAction} {rest : List HostAction}
    (hpending : s.pending = a :: rest) (hword : commandWord? a = none)
    (hadmitted : a.wellFormed = true) :
    step s = .next ((s.withPending rest).hostEffect a) := by
  have hfault : accessFault a = none := by
    rwa [← accessFault_isNone, Option.isNone_iff_eq_none] at hadmitted
  simp [step, hpending, perform, hword, hostStep, hfault]

theorem Space.admits_of_lt {space : Space} {i : Nat} (h : i < space.extent)
    (haligned : space = .csr → i % 4 = 0) : space.admits i = true := by
  simp only [Space.admits, Bool.and_eq_true, decide_eq_true_eq, Bool.or_eq_true, bne_iff_ne,
    beq_iff_eq]
  exact ⟨h, or_iff_not_imp_left.2 fun hc => haligned (not_not.1 hc)⟩

/-- An admitted host read records the element it read and has no other effect (20_memory.md R65). -/
theorem step_read {s : State} {space : Space} {i : Nat} {rest : List HostAction}
    (hpending : s.pending = .read space i :: rest) (h : i < space.extent)
    (haligned : space = .csr → i % 4 = 0) :
    step s = .next { s with pending := rest, lastRead := some (s.hostRead space i) } :=
  (step_of_admitted hpending rfl (Space.admits_of_lt h haligned)).trans (by cases space <;> rfl)

/-- An aligned host write of a register other than `CMD`. -/
theorem step_writeCsr {s : State} {offset : Nat} {v : Word} {rest : List HostAction}
    (hpending : s.pending = .writeCsr offset v :: rest) (h : offset < 4096)
    (haligned : offset % 4 = 0) (hcmd : 0 < offset) :
    step s = .next ((s.withPending rest).writeCsr offset v) :=
  step_of_admitted hpending (if_neg hcmd.ne') (Space.admits_of_lt h fun _ => haligned)

theorem State.writeCsr_eq (s : State) (offset : Nat) (v : Word) :
    s.writeCsr offset v =
      if offset = 0x08 then { s with arg0 := v }
      else if offset = 0x10 then { s with ctrlFmt := sampleFormatOfBit (v.getLsbD 0) }
      else s := by
  unfold State.writeCsr
  split <;> simp_all

/-- Settles O8: `perform` runs what `decode` answers. -/
theorem stepRunsDecodedCommand : Obligations.StepRunsDecodedCommand := by
  intro _ w rest i hpending hdecode _
  simp only [step, hpending, perform, commandWord?, issueCommand, hdecode, if_pos]
  rfl

/-- Settles O11. -/
theorem hostReadHasNoSideEffect : Obligations.HostReadHasNoSideEffect :=
  ⟨fun _ => ⟨rfl, rfl, rfl, bitWord_formatBit _, rfl, rfl, toNat_setWidth_narrow _,
      toNat_setWidth_narrow _, rfl, rfl, rfl, rfl, rfl, rfl, bitWord_formatBit _⟩,
    fun _ _ _ => ⟨fun hp h => step_read hp h nofun, fun hp h => step_read hp h nofun,
      fun hp h => step_read hp h nofun, fun hp h => step_read hp h nofun,
      fun hp h haligned => step_read hp h fun _ => haligned⟩⟩

/-- Settles O14. -/
theorem hostCsrWrites : Obligations.HostCsrWrites := by
  intro s rest offset v hpending haligned hcmd h
  rw [step_writeCsr hpending h haligned hcmd, State.writeCsr_eq]
  rfl

/-- Settles O15: above the map a register reads 0, and a write falls through to no register. -/
theorem reservedOffsetsReadZeroIgnoreWrites : Obligations.ReservedOffsetsReadZeroIgnoreWrites := by
  intro s rest offset v hlow hhigh haligned
  have h : offset < 4096 := by omega
  refine ⟨fun hp => ?_, fun hp => ?_⟩
  · rw [step_read hp h fun _ => haligned]
    show Host.Outcome.next { s with pending := rest, lastRead := some (.word (s.csrAt offset)) } = _
    rw [s.csrAt_reserved hlow]
  · rw [step_writeCsr hp h haligned (by omega), State.writeCsr_eq, if_neg (by omega),
      if_neg (by omega)]
    rfl

end Sys2Proof.Machine
end

section
/-! O10, O13: where a step stops, and what a host write stores. -/

namespace Sys2Proof.Machine

/-! ## Where a step stops -/

/-- An action that issues a command writes `CMD`, which 20_memory.md R64 admits. -/
theorem wellFormed_of_commandWord? {a : HostAction} {w : Word} (h : commandWord? a = some w) :
    a.wellFormed = true := by
  cases a with
  | writeCsr offset v =>
    simp only [commandWord?, Option.ite_none_right_eq_some] at h
    obtain ⟨rfl, -⟩ := h
    rfl
  | _ => cases h

/-- A step moves on when it is idle or the oldest pending action is admitted. -/
theorem step_next_of_admitted {s : State}
    (h : ∀ a rest, s.pending = a :: rest → a.wellFormed = true) : ∃ t, step s = .next t := by
  obtain ⟨-, hs⟩ | ⟨a, rest, hp, ⟨w, i, -, -, hs⟩ | ⟨w, r, -, -, hs⟩ | ⟨-, -, hs⟩ |
    ⟨f, -, hf, -⟩⟩ := step_cases s
  · exact ⟨_, hs⟩
  · obtain ⟨t, ht, -⟩ := exec_effect i (s.withPending rest)
    exact ⟨t, hs.trans ht⟩
  · exact ⟨_, hs⟩
  · exact ⟨_, hs⟩
  · have hadmitted := h a rest hp
    rw [← accessFault_isNone, hf] at hadmitted
    cases hadmitted

/-- A step faults on an access that is not admitted: it issues no command, and its fault stops the
machine. -/
theorem step_faults_of_not_admitted {s : State} {a : HostAction} {rest : List HostAction}
    (hpending : s.pending = a :: rest) (h : a.wellFormed = false) : ∃ f, step s = .fault f := by
  have hword : commandWord? a = none :=
    Option.eq_none_iff_forall_ne_some.2 fun w hw => by
      rw [wellFormed_of_commandWord? hw] at h
      cases h
  rw [← accessFault_isNone] at h
  obtain ⟨f, hf⟩ := Option.isSome_iff_exists.1 (Option.isNone_eq_false_iff.1 h)
  exact ⟨f, by simp [step, hpending, perform, hword, hostStep, hf]⟩

/-- Settles O10: by whether the oldest pending action, if there is one, is admitted. -/
theorem stepStopsExactlyOnHostMisuse : Obligations.StepStopsExactlyOnHostMisuse := by
  intro s
  by_cases hstuck : ∃ a rest, s.pending = a :: rest ∧ a.wellFormed = false
  · obtain ⟨a, rest, hp, ha⟩ := hstuck
    obtain ⟨f, hf⟩ := step_faults_of_not_admitted hp ha
    exact ⟨⟨fun _ => ⟨a, rest, hp, ha⟩, fun _ => ⟨f, hf⟩⟩, by simp [hf]⟩
  · obtain ⟨t, ht⟩ := step_next_of_admitted (s := s) fun a rest hp => by
      by_contra ha
      exact hstuck ⟨a, rest, hp, Bool.eq_false_iff.2 ha⟩
    exact ⟨⟨by simp [ht], fun h => absurd h hstuck⟩, by simp [ht]⟩

/-! ## Host writes -/

/-- Writing one element: it reads as the value written, and every other element as before. -/
theorem Memory.getD_read?_splice_one {β : Type} (m : Memory β) (unwritten : Nat → β) (i : Nat)
    (v : β) :
    (Memory.read? (m.splice i [v]) i).getD (unwritten i) = v ∧
    ∀ j, j ≠ i → (Memory.read? (m.splice i [v]) j).getD (unwritten j) =
      (m.read? j).getD (unwritten j) := by
  refine ⟨?_, fun j hj => ?_⟩
  · rw [Memory.read?_splice_one, if_pos rfl, Option.getD_some]
  · rw [Memory.read?_splice_one, if_neg hj]

/-- Settles O13: each of the three writes is admitted, and its effect is to splice one element. -/
theorem hostWriteStoresOneElement : Obligations.HostWriteStoresOneElement := by
  refine fun s rest i => ⟨fun v hp h => ?_, fun v hp h => ?_, fun v hp h => ?_⟩
  · exact ⟨_, step_of_admitted hp rfl (Space.admits_of_lt (space := .sin) h nofun), rfl,
      Memory.getD_read?_splice_one s.sin _ i v⟩
  · exact ⟨_, step_of_admitted hp rfl (Space.admits_of_lt (space := .fb) h nofun), rfl,
      Memory.getD_read?_splice_one s.fb _ i v⟩
  · exact ⟨_, step_of_admitted hp rfl (Space.admits_of_lt (space := .subfp) h nofun), rfl,
      Memory.getD_read?_splice_one s.subfp _ i v⟩

end Sys2Proof.Machine
end

section
/-! O35: the samples' values are dyadic, so no rounding moves them; the clamp keeps their signs. -/

namespace Sys2Proof.Machine

/-! ## Dyadic numbers are not rounded -/

/-- An integer of at most 53 bits at an admitted scale is a multiple of the quantum it rounds to. -/
theorem RoundsTo.dyadic_exact {m n : Nat} {q e : Int} (h : RoundsTo m q ((n : ℝ) * 2 ^ e))
    (hn : n ≤ 2 ^ 53) (he : -1074 ≤ e) : (m : ℝ) * 2 ^ q = n * 2 ^ e := by
  rcases le_or_gt q e with hq | hq
  · refine h.exact (n * 2 ^ (e - q).toNat) ?_
    have : (2 : ℝ) ^ e = 2 ^ (e - q).toNat * 2 ^ q := by
      rw [← zpow_natCast, ← zpow_add₀ two_ne_zero]; congr 1; omega
    rw [this]
    push_cast; ring
  · -- the scale is above the least, so the number lies at the lower end of its binade
    have low := h.normal.resolve_left (by omega)
    have up : (n : ℝ) * 2 ^ e ≤ 2 ^ 52 * 2 ^ q := by
      have hn' : (n : ℝ) ≤ 2 ^ 53 := by exact_mod_cast hn
      calc (n : ℝ) * 2 ^ e ≤ 2 ^ 53 * 2 ^ e := by gcongr
        _ = 2 ^ 52 * 2 ^ (e + 1) := by rw [zpow_add_one₀ two_ne_zero]; ring
        _ ≤ 2 ^ 52 * 2 ^ q := by gcongr; norm_num; omega
    exact h.exact (2 ^ 52) (by exact_mod_cast le_antisymm up low)

/-- `roundRatio` gives a number of at most 53 bits, far below the overflow bound, exactly. -/
theorem roundRatio_dyadic (negative : Bool) {n : Nat} {e : Int} (hn : n ≤ 2 ^ 53)
    (he : -1074 ≤ e) (he' : e ≤ 947) :
    f64IsFinite (roundRatio negative n 1 e) = true ∧
    f64Negative (roundRatio negative n 1 e) = negative ∧
    f64Value (roundRatio negative n 1 e) = (if negative then -1 else 1) * (n * 2 ^ e) := by
  obtain ⟨m, q, hr, h⟩ := roundRatio_spec negative n one_pos e
  rw [Nat.cast_one, div_one] at h
  have hlt : (n : ℝ) * 2 ^ e < overflowBound := by
    have hn' : (n : ℝ) ≤ 2 ^ 53 := by exact_mod_cast hn
    calc (n : ℝ) * 2 ^ e ≤ 2 ^ 53 * 2 ^ (947 : ℤ) := by gcongr; norm_num
      _ = 2 ^ 1000 := by
        rw [← zpow_natCast, ← zpow_natCast, ← zpow_add₀ two_ne_zero]; rfl
      _ < overflowBound := two_pow_lt_overflowBound
  obtain ⟨hfin, hval, -⟩ := packMagnitude_finite negative h.isSignificand (h.fits hlt)
  rw [h.dyadic_exact hn he] at hval
  rw [hr]
  refine ⟨hfin, f64Negative_packMagnitude negative m q, ?_⟩
  apply Rat.cast_injective (α := ℝ)
  rw [hval]
  cases negative <;> simp [signOf]

/-- A result that is itself a finite value is not moved by its rounding. -/
theorem RoundsExact.exact {r c : F64} {z : ℚ} (h : RoundsExact r z) (hz : |z| ≤ 2 ^ 53)
    (hc : f64IsFinite c = true) (hcz : f64Value c = z) :
    f64IsFinite r = true ∧ f64Value r = z := by
  have hlt : ((|z| : ℚ) : ℝ) < overflowBound := lt_overflowBound_of_le (by exact_mod_cast hz)
  obtain ⟨hfin, hnear⟩ := h.1 (by exact_mod_cast hlt)
  obtain ⟨hle, -⟩ := hnear c hc
  rw [hcz, sub_self, abs_zero, abs_nonpos_iff, sub_eq_zero] at hle
  exact ⟨hfin, by exact_mod_cast hle⟩

/-! ## Integer samples -/

/-- A constant that is the pattern of an integer has that integer's value. -/
theorem f64Value_of_f64OfInt {a : F64} {v : Int} (h : f64OfInt v = a) (hv : |v| ≤ 2 ^ 53) :
    f64Value a = (v : ℚ) := h ▸ (f64OfInt_exact hv).2

theorem f64Value_fullScale : f64Value fullScale = 32768 := by
  simpa using f64Value_of_f64OfInt (a := fullScale) (v := 32768) (by decide +kernel) (by norm_num)

/-- An integer is its sign times its magnitude. -/
theorem sign_mul_natAbs (v : Int) :
    (if decide (v < 0) = true then -1 else 1) * (v.natAbs : ℚ) = v := by
  rw [Nat.cast_natAbs]
  rcases lt_or_ge v 0 with h | h
  · simp [h, abs_of_neg h]
  · simp [not_lt.2 h, abs_of_nonneg h]

/-- Dividing an integer of 16 bits by the full scale is exact and keeps its sign. -/
theorem fdiv_fullScale {v : Int} (hv : |v| ≤ 2 ^ 15) :
    f64IsFinite (fdiv (f64OfInt v) fullScale) = true ∧
    f64Negative (fdiv (f64OfInt v) fullScale) = decide (v < 0) ∧
    f64Value (fdiv (f64OfInt v) fullScale) = (v : ℚ) / 32768 := by
  obtain ⟨hfin, hval⟩ := f64OfInt_exact (v := v) (hv.trans (by norm_num))
  obtain ⟨hround, hneg⟩ := fdiv_finite (b := fullScale) hfin (by decide) (by decide)
  rw [hval, f64Value_fullScale] at hround
  have hle : |(v : ℚ) / 32768| ≤ 2 ^ 53 := by
    have : |(v : ℚ)| ≤ 2 ^ 15 := by exact_mod_cast hv
    rw [abs_div, div_le_iff₀ (by norm_num)]
    exact this.trans (by norm_num)
  obtain ⟨cfin, -, cval⟩ := roundRatio_dyadic (decide (v < 0)) (n := v.natAbs) (e := -15)
    (by rw [Int.abs_eq_natAbs] at hv; omega) (by norm_num) (by norm_num)
  rw [← mul_assoc, sign_mul_natAbs] at cval
  obtain ⟨rfin, rval⟩ := hround.exact hle cfin (cval.trans (by norm_num [div_eq_mul_inv]))
  refine ⟨rfin, ?_, rval⟩
  rw [hneg, f64OfInt, f64Negative_roundRatio _ _ one_pos]
  exact Bool.bne_false _

theorem norm_int16 (w : Word) :
    norm .int16 w = some (fdiv (f64OfInt (w.extractLsb' 0 16).toInt) fullScale) := rfl

/-- Bit 15 is the sign of an integer sample. -/
theorem sample_toInt_neg (w : Word) : decide ((w.extractLsb' 0 16).toInt < 0) = w.getLsbD 15 := by
  rw [← BitVec.msb_eq_toInt, BitVec.msb_eq_getLsbD_last]
  simp

theorem abs_toInt_le (v : BitVec 16) : |v.toInt| ≤ 2 ^ 15 := by
  have low := BitVec.le_toInt v
  have up := BitVec.toInt_lt (x := v)
  rw [abs_le]
  omega

/-! ## Binary32 samples -/

/-- The clamp of 41_window.md R131 to `[-1, 1]`. -/
def clampUnit (f : F64) : F64 :=
  if flt f f64MinusOne then f64MinusOne
  else if flt f64One f then f64One
  else f

theorem norm_float32 (w : Word) :
    norm .float32 w = if f32IsNaN w then none else some (clampUnit (f64OfF32 w)) := by
  simp only [norm, clampUnit, apply_ite some]

theorem f32IsNaN_iff (w : Word) :
    f32IsNaN w = true ↔ w.toNat / 2 ^ 23 % 2 ^ 8 = 255 ∧ w.toNat % 2 ^ 23 ≠ 0 := by
  simp only [f32IsNaN, Bool.and_eq_true, beq_iff_eq, bne_iff_ne]

/-- Every finite binary32 value is a binary64 value. -/
theorem f64OfF32_finite {w : Word} (h : w.toNat / 2 ^ 23 % 2 ^ 8 ≠ 255) :
    f64IsFinite (f64OfF32 w) = true ∧ f64Negative (f64OfF32 w) = w.msb ∧
    f64Value (f64OfF32 w) = f32Value w := by
  simp only [f64OfF32, f32Value, if_neg h, mul_assoc]
  exact roundRatio_dyadic w.msb (by split <;> omega) (by omega) (by omega)

theorem f64Value_minusOne : f64Value f64MinusOne = -1 := by
  simpa using f64Value_of_f64OfInt (a := f64MinusOne) (v := -1) (by decide +kernel) (by norm_num)

theorem f64Negative_of_value_neg {a : F64} (h : f64Value a < 0) : f64Negative a = true := by
  by_contra hneg
  rw [f64Value_of_not_negative (Bool.eq_false_iff.2 hneg)] at h
  exact (magnitudeValue_nonneg _).not_gt h

theorem f64Negative_of_value_pos {a : F64} (h : 0 < f64Value a) : f64Negative a = false := by
  by_contra hneg
  rw [f64Value_eq, if_pos (by simpa using hneg)] at h
  linarith [magnitudeValue_nonneg (f64Magnitude a)]

theorem clampUnit_inf (negative : Bool) :
    clampUnit (f64Inf negative) = if negative then f64MinusOne else f64One := by
  cases negative <;> decide

/-- The clamp of a finite value has the clamped value, and the same sign: past an end the value has
the sign of that end. -/
theorem clampUnit_finite {f : F64} (h : f64IsFinite f = true) :
    f64IsFinite (clampUnit f) = true ∧ f64Negative (clampUnit f) = f64Negative f ∧
    f64Value (clampUnit f) = max (-1) (min 1 (f64Value f)) := by
  have hlow := (comparisonsFollowValues.1 f f64MinusOne h (by decide)).1
  have hhigh := (comparisonsFollowValues.1 f64One f (by decide) h).1
  rw [f64Value_minusOne] at hlow
  rw [f64Value_one] at hhigh
  unfold clampUnit
  split
  next hc =>
    have hv := hlow.1 hc
    have hneg : f64Negative f = true := f64Negative_of_value_neg (hv.trans (by norm_num))
    rw [hneg, f64Value_minusOne, min_eq_right (by linarith), max_eq_left hv.le]
    exact ⟨by decide, by decide, rfl⟩
  next hc =>
    have hv : -1 ≤ f64Value f := not_lt.1 (mt hlow.2 hc)
    split
    next hc' =>
      have hv' := hhigh.1 hc'
      have hpos : f64Negative f = false := f64Negative_of_value_pos (one_pos.trans hv')
      rw [hpos, f64Value_one, min_eq_left hv'.le, max_eq_right (by norm_num)]
      exact ⟨by decide, by decide, rfl⟩
    next hc' =>
      rw [min_eq_right (not_lt.1 (mt hhigh.2 hc')), max_eq_right hv]
      exact ⟨h, rfl, rfl⟩

/-- Settles O35: integer samples by the exact division, binary32 samples by class. -/
theorem normalisedSampleValues : Obligations.NormalisedSampleValues := by
  refine ⟨fun w => ?_, fun w hexp hfrac => ?_, fun w hexp hfrac => ?_, fun w hexp => ?_⟩
  · obtain ⟨hfin, hneg, hval⟩ := fdiv_fullScale (abs_toInt_le (w.extractLsb' 0 16))
    exact ⟨_, norm_int16 w, hfin, hneg.trans (sample_toInt_neg w), hval⟩
  · rw [norm_float32, if_pos ((f32IsNaN_iff w).2 ⟨hexp, hfrac⟩)]
  · have hinf : f64OfF32 w = f64Inf w.msb := if_pos hexp
    rw [norm_float32, if_neg fun hn => ((f32IsNaN_iff w).1 hn).2 hfrac, hinf, clampUnit_inf]
  · obtain ⟨hfin, hneg, hval⟩ := f64OfF32_finite hexp
    obtain ⟨cfin, cneg, cval⟩ := clampUnit_finite hfin
    refine ⟨_, ?_, cfin, cneg.trans hneg, cval.trans (by rw [hval])⟩
    rw [norm_float32, if_neg fun hn => hexp ((f32IsNaN_iff w).1 hn).1]

end Sys2Proof.Machine
end

section
/-! O5, O6, O7: the decoder inverts the encoder, and every other word is illegal. -/

namespace Sys2Proof.Machine

/-! ## Opcodes -/

/-- The reserved opcodes of 30_encoding.md R85. -/
def ReservedOpcode (op : BitVec 8) : Prop :=
  (0x07 ≤ op.toNat ∧ op.toNat ≤ 0x0F) ∨ (0x13 ≤ op.toNat ∧ op.toNat ≤ 0xFF)

/-- The syntax law of the commands, for all ten. -/
theorem tableEncoding (i : Instr) : Laws.TableEncoding.Statement i := by
  cases i with
  | nop => exact Laws.TableEncoding.nop
  | sessionOpen => exact Laws.TableEncoding.sessionOpen
  | sessionClose => exact Laws.TableEncoding.sessionClose
  | addSamples => exact Laws.TableEncoding.addSamples
  | needsSamples => exact Laws.TableEncoding.needsSamples
  | canCalculate => exact Laws.TableEncoding.canCalculate
  | calculateFingerprint => exact Laws.TableEncoding.calculateFingerprint
  | fftForward => exact Laws.TableEncoding.fftForward
  | window => exact Laws.TableEncoding.window
  | compress => exact Laws.TableEncoding.compress

theorem opcode_not_reserved (i : Instr) : ¬ReservedOpcode i.opcode := by
  unfold ReservedOpcode
  cases i <;> decide

/-- What the opcode map answers: a command under its own opcode, or a rejection of a reserved one. -/
theorem decodeOpcode_cases (op : BitVec 8) :
    (∃ i : Instr, op = i.opcode ∧ decodeOpcode op = .ok i) ∨
    (ReservedOpcode op ∧ decodeOpcode op = .error (.reservedOpcode op)) := by
  unfold decodeOpcode
  split
  -- the ten rows of R82
  iterate 10
    next h =>
      refine .inl ⟨_, ?_, rfl⟩
      exact BitVec.eq_of_toNat_eq h
  next =>
    refine .inr ⟨?_, rfl⟩
    have hlt := op.isLt
    unfold ReservedOpcode
    grind

/-! ## Command words -/

/-- The illegal command words of 30_encoding.md R81: a reserved bit is set or the
opcode is reserved. -/
def IllegalWord (w : Word) : Prop :=
  w.extractLsb' 8 24 ≠ 0 ∨ ReservedOpcode (w.extractLsb' 0 8)

@[simp] theorem encode_opcodeField (i : Instr) : (encode i).extractLsb' 0 8 = i.opcode :=
  BitVec.extractLsb'_append_eq_right

@[simp] theorem encode_reservedField (i : Instr) : (encode i).extractLsb' 8 24 = 0 :=
  BitVec.extractLsb'_append_eq_left

/-- A word is determined by its two fields. -/
theorem eq_encode_of_fields {w : Word} {i : Instr} (hbits : w.extractLsb' 8 24 = 0)
    (hop : w.extractLsb' 0 8 = i.opcode) : w = encode i := by
  have hsplit : w.extractLsb' 8 24 ++ w.extractLsb' 0 8 = w :=
    BitVec.extractLsb'_append_extractLsb'
  rw [← hsplit, hbits, hop]
  rfl

theorem encode_not_illegal (i : Instr) : ¬IllegalWord (encode i) := by
  simp [IllegalWord, opcode_not_reserved i]

/-- What the decoder answers: the command a word encodes, or a rejection of an illegal word. -/
theorem decode_cases (w : Word) :
    (∃ i, w = encode i ∧ decode w = .ok i) ∨ (IllegalWord w ∧ ∃ r, decode w = .error r) := by
  by_cases hbits : w.extractLsb' 8 24 = 0
  · have hmap : decode w = decodeOpcode (w.extractLsb' 0 8) := if_neg (not_not.2 hbits)
    rw [hmap]
    obtain ⟨i, hop, hok⟩ | ⟨hreserved, herr⟩ := decodeOpcode_cases (w.extractLsb' 0 8)
    · exact .inl ⟨i, eq_encode_of_fields hbits hop, hok⟩
    · exact .inr ⟨.inr hreserved, _, herr⟩
  · exact .inr ⟨.inl hbits, .reservedBits, if_pos hbits⟩

theorem decode_encode (i : Instr) : decode (encode i) = .ok i := by
  obtain ⟨-, -, -, hdecode⟩ := tableEncoding i
  exact hdecode

/-- Settles O5: a word the decoder accepts encodes the command it answers. -/
theorem decodeAgreesWithEncode : Obligations.DecodeAgreesWithEncode := by
  refine fun w i => ⟨fun h => ?_, fun h => h ▸ decode_encode i⟩
  obtain ⟨j, hw, hj⟩ | ⟨-, r, hr⟩ := decode_cases w
  · cases hj.symm.trans h
    exact hw
  · cases hr.symm.trans h

/-! ## Writes of CMD -/

/-- A word the decoder rejects only raises IllegalCommand. -/
theorem step_of_decode_error {s : State} {w : Word} {rest : List HostAction} {r : DecodeReject}
    (hpending : s.pending = .writeCsr 0 w :: rest) (hdecode : decode w = .error r) :
    step s = .next { s with pending := rest, err := .illegalCommand } := by
  simp only [step, hpending, perform, commandWord?, issueCommand, hdecode, if_pos]
  rfl

/-- Settles O6: the decoder rejects the illegal words only, and the words it accepts are the
encodings of the commands in the opcode map. -/
theorem illegalWordsRaiseIllegalCommand : Obligations.IllegalWordsRaiseIllegalCommand := by
  intro s w rest hpending op reserved
  obtain ⟨i, rfl, hok⟩ | ⟨hillegal, r, herr⟩ := decode_cases w
  · obtain ⟨hwf, hmem, -, -⟩ := tableEncoding i
    refine ⟨fun h => absurd h (encode_not_illegal i), fun _ => ⟨i, ?_, ?_⟩⟩
    · show (((encode i).extractLsb' 0 8).toNat, i) ∈ opcodeTable
      rwa [encode_opcodeField]
    · exact stepRunsDecodedCommand s _ rest i hpending hok hwf
  · exact ⟨fun _ => step_of_decode_error hpending herr, fun h => absurd hillegal h⟩

/-- Settles O7. -/
theorem writtenWordsDecode : Obligations.WrittenWordsDecode :=
  ⟨rfl, rfl, rfl, rfl, rfl, rfl, rfl, rfl⟩

end Sys2Proof.Machine
end

section
/-! O30, O31: a failed draw, and what the result of a transform depends on. -/

namespace Sys2Proof.Machine

/-- Settles O30: `EnsureTables` stops at the draw, so the error is raised on the state that only the
draw has changed. -/
theorem failedDrawBuildsNothing : Obligations.FailedDrawBuildsNothing := by
  intro s k h2 h12 harg hunbuilt hdraw
  have hlog : transformLog? s.arg = some k := (transformLog?_eq_some _ _).2 ⟨h2, h12, harg⟩
  have hfails : s.ensureTables k = (false, s.drawn) := by
    obtain ⟨hbuilt, -⟩ | ⟨-, hdrawn, -⟩ | ⟨-, -, he⟩ := s.ensureTables_cases k
    · exact absurd (hbuilt.symm.trans hunbuilt) nofun
    · exact absurd (hdrawn.symm.trans hdraw) nofun
    · exact he
  show execFftForward s = _
  simp only [execFftForward, hlog, hfails]
  rfl

/-- Settles O31: the command writes `FFT_k` with the tables of 40_fft.md R102 (O29), a function of
`FB[0..N)` alone. -/
theorem transformDependsOnlyOnInput : Obligations.TransformDependsOnlyOnInput := by
  intro s s' k h h' h2 h12 harg harg' havail havail' hsame
  obtain ⟨t, hexec, -, hfb, -⟩ := fftForwardTransformsFrameBuffer s k h h2 h12 harg havail
  obtain ⟨t', hexec', -, hfb', -⟩ := fftForwardTransformsFrameBuffer s' k h' h2 h12 harg' havail'
  have hinput : (List.range (2 ^ k)).map s.fbAt = (List.range (2 ^ k)).map s'.fbAt :=
    List.map_congr_left fun i hi => hsame i (List.mem_range.1 hi)
  refine ⟨t, t', hexec, hexec', fun i hi => Option.some.inj ?_⟩
  rw [hfb i hi, hfb' i hi, hinput]

end Sys2Proof.Machine
end

section
/-! O32: the reorder, the butterflies of a stage, and the combine loop, each by what it stores at a
position; together they give the equations of 40_fft.md R111. -/

namespace Sys2Proof.Machine

/-! ## Elements of the engine's arrays -/

theorem some_elem {a : Array F64} {i : Nat} (hi : i < a.size) : some (elem a i) = a[i]? := by
  simp [elem, hi]

theorem elem_setIfInBounds_same {a : Array F64} {i : Nat} (hi : i < a.size) (v : F64) :
    elem (a.setIfInBounds i v) i = v := by
  simp [elem, hi]

theorem elem_setIfInBounds_other (a : Array F64) {i j : Nat} (hij : j ≠ i) (v : F64) :
    elem (a.setIfInBounds i v) j = elem a j := by
  simp [elem, Array.getElem?_setIfInBounds_ne hij.symm]

/-! ## Reorder -/

theorem reverseBits_lt (b i : Nat) : reverseBits b i < 2 ^ b := by
  induction b generalizing i with
  | zero => simp [reverseBits]
  | succ b ih =>
    have hlow := ih (i / 2)
    have htop : i % 2 * 2 ^ b ≤ 1 * 2 ^ b := Nat.mul_le_mul_right _ (by omega)
    rw [reverseBits, Nat.pow_succ]
    omega

/-- The top bit of the reversal is the low bit; the bits below reverse the rest. -/
theorem testBit_reverseBits {b j : Nat} (i : Nat) (hj : j < b) :
    (reverseBits b i).testBit j = i.testBit (b - 1 - j) := by
  induction b generalizing i with
  | zero => omega
  | succ b ih =>
    rw [reverseBits, Nat.mul_comm, Nat.testBit_two_pow_mul_add _ (reverseBits_lt b (i / 2))]
    split
    · next hlow =>
      rw [ih _ hlow, Nat.testBit_div_two]
      congr 1
      omega
    · next hhigh =>
      obtain rfl : j = b := by omega
      simp [Nat.testBit_zero]

theorem two_mul_two_pow_pred {k : Nat} (hk : 1 ≤ k) : 2 * 2 ^ (k - 1) = 2 ^ k := by
  rw [← Nat.pow_succ', show (k - 1).succ = k by omega]

/-- Position `j` after the reorder holds the packed value at the reversal of `j`
(40_fft.md R105, R106). -/
theorem elem_fftReorder {k j : Nat} {x : Array F64} (hk : 1 ≤ k) (hx : x.size = 2 ^ k)
    (hj : j < 2 ^ (k - 1)) :
    some (elem (fftReorder k x).1 j) = x[2 * reverseBits (k - 1) j]? ∧
      some (elem (fftReorder k x).2 j) = x[2 * reverseBits (k - 1) j + 1]? := by
  have hrev := reverseBits_lt (k - 1) j
  have hsize := two_mul_two_pow_pred hk
  rw [← some_elem (by omega), ← some_elem (by omega)]
  simp [fftReorder, elem, hj]

/-! ## One butterfly -/

/-- The complex value at position `i`. -/
def Complexes.value (z : Complexes) (i : Nat) : F64 × F64 := (elem z.1 i, elem z.2 i)

/-- Both parts hold `m` values. -/
def Complexes.HasSize (z : Complexes) (m : Nat) : Prop := z.1.size = m ∧ z.2.size = m

/-- The value `a` turned by the twiddle at index `tw`: `vr` and `vi` of 40_fft.md R111. -/
def twiddled (cosT sinT : Array F64) (tw : Nat) (a : F64 × F64) : F64 × F64 :=
  (fadd (fmul a.1 (elem cosT tw)) (fmul a.2 (elem sinT tw)),
   fsub (fmul a.2 (elem cosT tw)) (fmul a.1 (elem sinT tw)))

/-- Where a butterfly acts: its twiddle's index and the positions of its two values. -/
structure Wing where
  tw : Nat
  u : Nat
  v : Nat

/-- The butterfly at `w`. -/
def Wing.apply (cosT sinT : Array F64) (z : Complexes) (w : Wing) : Complexes :=
  butterfly cosT sinT w.tw w.u w.v z

/-- The two positions are different and below `m`. -/
def Wing.Fits (w : Wing) (m : Nat) : Prop := w.u < m ∧ w.v < m ∧ w.u ≠ w.v

/-- The butterfly does not act at position `i`. -/
def Wing.Avoids (w : Wing) (i : Nat) : Prop := i ≠ w.u ∧ i ≠ w.v

/-- No position of the second is one of the first. -/
def Wing.Apart (w w' : Wing) : Prop := w.Avoids w'.u ∧ w.Avoids w'.v

/-- After the butterfly at `w` on the values of `z`, the first position holds the sum and the second
the difference (40_fft.md R111). -/
def Wing.Done (cosT sinT : Array F64) (z z' : Complexes) (w : Wing) : Prop :=
  let a := z.value w.u
  let b := twiddled cosT sinT w.tw (z.value w.v)
  z'.value w.u = (fadd a.1 b.1, fadd a.2 b.2) ∧ z'.value w.v = (fsub a.1 b.1, fsub a.2 b.2)

section
variable (cosT sinT : Array F64)

theorem Wing.apply_hasSize {z : Complexes} {m : Nat} (hz : z.HasSize m) (w : Wing) :
    (w.apply cosT sinT z).HasSize m := by
  obtain ⟨zr, zi⟩ := z
  simpa [Wing.apply, butterfly, Complexes.HasSize] using hz

theorem Wing.apply_value_of_avoids (z : Complexes) {w : Wing} {i : Nat} (h : w.Avoids i) :
    (w.apply cosT sinT z).value i = z.value i := by
  obtain ⟨zr, zi⟩ := z
  obtain ⟨hu, hv⟩ := h
  simp [Wing.apply, butterfly, Complexes.value, elem_setIfInBounds_other, hu, hv]

theorem Wing.apply_done {z : Complexes} {m : Nat} (hz : z.HasSize m) {w : Wing}
    (hw : w.Fits m) : w.Done cosT sinT z (w.apply cosT sinT z) := by
  obtain ⟨zr, zi⟩ := z
  obtain ⟨hr, hi⟩ := hz
  obtain ⟨hu, hv, hne⟩ := hw
  simp only at hr hi
  simp [Wing.Done, Wing.apply, butterfly, Complexes.value, twiddled, elem_setIfInBounds_other,
    elem_setIfInBounds_same, hne, hr, hi, hu, hv]

/-! ## Butterflies at separate positions -/

theorem foldl_apply_hasSize {m : Nat} (ws : List Wing) {z : Complexes} (hz : z.HasSize m) :
    (ws.foldl (Wing.apply cosT sinT) z).HasSize m := by
  induction ws generalizing z with
  | nil => exact hz
  | cons w ws ih => exact ih (w.apply_hasSize cosT sinT hz)

theorem foldl_apply_value_of_avoids {i : Nat} (ws : List Wing) (z : Complexes)
    (h : ∀ w ∈ ws, w.Avoids i) :
    (ws.foldl (Wing.apply cosT sinT) z).value i = z.value i := by
  induction ws generalizing z with
  | nil => rfl
  | cons w ws ih =>
    rw [List.foldl_cons, ih _ fun w' hw' => h w' (List.mem_cons_of_mem _ hw'),
      w.apply_value_of_avoids cosT sinT z (h w List.mem_cons_self)]

/-- Butterflies at separate positions do not see each other: each is done on the values before them
all. -/
theorem foldl_apply_done {m : Nat} {ws : List Wing} (hsep : ws.Pairwise Wing.Apart)
    (hfits : ∀ w ∈ ws, w.Fits m) {z : Complexes} (hz : z.HasSize m) :
    ∀ w ∈ ws, w.Done cosT sinT z (ws.foldl (Wing.apply cosT sinT) z) := by
  induction ws generalizing z with
  | nil => nofun
  | cons w₀ ws ih =>
    obtain ⟨happart, hsep⟩ := List.pairwise_cons.1 hsep
    obtain ⟨hfit₀, hfits⟩ := List.forall_mem_cons.1 hfits
    refine List.forall_mem_cons.2 ⟨?_, fun w hw => ?_⟩
    · have hlater : ∀ i, (i = w₀.u ∨ i = w₀.v) → ∀ w ∈ ws, w.Avoids i := by
        rintro i hi w hw
        obtain ⟨⟨huu, huv⟩, ⟨hvu, hvv⟩⟩ := happart w hw
        obtain rfl | rfl := hi
        · exact ⟨huu.symm, hvu.symm⟩
        · exact ⟨huv.symm, hvv.symm⟩
      have hdone := w₀.apply_done cosT sinT hz hfit₀
      unfold Wing.Done at hdone ⊢
      rwa [List.foldl_cons, foldl_apply_value_of_avoids cosT sinT ws _ (hlater _ (.inl rfl)),
        foldl_apply_value_of_avoids cosT sinT ws _ (hlater _ (.inr rfl))]
    · obtain ⟨hu, hv⟩ := happart w hw
      have hdone := ih hsep hfits (w₀.apply_hasSize cosT sinT hz) w hw
      unfold Wing.Done at hdone ⊢
      rwa [w₀.apply_value_of_avoids cosT sinT z hu,
        w₀.apply_value_of_avoids cosT sinT z hv] at hdone

end

/-! ## A stage -/

/-- Butterfly `j` of a block of the stage of size `2^(i+1)` (40_fft.md R107). -/
def stageWing (k i block j : Nat) : Wing :=
  ⟨j * (2 ^ k / 2 ^ (i + 1)), block * 2 ^ (i + 1) + j, block * 2 ^ (i + 1) + j + 2 ^ i⟩

/-- The butterflies of that stage, block by block. -/
def stageWings (k i : Nat) : List Wing :=
  (List.range (2 ^ (k - 1) / 2 ^ (i + 1))).flatMap fun block =>
    (List.range (2 ^ i)).map (stageWing k i block)

theorem fftStage_eq (cosT sinT : Array F64) (k i : Nat) (z : Complexes) :
    fftStage cosT sinT k z (i + 1) = (stageWings k i).foldl (Wing.apply cosT sinT) z := by
  have hhalf : 2 ^ (i + 1) / 2 = 2 ^ i := by omega
  simp [fftStage, stageWings, List.foldl_flatMap, List.foldl_map, hhalf, Wing.apply, stageWing]

theorem mem_stageWings {k i : Nat} {w : Wing} :
    w ∈ stageWings k i ↔
      ∃ block < 2 ^ (k - 1) / 2 ^ (i + 1), ∃ j < 2 ^ i, stageWing k i block j = w := by
  simp [stageWings]

theorem stageWing_fits {k i block j : Nat} (hblock : block < 2 ^ (k - 1) / 2 ^ (i + 1))
    (hj : j < 2 ^ i) : (stageWing k i block j).Fits (2 ^ (k - 1)) := by
  have hend : (block + 1) * 2 ^ (i + 1) ≤ 2 ^ (k - 1) :=
    (Nat.mul_le_mul_right _ hblock).trans (Nat.div_mul_le_self _ _)
  have hsize : 2 ^ (i + 1) = 2 * 2 ^ i := Nat.pow_succ'
  rw [Nat.succ_mul] at hend
  unfold Wing.Fits stageWing
  simp only
  omega

/-- Two butterflies of a block lie apart: their first positions are in its lower half, their second
ones in its upper half. -/
theorem stageWing_apart_in_block (k i block : Nat) {j j' : Nat} (hj : j < j') (hj' : j' < 2 ^ i) :
    (stageWing k i block j).Apart (stageWing k i block j') := by
  unfold Wing.Apart Wing.Avoids stageWing
  simp only
  omega

/-- A butterfly of an earlier block lies below those of a later one. -/
theorem stageWing_apart_of_block_lt (k i : Nat) {block block' j : Nat} (hblock : block < block')
    (hj : j < 2 ^ i) (j' : Nat) :
    (stageWing k i block j).Apart (stageWing k i block' j') := by
  have hend : (block + 1) * 2 ^ (i + 1) ≤ block' * 2 ^ (i + 1) := Nat.mul_le_mul_right _ hblock
  have hsize : 2 ^ (i + 1) = 2 * 2 ^ i := Nat.pow_succ'
  rw [Nat.succ_mul] at hend
  unfold Wing.Apart Wing.Avoids stageWing
  simp only
  omega

theorem stageWings_apart (k i : Nat) : (stageWings k i).Pairwise Wing.Apart := by
  refine List.pairwise_flatMap.2 ⟨fun block _ => List.pairwise_map.2 ?_, ?_⟩
  · refine List.pairwise_lt_range.imp_of_mem fun _ hj' hlt => ?_
    exact stageWing_apart_in_block k i block hlt (List.mem_range.1 hj')
  · refine List.pairwise_lt_range.imp fun hlt w hw w' hw' => ?_
    obtain ⟨j, hj, rfl⟩ := List.mem_map.1 hw
    obtain ⟨j', -, rfl⟩ := List.mem_map.1 hw'
    exact stageWing_apart_of_block_lt k i hlt (List.mem_range.1 hj) j'

theorem fftStage_hasSize (cosT sinT : Array F64) (k i : Nat) {z : Complexes} {m : Nat}
    (hz : z.HasSize m) : (fftStage cosT sinT k z (i + 1)).HasSize m := by
  rw [fftStage_eq]
  exact foldl_apply_hasSize cosT sinT _ hz

/-- A stage does every one of its butterflies on the values before the stage. -/
theorem fftStage_done (cosT sinT : Array F64) {k i block j : Nat} {z : Complexes}
    (hz : z.HasSize (2 ^ (k - 1))) (hblock : block < 2 ^ (k - 1) / 2 ^ (i + 1)) (hj : j < 2 ^ i) :
    (stageWing k i block j).Done cosT sinT z (fftStage cosT sinT k z (i + 1)) := by
  rw [fftStage_eq]
  refine foldl_apply_done cosT sinT (stageWings_apart k i) (fun w hw => ?_) hz _
    (mem_stageWings.2 ⟨block, hblock, j, hj, rfl⟩)
  obtain ⟨block, hblock, j, hj, rfl⟩ := mem_stageWings.1 hw
  exact stageWing_fits hblock hj

/-! ## The half-size transform -/

/-- The values after the first `i` stages. -/
def afterStages (cosT sinT : Array F64) (k : Nat) (x : Array F64) (i : Nat) : Complexes :=
  (List.range' 1 i).foldl (fftStage cosT sinT k) (fftReorder k x)

theorem afterStages_zero (cosT sinT : Array F64) (k : Nat) (x : Array F64) :
    afterStages cosT sinT k x 0 = fftReorder k x := rfl

theorem afterStages_succ (cosT sinT : Array F64) (k : Nat) (x : Array F64) (i : Nat) :
    afterStages cosT sinT k x (i + 1) =
      fftStage cosT sinT k (afterStages cosT sinT k x i) (i + 1) := by
  simp [afterStages, List.range'_1_concat, Nat.add_comm]

theorem halfFft_eq (cosT sinT : Array F64) (k : Nat) (x : Array F64) :
    halfFft cosT sinT k x = afterStages cosT sinT k x (k - 1) := rfl

theorem afterStages_hasSize (cosT sinT : Array F64) (k : Nat) (x : Array F64) (i : Nat) :
    (afterStages cosT sinT k x i).HasSize (2 ^ (k - 1)) := by
  induction i with
  | zero => simp [afterStages_zero, Complexes.HasSize, fftReorder]
  | succ i ih =>
    rw [afterStages_succ]
    exact fftStage_hasSize cosT sinT k i ih

theorem afterStages_done (cosT sinT : Array F64) {k i block j : Nat} (x : Array F64)
    (hblock : block < 2 ^ (k - 1) / 2 ^ (i + 1)) (hj : j < 2 ^ i) :
    (stageWing k i block j).Done cosT sinT (afterStages cosT sinT k x i)
      (afterStages cosT sinT k x (i + 1)) := by
  rw [afterStages_succ]
  exact fftStage_done cosT sinT (afterStages_hasSize cosT sinT k x i) hblock hj

/-! ## Combine -/

/-- `(wr, wi)` after `q` steps of the recurrence of 40_fft.md R109. -/
def rotation (c1 s1 : F64) : Nat → F64 × F64
  | 0 => (f64One, f64PlusZero)
  | q + 1 =>
    let w := rotation c1 s1 q
    (fadd (fmul w.1 c1) (fmul w.2 s1), fsub (fmul w.2 c1) (fmul w.1 s1))

/-- Bin `q` of the spectrum: what slots `q` and `m + q` receive with the rotation `w`
(40_fft.md R108 to R110). -/
def binValue (m : Nat) (z : Complexes) (w : F64 × F64) (q : Nat) : F64 × F64 :=
  let a := z.value q
  let b := z.value (m - q)
  let e := (fmul (fadd a.1 b.1) f64Half, fmul (fsub a.2 b.2) f64Half)
  let o := (fmul (fadd a.2 b.2) f64Half, fmul (fsub b.1 a.1) f64Half)
  (fadd e.1 (fsub (fmul o.1 w.1) (fmul o.2 w.2)), fadd e.2 (fadd (fmul o.1 w.2) (fmul o.2 w.1)))

/-- What the combine loop carries after bins 1 to `n`, from the output `y`. -/
def afterBins (c1 s1 : F64) (m : Nat) (z : Complexes) (y : Array F64) (n : Nat) : CombineState :=
  (List.range' 1 n).foldl (combineBin c1 s1 m z) ⟨f64One, f64PlusZero, y⟩

section
variable (c1 s1 : F64) (m : Nat) (z : Complexes) (y : Array F64)

theorem afterBins_succ (n : Nat) :
    afterBins c1 s1 m z y (n + 1) = combineBin c1 s1 m z (afterBins c1 s1 m z y n) (n + 1) := by
  simp [afterBins, List.range'_1_concat, Nat.add_comm]

theorem afterBins_rotation (n : Nat) :
    (afterBins c1 s1 m z y n).wr = (rotation c1 s1 n).1 ∧
      (afterBins c1 s1 m z y n).wi = (rotation c1 s1 n).2 := by
  induction n with
  | zero => exact ⟨rfl, rfl⟩
  | succ n ih =>
    obtain ⟨hr, hi⟩ := ih
    rw [afterBins_succ, rotation, ← hr, ← hi]
    exact ⟨rfl, rfl⟩

/-- Bin `n + 1` is stored in its two slots. -/
theorem afterBins_succ_y (n : Nat) :
    (afterBins c1 s1 m z y (n + 1)).y =
      ((afterBins c1 s1 m z y n).y.setIfInBounds (n + 1)
        (binValue m z (rotation c1 s1 (n + 1)) (n + 1)).1).setIfInBounds (m + (n + 1))
        (binValue m z (rotation c1 s1 (n + 1)) (n + 1)).2 := by
  obtain ⟨hr, hi⟩ := afterBins_rotation c1 s1 m z y n
  rw [afterBins_succ, rotation, ← hr, ← hi]
  rfl

theorem afterBins_size (n : Nat) : (afterBins c1 s1 m z y n).y.size = y.size := by
  induction n with
  | zero => rfl
  | succ n ih => simp [afterBins_succ_y, ih]

variable {m}

/-- Slots 0 and `m` are those of no bin. -/
theorem afterBins_kept {n : Nat} (hn : n < m) :
    (afterBins c1 s1 m z y n).y[0]? = y[0]? ∧ (afterBins c1 s1 m z y n).y[m]? = y[m]? := by
  induction n with
  | zero => exact ⟨rfl, rfl⟩
  | succ n ih =>
    obtain ⟨h0, hm⟩ := ih (by omega)
    rw [afterBins_succ_y, ← h0, ← hm]
    grind

/-- After the bins up to `n` each of them is in its slots: the later ones go elsewhere. -/
theorem afterBins_bin {n q : Nat} (hn : n < m) (hy : y.size = 2 * m) (h1 : 1 ≤ q) (hq : q ≤ n) :
    (afterBins c1 s1 m z y n).y[q]? = some (binValue m z (rotation c1 s1 q) q).1 ∧
      (afterBins c1 s1 m z y n).y[m + q]? = some (binValue m z (rotation c1 s1 q) q).2 := by
  induction n with
  | zero => omega
  | succ n ih =>
    have hsize := afterBins_size c1 s1 m z y n
    rw [afterBins_succ_y]
    by_cases hlast : q = n + 1
    · subst hlast
      grind
    · obtain ⟨hre, him⟩ := ih (by omega) (by omega)
      grind

end

/-- The output before the combine loop: slots 0 and `m` hold `X[0]` and `X[m]`. -/
def edgeSlots (k : Nat) (z : Complexes) : Array F64 :=
  ((Array.replicate (2 ^ k) f64PlusZero).setIfInBounds 0
    (fadd (elem z.1 0) (elem z.2 0))).setIfInBounds (2 ^ (k - 1)) (fsub (elem z.1 0) (elem z.2 0))

theorem fftWith_eq (cosT sinT : Array F64) (k : Nat) (x : Array F64) :
    fftWith cosT sinT k x =
      (afterBins (elem cosT 1) (elem sinT 1) (2 ^ (k - 1)) (halfFft cosT sinT k x)
        (edgeSlots k (halfFft cosT sinT k x)) (2 ^ (k - 1) - 1)).y := rfl

theorem edgeSlots_size (k : Nat) (z : Complexes) : (edgeSlots k z).size = 2 ^ k := by
  simp [edgeSlots]

theorem edgeSlots_getElem? {k : Nat} (hk : 1 ≤ k) (z : Complexes) :
    (edgeSlots k z)[0]? = some (fadd (elem z.1 0) (elem z.2 0)) ∧
      (edgeSlots k z)[2 ^ (k - 1)]? = some (fsub (elem z.1 0) (elem z.2 0)) := by
  have hpos : 0 < 2 ^ (k - 1) := Nat.two_pow_pos _
  have hsize := two_mul_two_pow_pred hk
  unfold edgeSlots
  grind

/-- The slots of the transform, from the half-size spectrum (40_fft.md R110). -/
theorem fftWith_slots {k : Nat} (hk : 1 ≤ k) (cosT sinT x : Array F64) {z : Complexes}
    (hz : halfFft cosT sinT k x = z) :
    ((fftWith cosT sinT k x)[0]? = some (fadd (elem z.1 0) (elem z.2 0)) ∧
      (fftWith cosT sinT k x)[2 ^ (k - 1)]? = some (fsub (elem z.1 0) (elem z.2 0))) ∧
    ∀ q, 1 ≤ q → q < 2 ^ (k - 1) →
      let bin := binValue (2 ^ (k - 1)) z (rotation (elem cosT 1) (elem sinT 1) q) q
      (fftWith cosT sinT k x)[q]? = some bin.1 ∧
        (fftWith cosT sinT k x)[2 ^ (k - 1) + q]? = some bin.2 := by
  have hlast : 2 ^ (k - 1) - 1 < 2 ^ (k - 1) := Nat.sub_one_lt (Nat.two_pow_pos _).ne'
  have hsize := (edgeSlots_size k z).trans (two_mul_two_pow_pred hk).symm
  obtain ⟨h0, hm⟩ := afterBins_kept (elem cosT 1) (elem sinT 1) z (edgeSlots k z) hlast
  obtain ⟨he0, hem⟩ := edgeSlots_getElem? hk z
  rw [fftWith_eq, hz]
  exact ⟨⟨h0.trans he0, hm.trans hem⟩, fun q h1 hq =>
    afterBins_bin _ _ z _ hlast hsize h1 (Nat.le_sub_one_of_lt hq)⟩

/-! ## The equations of 40_fft.md R111 -/

theorem fftWith_equations {k : Nat} (hk : 1 ≤ k) (cosT sinT : Array F64) {x : Array F64}
    (hx : x.size = 2 ^ k) : FftEquations k cosT sinT x (fftWith cosT sinT k x) := by
  obtain ⟨⟨hfirst, hnyquist⟩, hbins⟩ := fftWith_slots hk cosT sinT x (halfFft_eq cosT sinT k x)
  simp only [binValue, Complexes.value] at hbins
  refine ⟨fun i j => elem (afterStages cosT sinT k x i).1 j,
    fun i j => elem (afterStages cosT sinT k x i).2 j,
    fun q => (rotation (elem cosT 1) (elem sinT 1) q).1,
    fun q => (rotation (elem cosT 1) (elem sinT 1) q).2,
    fun j hj => elem_fftReorder hk hx hj, fun i hi block hblock j hj => ?_, rfl, rfl,
    fun q => ⟨rfl, rfl⟩, fftWith_size .., hfirst, hnyquist, hbins⟩
  have hdone := afterStages_done cosT sinT x hblock hj
  simp only [Wing.Done, stageWing, twiddled, Complexes.value, Prod.mk.injEq] at hdone
  obtain ⟨⟨hur, hui⟩, hvr, hvi⟩ := hdone
  exact ⟨hur, hui, hvr, hvi⟩

/-- Settles O32: the reorder by positions, at N = 4 the identity, and the equations from the stages
and the combine loop. -/
theorem reorderPutsPackedValueAtReversedPosition :
    Obligations.ReorderPutsPackedValueAtReversedPosition := by
  refine ⟨fun b i j _ hj => ⟨reverseBits_lt b i, testBit_reverseBits i hj⟩,
    fun k x h2 _ hx j hj => elem_fftReorder (by omega) hx hj, fun x hx => ?_,
    fun k cosT sinT x h2 _ hx => fftWith_equations (by omega) cosT sinT hx⟩
  obtain ⟨hr0, hi0⟩ := elem_fftReorder (k := 2) (j := 0) (by decide) hx (by decide)
  obtain ⟨hr1, hi1⟩ := elem_fftReorder (k := 2) (j := 1) (by decide) hx (by decide)
  exact ⟨hr0, hi0, hr1, hi1⟩

end Sys2Proof.Machine
end

section
/-! O34: the window coefficients of a frame, and what WINDOW writes. -/

namespace Sys2Proof.Machine

/-! ## The windowed frame -/

/-- The recurrence started from the values of sample `k` gives the coefficients from sample `k` on
(41_window.md R132). -/
theorem windowFrom_getElem? (x : List F64) (k n : Nat) :
    (windowFrom (fcos windowDelta) (fsin windowDelta) (windowAngle k).1 (windowAngle k).2 x)[n]? =
      x[n]?.map fun v => fmul v (windowCoefficient (k + n)) := by
  induction x generalizing k n with
  | nil => rfl
  | cons v x ih =>
    cases n with
    | zero => rfl
    | succ n =>
      rw [show k + (n + 1) = k + 1 + n by omega]
      exact ih (k + 1) n

theorem windowFn_getElem? (x : List F64) (n : Nat) :
    (windowFn x)[n]? = x[n]?.map fun v => fmul v (windowCoefficient n) :=
  (windowFrom_getElem? x 0 n).trans (by rw [Nat.zero_add])

/-! ## The samples of a frame -/

theorem State.sinSlice_eq (s : State) (n : Nat) : s.sinSlice n = (List.range n).map s.sinAt := by
  rw [List.range_eq_range']
  rfl

/-- Where no word is a NaN, normalising drops none: the samples are those of the words in order. -/
theorem map_some_filterMap_norm {fmt : SampleFormat} {ws : List Word} (h : noNaN fmt ws = true) :
    (ws.filterMap (norm fmt)).map some = ws.map (norm fmt) := by
  rw [List.map_filterMap_some_eq_filter_map_isSome, List.filter_eq_self]
  intro v hv
  obtain ⟨w, hw, rfl⟩ := List.mem_map.1 hv
  rw [← Option.not_isNone, norm_isNone, List.all_eq_true.1 h w hw]
  rfl

theorem filterMap_norm_getElem? {fmt : SampleFormat} {ws : List Word} (h : noNaN fmt ws = true)
    {n : Nat} {w : Word} (hw : ws[n]? = some w) :
    ∃ v, norm fmt w = some v ∧ (ws.filterMap (norm fmt))[n]? = some v := by
  have hmap := congrArg (·[n]?) (map_some_filterMap_norm h)
  simp only [List.getElem?_map, hw, Option.map_some, Option.map_eq_some_iff] at hmap
  obtain ⟨v, hv, hnorm⟩ := hmap
  exact ⟨v, hnorm.symm, hv⟩

/-! ## Writing FB -/

theorem State.writeFb_fbAt_inside (s : State) {vs : List F64} {i : Nat} (hi : i < vs.length) :
    some ((s.writeFb vs).fbAt i) = vs[i]? :=
  Memory.getD_read?_splice s.fb _ hi

theorem State.writeFb_fbAt_outside (s : State) {vs : List F64} {i : Nat} (hi : vs.length ≤ i) :
    (s.writeFb vs).fbAt i = s.fbAt i := by
  have hread := Memory.read?_splice_outside s.fb 0 vs i (.inr (by simpa using hi))
  simp only [State.fbAt, State.unwritten, State.writeFb, hread]

/-! ## WINDOW -/

/-- With an admitted frame, WINDOW writes the window of the normalised samples (41_window.md R135). -/
theorem execWindow_frame {s : State} (harg : s.arg0.toNat = 4096)
    (hnan : noNaN s.ctrlFmt ((List.range 4096).map s.sinAt) = true) :
    exec .window s = .next (s.writeFb (windowFn
      (((List.range 4096).map s.sinAt).filterMap (norm s.ctrlFmt)))).complete := by
  show execWindow s = _
  have hnorm := normAll_eq s.ctrlFmt (s.sinSlice frameSize)
  rw [State.sinSlice_eq, frameSize, if_pos hnan] at hnorm
  have hframe : ¬ s.arg ≠ frameSize := not_not.2 harg
  rw [execWindow, if_neg hframe, State.sinSlice_eq, frameSize, hnorm]

/-- Settles O34: each element written is that of the windowed frame, whose samples are the normalised
words. -/
theorem windowWritesWindowedFrame : Obligations.WindowWritesWindowedFrame := by
  refine ⟨⟨rfl, rfl, rfl⟩, fun s harg hnan => ?_⟩
  have hlength : (windowFn (((List.range 4096).map s.sinAt).filterMap
      (norm s.ctrlFmt))).length = 4096 := by
    rw [windowFn_length, filterMap_norm_length _ _ hnan, List.length_map, List.length_range]
  refine ⟨_, execWindow_frame harg hnan, rfl, fun n hn => ?_, fun n hn => ?_⟩
  · obtain ⟨v, hv, hget⟩ := filterMap_norm_getElem? hnan (n := n) (w := s.sinAt n) (by simp [hn])
    refine ⟨v, hv, Option.some.inj ?_⟩
    refine (s.writeFb_fbAt_inside (by rwa [hlength])).trans ?_
    rw [windowFn_getElem?, hget, Option.map_some]
  · exact s.writeFb_fbAt_outside (by rwa [hlength])

end Sys2Proof.Machine
end

section
/-! O39: one processed frame. -/

namespace Sys2Proof.Machine

/-! ## The chroma step beside the spectrum -/

/-- The row gate neither reads nor writes `FB` and the table caches (42_chroma.md R157, R158). -/
theorem State.gateRow_of_fb_caches (s : State) (fb : Cells 64) (caches : Memory SizeCache) :
    State.gateRow { s with fb := fb, caches := caches } =
      { s.gateRow with fb := fb, caches := caches } := by
  obtain ⟨hcount, he⟩ | ⟨hcount, he⟩ := s.gateRow_cases <;> rw [he]
  · exact if_pos hcount
  · exact if_neg hcount

/-- Nor does the chroma step, which takes the spectrum as its argument (42_chroma.md R153). -/
theorem State.chromaStep_of_fb_caches (s : State) (fb : Cells 64) (caches : Memory SizeCache)
    (y : List F64) :
    State.chromaStep { s with fb := fb, caches := caches } y =
      { s.chromaStep y with fb := fb, caches := caches } :=
  State.gateRow_of_fb_caches
    (s.writeRingSlot s.noteIndex.toNat (noteEnergies y.toArray).toList).advanceNote fb caches

/-- Writing `FB` and using an `AUX_k` are separate parts of the state. -/
theorem State.writeFb_touchAux (s : State) (vs : List F64) (k : Nat) :
    (s.writeFb vs).touchAux k =
      { s with fb := s.fb.splice 0 vs, caches := (s.touchAux k).caches } := by
  unfold State.touchAux
  rw [State.writeFb_caches]
  cases s.caches.read? k <;> rfl

/-- A processed frame is the chroma step on its spectrum, but for `FB`, FRAMES_PROCESSED and the use of
`AUX_12`, which the chroma step leaves alone (45_controller.md R252). -/
theorem State.processFrame_eq_chromaStep (s : State) (f : List F64) :
    s.processFrame f = { s.chromaStep (s.fft 12 (windowFn f)) with
      fb := s.fb.splice 0 (s.fft 12 (windowFn f))
      framesProcessed := s.framesProcessed + BitVec.ofNat 32 overlap
      caches := (s.touchAux 12).caches } := by
  show (State.chromaStep _ _).countFrame = _
  rw [State.writeFb_touchAux, State.chromaStep_of_fb_caches, State.countFrame,
    State.chromaStep_framesProcessed]

theorem State.processFrame_fbAt (s : State) (f : List F64) :
    (s.processFrame f).fbAt = (s.writeFb (s.fft 12 (windowFn f))).fbAt := by
  funext i
  simp only [State.fbAt, State.unwritten, State.processFrame_fb, State.processFrame_resetCount,
    State.writeFb_fb, State.writeFb_resetCount]

theorem State.processFrame_caches (s : State) (f : List F64) :
    (s.processFrame f).caches = (s.touchAux 12).caches := by
  rw [s.processFrame_eq_chromaStep]

/-! ## The counters -/

/-- Below the budget a processed frame moves the session from one position to the next, the
consumed samples telling which (45_controller.md R252). -/
theorem State.Inv.processFrame_atFrame {s : State} (h : s.Inv) (hneeds : s.needsSamples = true)
    (f : List F64) : ∃ n, s.AtFrame n ∧ (s.processFrame f).AtFrame (n + 1) := by
  obtain ⟨n, -, hn⟩ := h.session.atFrame
  obtain ⟨-, -, -, m, -, -, hm⟩ := h.streaming.processFrame hneeds f
  have hlast := hn.needsSamples_iff.1 hneeds
  have hconsumed := hm.consumed
  simp only [State.processFrame_framesProcessed, BitVec.toNat_add, BitVec.toNat_ofNat,
    hn.consumed, overlap] at hconsumed
  simp only [maxFrames, budget, frameSize, overlap] at hlast
  obtain rfl : m = n + 1 := by omega
  exact ⟨n, hn, hm⟩

/-- Settles O39: the counters by the session's position, the rest by the chroma step on the spectrum,
which the tables of the invariant give. -/
theorem processedFrameAdvancesCounters : Obligations.ProcessedFrameAdvancesCounters := by
  intro s f h _ hneeds
  obtain ⟨n, ⟨hfp, hrow, hcoeff, hnote⟩, hfp', hrow', hcoeff', hnote'⟩ :=
    h.processFrame_atFrame hneeds f
  refine ⟨by omega, by omega, by omega, by omega, windowFn_getElem? f, fun hbuilt => ?_⟩
  rw [h.tables.valid (by decide), Option.isSome_iff_exists] at hbuilt
  obtain ⟨c, hc⟩ := hbuilt
  obtain ⟨-, htab⟩ := h.tables.isTablesOf hc
  have hentry (j : Nat) : (s.processFrame f).caches.read? j = _ :=
    (congrArg (·.read? j) (s.processFrame_caches f)).trans (State.touchAux_read? hc j)
  rw [← State.fft_eq hc htab]
  refine ⟨by rw [s.processFrame_eq_chromaStep], fun i hi => ?_, fun i hi => ?_,
    fun j hj => (hentry j).trans (if_neg hj), _, (hentry 12).trans (if_pos rfl), ?_⟩
  · rw [s.processFrame_fbAt]
    exact s.writeFb_fbAt_inside (by simpa using hi)
  · rw [s.processFrame_fbAt]
    exact s.writeFb_fbAt_outside (by simpa using hi)
  · obtain ⟨-, hcos, hsin, -⟩ := htab
    exact ⟨hcos, hsin⟩

end Sys2Proof.Machine
end

section
/-! O36, O37, O38: the notes of the band, the chroma step and the row gate. -/

namespace Sys2Proof.Machine

/-! ## The note of a bin -/

/-- The integer logarithm of a truncated quotient is the floor of the logarithm of the exact one. -/
theorem floor_logb_two_div {n d : ℕ} (hd : 0 < d) (hdn : d ≤ n) :
    ⌊Real.logb 2 ((n : ℝ) / d)⌋ = Nat.log2 (n / d) := by
  have hone : (1 : ℝ) ≤ n / d := (one_le_div (by exact_mod_cast hd)).2 (by exact_mod_cast hdn)
  have hfloor := Real.floor_logb_natCast (b := 2) (r := (n : ℝ) / d) (by positivity)
  rw [Int.log_of_one_le_right 2 hone, Nat.floor_div_eq_div] at hfloor
  rw [Nat.log2_eq_log_two]
  exact_mod_cast hfloor

/-- The part of `x` above its floor, counted in `k`-ths, is the count of `x` modulo `k`. -/
theorem floor_natCast_mul_fract {k : ℕ} (hk : 0 < k) (x : ℝ) :
    ⌊k * Int.fract x⌋ = ⌊k * x⌋ % (k : ℤ) := by
  have hpos : (0 : ℝ) < k := by exact_mod_cast hk
  have hlow : 0 ≤ ⌊k * Int.fract x⌋ :=
    Int.floor_nonneg.2 (mul_nonneg hpos.le (Int.fract_nonneg x))
  have hhigh : ⌊k * Int.fract x⌋ < k :=
    Int.floor_lt.2 (by exact_mod_cast mul_lt_of_lt_one_right hpos (Int.fract_lt_one x))
  have hsplit : ⌊k * x⌋ = ⌊k * Int.fract x⌋ + k * ⌊x⌋ := by
    rw [← Int.floor_add_intCast]
    congr 1
    push_cast
    rw [← mul_add, Int.fract_add_floor]
  rw [hsplit, Int.add_mul_emod_self_left, Int.emod_eq_of_lt hlow hhigh]

/-- `12 log2 (f_b / 27.5)` from the integers of `noteOf`, as `f_b / 27.5 = 2205 b / (11 * 2^11)`. -/
theorem twelve_logb_bin {b : ℕ} (hb : 0 < b) :
    12 * Real.logb 2 (((b : ℝ) * 11025 / 4096) / (440 / 16)) =
      Real.logb 2 (((2205 * b) ^ 12 : ℕ) / (11 ^ 12 : ℕ)) - (132 : ℤ) := by
  have hpos : (0 : ℝ) < b := by exact_mod_cast hb
  have hpow : (((b : ℝ) * 11025 / 4096) / (440 / 16)) ^ 12 =
      (((2205 * b) ^ 12 : ℕ) / (11 ^ 12 : ℕ)) / 2 ^ 132 := by
    push_cast
    ring
  calc 12 * Real.logb 2 (((b : ℝ) * 11025 / 4096) / (440 / 16))
      = Real.logb 2 ((((b : ℝ) * 11025 / 4096) / (440 / 16)) ^ 12) := by
        rw [Real.logb_pow]; norm_num
    _ = Real.logb 2 (((2205 * b) ^ 12 : ℕ) / (11 ^ 12 : ℕ)) - Real.logb 2 (2 ^ 132) := by
        rw [hpow, Real.logb_div (by positivity) (by positivity)]
    _ = _ := by
        rw [Real.logb_pow, Real.logb_self_eq_one one_lt_two]; norm_num

/-- Settles O36: 132 is a multiple of 12, so the integer logarithm of `noteOf` is, modulo 12, the
floored count of twelfths of an octave. -/
theorem noteIsFlooredTwelfthOfOctave : Obligations.NoteIsFlooredTwelfthOfOctave := by
  intro b hlo _
  have hle : 11 ^ 12 ≤ (2205 * b) ^ 12 := Nat.pow_le_pow_left (by omega) 12
  have hfract := floor_natCast_mul_fract (k := 12) (by decide)
    (Real.logb 2 (((b : ℝ) * 11025 / 4096) / (440 / 16)))
  push_cast at hfract
  rw [hfract, twelve_logb_bin (by omega), Int.floor_sub_intCast,
    floor_logb_two_div (by decide) hle, noteOf]
  omega

/-! ## The energies of the notes -/

theorem elem_eq_getElem {a : Array F64} {i : ℕ} (hi : i < a.size) : elem a i = a[i] :=
  Option.some.inj ((some_elem hi).trans (Array.getElem?_eq_getElem hi))

/-- Adding each value into the cell its key names gives, in each cell, the sum in order of the values
whose key it is. -/
theorem elem_foldl_addInto (key : ℕ → ℕ) (value : ℕ → F64) {n : ℕ} (l : List ℕ) {a : Array F64}
    (hn : n < a.size) :
    elem (l.foldl (fun a b => a.setIfInBounds (key b) (fadd (elem a (key b)) (value b))) a) n =
      (l.filter fun b => key b = n).foldl (fun acc b => fadd acc (value b)) (elem a n) := by
  induction l generalizing a with
  | nil => rfl
  | cons b l ih =>
    rw [List.foldl_cons, ih (by simpa using hn)]
    by_cases hb : key b = n
    · subst hb
      simp [elem_setIfInBounds_same hn]
    · simp [elem_setIfInBounds_other a (Ne.symm hb), hb]

/-- Each note's energy is the sum of its bins' energies in bin order (42_chroma.md R153, R155). -/
theorem elem_noteEnergies (y : Array F64) {n : ℕ} (hn : n < 12) :
    elem (noteEnergies y) n = ((List.range' 8 1850).filter fun b => noteOf b = n).foldl
      (fun acc b => fadd acc (binEnergy y b)) f64PlusZero := by
  have hcleared : elem (Array.replicate notes f64PlusZero) n = f64PlusZero := by
    simp [elem, notes, hn]
  have hband : bandHi + 1 - bandLo = 1850 := rfl
  rw [noteEnergies, elem_foldl_addInto noteOf (binEnergy y) _ (by simpa [notes] using hn),
    hcleared, hband, bandLo]

theorem elem_toArray (y : List F64) (i : ℕ) : elem y.toArray i = y.getD i f64PlusZero := by
  simp [elem]

/-! ## The ring slot the chroma step writes -/

theorem State.chromaStep_ringAt_inside (s : State) (y : List F64) {n : ℕ} (hn : n < 12) :
    (s.chromaStep y).ringAt (12 * s.noteIndex.toNat + n) = elem (noteEnergies y.toArray) n := by
  have hsize : n < (noteEnergies y.toArray).size := by simpa [notes] using hn
  have hread := Memory.read?_splice_inside s.ring (12 * s.noteIndex.toNat)
    (noteEnergies y.toArray).toList n hsize
  rw [State.ringAt, State.chromaStep_ring, notes, hread, Option.getD_some, Array.getElem_toList,
    elem_eq_getElem hsize]

theorem State.chromaStep_ringAt_outside (s : State) (y : List F64) {i : ℕ}
    (hi : i < 12 * s.noteIndex.toNat ∨ 12 * s.noteIndex.toNat + 12 ≤ i) :
    (s.chromaStep y).ringAt i = s.ringAt i := by
  have hread := Memory.read?_splice_outside s.ring (notes * s.noteIndex.toNat)
    (noteEnergies y.toArray).toList i (by simpa [notes] using hi)
  simp only [State.ringAt, State.unwritten, State.chromaStep_ring, State.chromaStep_resetCount,
    hread]

/-- Settles O37: the slot and the ring around it by the run written, the rest by the order in which
the step writes the slot, advances the pointer and runs the gate. -/
theorem chromaStepWritesOneRingSlot : Obligations.ChromaStepWritesOneRingSlot := by
  intro s y
  refine ⟨fun n hn => ?_, fun i hi => s.chromaStep_ringAt_outside y hi, ?_, ?_⟩
  · rw [s.chromaStep_ringAt_inside y hn, elem_noteEnergies _ hn]
    simp only [binEnergy, elem_toArray]
    rfl
  · rw [State.chromaStep_noteIndex, BitVec.toNat_add]
    rfl
  · rw [State.chromaStep_ring]
    rfl

/-! ## The row gate -/

theorem State.gateRow_of_counting {s : State} (h : s.coeff.toNat < 4) :
    s.gateRow = s.setCoeff (s.coeff + 1) := by
  obtain ⟨hcount, -⟩ | ⟨-, he⟩ := s.gateRow_cases
  · rw [State.gateCount (Nat.mod_eq_of_lt (by omega)).symm, rowEvery] at hcount
    omega
  · exact he

theorem State.gateRow_of_fifth {s : State} (h : s.coeff.toNat = 4) :
    s.gateRow = (s.setCoeff 0).emitRow := by
  obtain ⟨-, he⟩ | ⟨hcount, -⟩ := s.gateRow_cases
  · exact he
  · exact absurd (State.gateCount (n := 4) h) hcount

/-- The five taps of 42_chroma.md R159 multiply the slots from 5 before the write pointer on. -/
theorem State.filteredNote_eq (s : State) (n : ℕ) :
    s.filteredNote n = (List.range 5).foldl (fun acc j =>
      fadd acc (fmul (s.ringAt (12 * ((s.noteIndex.toNat + 3 + j) % 8) + n))
        (firTaps.getD j 0))) f64PlusZero := rfl

theorem normaliseRow_getElem (v : List F64) {n : ℕ} (hn : n < (normaliseRow v).length) :
    (normaliseRow v)[n] =
      if flt (l2Norm v) silence then f64PlusZero else fdiv (v.getD n 0) (l2Norm v) := by
  have hv : n < v.length := by simpa using hn
  simp [normaliseRow, hv]

/-- The row the block emits, of the notes as filtered. -/
theorem State.emitRow_chromaAt_inside (s : State) {n : ℕ} (hn : n < 12) :
    s.emitRow.chromaAt (12 * s.row.toNat + n) =
      let v := (List.range notes).map s.filteredNote
      if flt (l2Norm v) silence then f64PlusZero else fdiv (v.getD n 0) (l2Norm v) := by
  have hlen : n < (normaliseRow ((List.range notes).map s.filteredNote)).length := by
    simpa [notes] using hn
  have hread : s.emitRow.chroma.read? (12 * s.row.toNat + n) = some _ :=
    Memory.read?_splice_inside s.chroma (12 * s.row.toNat) _ n hlen
  rw [State.chromaAt, hread, Option.getD_some, normaliseRow_getElem _ hlen]

theorem State.emitRow_chromaAt_outside (s : State) {i : ℕ}
    (hi : i < 12 * s.row.toNat ∨ 12 * s.row.toNat + 12 ≤ i) :
    s.emitRow.chromaAt i = s.chromaAt i := by
  have hread := Memory.read?_splice_outside s.chroma (notes * s.row.toNat)
    (normaliseRow ((List.range notes).map s.filteredNote)) i (by simpa [notes] using hi)
  simp only [State.chromaAt, State.unwritten, State.emitRow_chroma, State.emitRow_resetCount,
    hread]

/-- Settles O38: below 4 the gate counts, at 4 it emits a row on the state whose count is 0. -/
theorem fifthFrameEmitsOneRow : Obligations.FifthFrameEmitsOneRow := by
  intro s _ hrow
  refine ⟨fun hlow => State.gateRow_of_counting hlow, fun hfifth => ?_⟩
  rw [State.gateRow_of_fifth hfifth]
  refine ⟨rfl, ?_, fun n hn => ?_, fun i hi => (s.setCoeff 0).emitRow_chromaAt_outside hi⟩
  · rw [State.emitRow_row, State.setCoeff_row, BitVec.toNat_add]
    exact Nat.mod_eq_of_lt (by simp; omega)
  · have hnote := (s.setCoeff 0).emitRow_chromaAt_inside hn
    rwa [funext (State.filteredNote_eq _)] at hnote

end Sys2Proof.Machine
end

section
/-! O43: the cells of the integral image. -/

namespace Sys2Proof.Machine

/-! ## Cells of a list of rows -/

/-- Note `y` of row `x`. -/
def cellAt (rows : List (List F64)) (x y : Nat) : F64 := (rows.getD x []).getD y f64PlusZero

/-- Rows of one width that stand one after another: element `n x + y` is note `y` of row `x`. -/
theorem flatten_getD_eq_cellAt {n : Nat} {rows : List (List F64)} (hrows : ∀ r ∈ rows, r.length = n)
    (x : Nat) {y : Nat} (hy : y < n) :
    rows.flatten.getD (n * x + y) f64PlusZero = cellAt rows x y := by
  induction rows generalizing x with
  | nil => simp [cellAt]
  | cons r rs ih =>
    obtain ⟨hr, hrs⟩ := List.forall_mem_cons.1 hrows
    cases x with
    | zero =>
      rw [List.flatten_cons, List.getD_append _ _ _ _ (by omega)]
      simp [cellAt]
    | succ x =>
      rw [List.flatten_cons, List.getD_append_right _ _ _ _ (by rw [hr, Nat.mul_succ]; omega), hr,
        show n * (x + 1) + y - n = n * x + y by rw [Nat.mul_succ]; omega, ih hrs x]
      rfl

theorem rowsOf_flatten (n : Nat) (vs : List F64) : (rowsOf n vs).flatten = vs.take (notes * n) := by
  induction n generalizing vs with
  | zero => simp [rowsOf]
  | succ n ih =>
    rw [rowsOf, List.flatten_cons, ih, ← List.take_add, Nat.mul_succ, Nat.add_comm]

/-! ## The recurrence in each row -/

/-- The running sums, each cell from the one to its left; `left` stands before the first. -/
theorem prefixSums_getD (left : F64) {cs : List F64} {y : Nat} (hy : y < cs.length) :
    (prefixSums left cs).getD y f64PlusZero =
      fadd (cs.getD y f64PlusZero) ((left :: prefixSums left cs).getD y f64PlusZero) := by
  induction cs generalizing left y with
  | nil => simp at hy
  | cons c cs ih =>
    cases y with
    | zero => rfl
    | succ y => exact ih (fadd c left) (by simpa using hy)

theorem integralRow0_zero (r : List F64) :
    (integralRow0 r).getD 0 f64PlusZero = r.getD 0 f64PlusZero := by
  cases r <;> rfl

theorem integralRow0_succ {r : List F64} {y : Nat} (hy : y + 1 < r.length) :
    (integralRow0 r).getD (y + 1) f64PlusZero =
      fadd (r.getD (y + 1) f64PlusZero) ((integralRow0 r).getD y f64PlusZero) := by
  cases r with
  | nil => simp at hy
  | cons c cs => exact prefixSums_getD c (by simpa using hy)

/-- The later notes of a row, each cell from the left, upper and diagonal ones; `left` and
`diagonal` stand before the first. -/
theorem integralNotes_getD (left diagonal : F64) {up cur : List F64} {y : Nat} (hup : y < up.length)
    (hcur : y < cur.length) :
    (integralNotes left diagonal up cur).getD y f64PlusZero =
      fsub (fadd (fadd (cur.getD y f64PlusZero)
          ((left :: integralNotes left diagonal up cur).getD y f64PlusZero))
        (up.getD y f64PlusZero)) ((diagonal :: up).getD y f64PlusZero) := by
  induction up generalizing left diagonal cur y with
  | nil => simp at hup
  | cons u us ih =>
    cases cur with
    | nil => simp at hcur
    | cons c cs =>
      cases y with
      | zero => rfl
      | succ y => exact ih _ u (by simpa using hup) (by simpa using hcur)

theorem integralRow_zero {up cur : List F64} (hup : 0 < up.length) (hcur : 0 < cur.length) :
    (integralRow up cur).getD 0 f64PlusZero =
      fadd (cur.getD 0 f64PlusZero) (up.getD 0 f64PlusZero) := by
  cases up with
  | nil => simp at hup
  | cons u us =>
    cases cur with
    | nil => simp at hcur
    | cons c cs => rfl

theorem integralRow_succ {up cur : List F64} {y : Nat} (hup : y + 1 < up.length)
    (hcur : y + 1 < cur.length) :
    (integralRow up cur).getD (y + 1) f64PlusZero =
      fsub (fadd (fadd (cur.getD (y + 1) f64PlusZero) ((integralRow up cur).getD y f64PlusZero))
        (up.getD (y + 1) f64PlusZero)) (up.getD y f64PlusZero) := by
  cases up with
  | nil => simp at hup
  | cons u us =>
    cases cur with
    | nil => simp at hcur
    | cons c cs => exact integralNotes_getD _ u (by simpa using hup) (by simpa using hcur)

/-! ## The recurrence from row to row -/

theorem integralRows_getD (up : List F64) {rows : List (List F64)} {x : Nat}
    (hx : x < rows.length) :
    (integralRows up rows).getD x [] =
      integralRow ((up :: integralRows up rows).getD x []) (rows.getD x []) := by
  induction rows generalizing up x with
  | nil => simp at hx
  | cons r rs ih =>
    cases x with
    | zero => rfl
    | succ x => exact ih _ (by simpa using hx)

theorem integralImage_zero (rows : List (List F64)) :
    (integralImage rows).getD 0 [] = integralRow0 (rows.getD 0 []) := by
  cases rows <;> rfl

theorem integralImage_succ {rows : List (List F64)} {x : Nat} (hx : x + 1 < rows.length) :
    (integralImage rows).getD (x + 1) [] =
      integralRow ((integralImage rows).getD x []) (rows.getD (x + 1) []) := by
  cases rows with
  | nil => simp at hx
  | cons r rs => exact integralRows_getD _ (by simpa using hx)

/-- The recurrence of 43_classifier.md R181 on rows of one width. -/
theorem integralImage_recurrence {n : Nat} {rows : List (List F64)}
    (hrows : ∀ r ∈ rows, r.length = n) {x y : Nat} (hx : x < rows.length) (hy : y < n) :
    cellAt (integralImage rows) x y =
      if x = 0 then
        if y = 0 then cellAt rows 0 0
        else fadd (cellAt rows 0 y) (cellAt (integralImage rows) 0 (y - 1))
      else if y = 0 then fadd (cellAt rows x 0) (cellAt (integralImage rows) (x - 1) 0)
      else fsub (fadd (fadd (cellAt rows x y) (cellAt (integralImage rows) x (y - 1)))
        (cellAt (integralImage rows) (x - 1) y)) (cellAt (integralImage rows) (x - 1) (y - 1)) := by
  obtain ⟨himg, hwidth⟩ := integralImage_width n rows hrows
  have rowLength {l : List (List F64)} (hl : ∀ r ∈ l, r.length = n) {i : Nat} (hi : i < l.length) :
      (l.getD i []).length = n := by
    rw [List.getD_eq_getElem _ _ hi]
    exact hl _ (List.getElem_mem hi)
  have hcur := rowLength hrows hx
  cases x with
  | zero =>
    simp only [cellAt, integralImage_zero, if_true]
    cases y with
    | zero => exact integralRow0_zero _
    | succ y =>
      rw [if_neg y.succ_ne_zero]
      exact integralRow0_succ (by omega)
  | succ x =>
    have hup : ((integralImage rows).getD x []).length = n := rowLength hwidth (by omega)
    simp only [cellAt, integralImage_succ hx, if_neg x.succ_ne_zero, Nat.add_sub_cancel]
    cases y with
    | zero =>
      rw [if_pos rfl]
      exact integralRow_zero (by omega) (by omega)
    | succ y =>
      rw [if_neg y.succ_ne_zero]
      exact integralRow_succ (by omega) (by omega)

/-! ## The image of a state -/

/-- The rows of the chromagram that the engine transforms. -/
def State.chromaRows (s : State) : List (List F64) :=
  rowsOf s.row.toNat (s.chromaSlice (notes * s.row.toNat))

theorem State.chromaRows_width (s : State) :
    s.chromaRows.length = s.row.toNat ∧ ∀ r ∈ s.chromaRows, r.length = 12 :=
  rowsOf_width _ _ (by simp [State.chromaSlice])

theorem State.cellAt_chromaRows (s : State) {x y : Nat} (hx : x < s.row.toNat) (hy : y < 12) :
    cellAt s.chromaRows x y = s.chromaAt (12 * x + y) := by
  obtain ⟨-, hwidth⟩ := s.chromaRows_width
  have hread := Memory.slice_getElem? s.chroma (s.unwritten 64 .chroma) 0 (notes * s.row.toNat)
    (12 * x + y) (by simp only [notes]; omega)
  have hslice : (s.chromaSlice (notes * s.row.toNat)).length = notes * s.row.toNat :=
    Memory.slice_length ..
  rw [← flatten_getD_eq_cellAt hwidth x hy, State.chromaRows, rowsOf_flatten,
    List.take_of_length_le hslice.le, List.getD_eq_getElem?_getD, State.chromaSlice, hread,
    Nat.zero_add]
  rfl

theorem State.elem_imageOf (s : State) (x : Nat) {y : Nat} (hy : y < 12) :
    elem s.imageOf.toArray (12 * x + y) = cellAt (integralImage s.chromaRows) x y := by
  obtain ⟨-, hwidth⟩ := s.chromaRows_width
  obtain ⟨-, hwidth⟩ := integralImage_width 12 _ hwidth
  rw [elem_toArray]
  exact flatten_getD_eq_cellAt hwidth x hy

/-- Settles O43: the recurrence on the rows, read at the elements of `CHROMA` and of the image. -/
theorem integralImageRecurrence : Obligations.IntegralImageRecurrence := by
  intro s x y hx hy
  obtain ⟨hlength, hwidth⟩ := s.chromaRows_width
  have hrow : 0 < s.row.toNat := by omega
  simp only [s.elem_imageOf _ hy, s.elem_imageOf _ (show y - 1 < 12 by omega),
    s.elem_imageOf _ (show 0 < 12 by omega), ← s.cellAt_chromaRows hx hy,
    ← s.cellAt_chromaRows hrow hy, ← s.cellAt_chromaRows hx (show 0 < 12 by omega),
    ← s.cellAt_chromaRows hrow (show 0 < 12 by omega)]
  exact integralImage_recurrence hwidth (hlength ▸ hx) hy

end Sys2Proof.Machine
end

section
/-! O44, O45: the quantiser, the areas, and the sixteen classifiers. -/

namespace Sys2Proof.Machine

/-! ## The quantiser -/

/-- Neither operand of a `≤` that holds is a NaN. -/
theorem f64IsNaN_of_fle {a b : F64} (h : fle a b = true) :
    f64IsNaN a = false ∧ f64IsNaN b = false := by
  simp only [fle, Bool.and_eq_true, Bool.not_eq_true'] at h
  exact h.1

/-- The code of a response by the order numbers of the thresholds. -/
theorem quantise_eq {v t0 t1 t2 : F64} (hv : f64IsNaN v = false) (h0 : f64IsNaN t0 = false)
    (h1 : f64IsNaN t1 = false) (h2 : f64IsNaN t2 = false) :
    quantise v t0 t1 t2 =
      if f64Order v < f64Order t0 then 0 else if f64Order v < f64Order t1 then 1
      else if f64Order v < f64Order t2 then 3 else 2 := by
  simp only [quantise, flt_iff hv h0, flt_iff hv h1, flt_iff hv h2]

/-- Settles O44: with the thresholds in order the four tests of the quantiser cut the order into the
four bands. -/
theorem quantiserGivesGrayCodeOfBand : Obligations.QuantiserGivesGrayCodeOfBand := by
  refine ⟨fun v t0 t1 t2 hv h01 h12 => ?_, by decide⟩
  obtain ⟨h0, h1⟩ := f64IsNaN_of_fle h01
  obtain ⟨-, h2⟩ := f64IsNaN_of_fle h12
  rw [fle_iff h0 h1] at h01
  rw [fle_iff h1 h2] at h12
  rw [quantise_eq hv h0 h1 h2, flt_iff hv h0, flt_iff hv h1, flt_iff hv h2, fle_iff h0 hv,
    fle_iff h1 hv, fle_iff h2 hv]
  by_cases below : f64Order v < f64Order t0
  · simp only [if_pos below, true_iff]; omega
  by_cases low : f64Order v < f64Order t1
  · simp only [if_neg below, if_pos low, true_iff]; omega
  by_cases middle : f64Order v < f64Order t2
  · simp only [if_neg below, if_neg low, if_pos middle, true_iff]; omega
  · simp only [if_neg below, if_neg low, if_neg middle, true_iff]; omega

/-! ## The bits of a sub-fingerprint -/

theorem Classifier.code_lt (img : Array F64) (i : Nat) (c : Classifier) : c.code img i < 2 ^ 2 := by
  simp only [Classifier.code, quantise]
  split_ifs <;> decide

/-- `bits := (bits << 2) or code` (43_classifier.md R194). -/
def pushCode (bits : Word) (code : Nat) : Word := bits <<< 2 ||| BitVec.ofNat 32 code

/-- The bits a code takes. -/
theorem pushCode_low (bits : Word) {n : Nat} (hn : n < 2 ^ 2) :
    ((pushCode bits n).extractLsb' 0 2).toNat = n := by
  have hlow : (pushCode bits n).extractLsb' 0 2 = BitVec.ofNat 2 n := by
    refine BitVec.eq_of_getLsbD_eq fun b hb => ?_
    simp only [pushCode, BitVec.getLsbD_extractLsb', BitVec.getLsbD_or, BitVec.getLsbD_shiftLeft,
      BitVec.getLsbD_ofNat, Nat.zero_add, hb, show b < 32 by omega, decide_true, Bool.not_true,
      Bool.and_false, Bool.false_and, Bool.false_or, Bool.true_and]
  rw [hlow, BitVec.toNat_ofNat, Nat.mod_eq_of_lt hn]

/-- The bits before a code move up by two. -/
theorem pushCode_high (bits : Word) {n : Nat} (hn : n < 2 ^ 2) {j : Nat} (hj : j < 15) :
    (pushCode bits n).extractLsb' (2 * (j + 1)) 2 = bits.extractLsb' (2 * j) 2 := by
  refine BitVec.eq_of_getLsbD_eq fun b hb => ?_
  have hhigh : n.testBit (2 * (j + 1) + b) = false :=
    Nat.testBit_lt_two_pow (hn.trans_le (Nat.pow_le_pow_right (by decide) (by omega)))
  have hlt : 2 * (j + 1) + b < 32 := by omega
  have hge : ¬ 2 * (j + 1) + b < 2 := by omega
  simp only [pushCode, BitVec.getLsbD_extractLsb', BitVec.getLsbD_or, BitVec.getLsbD_shiftLeft,
    BitVec.getLsbD_ofNat, hhigh, hlt, hge, decide_true, decide_false, Bool.not_false,
    Bool.true_and, Bool.and_false, Bool.or_false,
    show 2 * (j + 1) + b - 2 = 2 * j + b by omega]

/-- Codes pushed one after another: the last stands in the two lowest bits, each one before it two
bits higher. -/
theorem foldl_pushCode_extract {codes : List Nat} (hcodes : ∀ n ∈ codes, n < 2 ^ 2)
    (hlen : codes.length ≤ 16) (bits : Word) {k : Nat} (hk : k < codes.length) :
    ((codes.foldl pushCode bits).extractLsb' (2 * (codes.length - 1 - k)) 2).toNat = codes[k] := by
  induction codes using List.reverseRecOn with
  | nil => simp at hk
  | append_singleton codes n ih =>
    have hn : n < 2 ^ 2 := hcodes n (by simp)
    simp only [List.length_append, List.length_singleton] at hlen hk ⊢
    rw [List.foldl_append, List.foldl_cons, List.foldl_nil, Nat.add_sub_cancel]
    by_cases hlast : k = codes.length
    · subst hlast
      rw [Nat.sub_self, Nat.mul_zero, pushCode_low _ hn, List.getElem_concat_length rfl]
    · have hk' : k < codes.length := by omega
      rw [show codes.length - k = codes.length - 1 - k + 1 by omega,
        pushCode_high _ hn (by omega),
        ih (fun m hm => hcodes m (List.mem_append_left _ hm)) (by omega) hk',
        List.getElem_append_left hk']

theorem classifiers_length : classifiers.length = 16 := rfl

theorem subFp_eq_foldl_pushCode (img : Array F64) (i : Nat) :
    subFp img i = (classifiers.map (Classifier.code img i)).foldl pushCode 0 :=
  List.foldl_map.symm

theorem subFp_extract (img : Array F64) (i : Nat) {c : Nat} (hc : c < classifiers.length) :
    ((subFp img i).extractLsb' (30 - 2 * c) 2).toNat = classifiers[c].code img i := by
  have hcodes : ∀ n ∈ classifiers.map (Classifier.code img i), n < 2 ^ 2 :=
    List.forall_mem_map.2 fun c _ => c.code_lt img i
  have hbits := foldl_pushCode_extract hcodes (by simp [classifiers_length]) 0 (k := c)
    (by simpa using hc)
  simp only [← subFp_eq_foldl_pushCode, List.length_map, classifiers_length,
    List.getElem_map] at hbits
  rwa [show 2 * (16 - 1 - c) = 30 - 2 * c by omega] at hbits

/-! ## Areas -/

theorem area_empty (img : Array F64) {x1 y1 x2 y2 : Int} (h : x2 < x1 ∨ y2 < y1) :
    area img x1 y1 x2 y2 = f64PlusZero := if_pos h

theorem area_corner (img : Array F64) (x2 y2 : Nat) :
    area img 0 0 x2 y2 = elem img (12 * x2 + y2) := by
  simp [area, notes]

theorem area_row_zero (img : Array F64) {y1 : Nat} (x2 : Nat) {y2 : Nat} (h1 : 0 < y1)
    (hy : y1 ≤ y2) :
    area img 0 y1 x2 y2 =
      fsub (elem img (12 * x2 + y2)) (elem img (12 * x2 + (y1 - 1))) := by
  have h1' : ¬ y1 = 0 := by omega
  simp [area, notes, h1', hy]

theorem area_note_zero (img : Array F64) {x1 x2 : Nat} (y2 : Nat) (h1 : 0 < x1) (hx : x1 ≤ x2) :
    area img x1 0 x2 y2 =
      fsub (elem img (12 * x2 + y2)) (elem img (12 * (x1 - 1) + y2)) := by
  have h1' : ¬ x1 = 0 := by omega
  simp [area, notes, h1', hx]

theorem area_inner (img : Array F64) {x1 y1 x2 y2 : Nat} (hx1 : 0 < x1) (hy1 : 0 < y1)
    (hx : x1 ≤ x2) (hy : y1 ≤ y2) :
    area img x1 y1 x2 y2 =
      fadd (fsub (fsub (elem img (12 * x2 + y2)) (elem img (12 * (x1 - 1) + y2)))
        (elem img (12 * x2 + (y1 - 1)))) (elem img (12 * (x1 - 1) + (y1 - 1))) := by
  have hx1' : ¬ x1 = 0 := by omega
  have hy1' : ¬ y1 = 0 := by omega
  simp [area, notes, hx1', hy1', hx, hy]

/-! ## Thresholds -/

/-- A decimal is narrowed to the value nearest it. -/
theorem f64OfDecimal_nearestEven {negative : Bool} {digits places : Nat} {q : ℚ}
    (h : q = (if negative then -1 else 1) * (digits / 10 ^ places) ∧ |q| ≤ 2 ^ 53) :
    NearestEven (f64OfDecimal negative digits places) (q : ℝ) := by
  obtain ⟨hq, hsmall⟩ := h
  have hround := roundRatio_roundsExact negative digits (d := 10 ^ places) (by positivity) 0
  rw [zpow_zero, mul_one, Nat.cast_pow, Nat.cast_ofNat, ← hq] at hround
  have hlt : ((|q| : ℚ) : ℝ) < overflowBound := lt_overflowBound_of_le (by exact_mod_cast hsmall)
  exact hround.1 (by exact_mod_cast hlt)

/-- Settles O45: the bits by the order in which the codes enter, each area by its case, and the
table row by row. -/
theorem subFingerprintBits : Obligations.SubFingerprintBits := by
  refine ⟨fun img i c hc => ?_, fun img => ?_, fun img x y h w => ?_, ?_⟩
  · exact ⟨classifiers[c], List.getElem?_eq_getElem hc, subFp_extract img i hc, rfl⟩
  · exact ⟨fun _ _ _ _ => area_empty img, area_corner img, fun _ _ _ => area_row_zero img _,
      fun _ _ _ => area_note_zero img _, fun _ _ _ _ => area_inner img⟩
  · exact ⟨rfl, rfl, rfl, rfl, rfl, rfl⟩
  · iterate 16
      refine .cons ⟨rfl, rfl, rfl, rfl, f64OfDecimal_nearestEven (by norm_num),
        f64OfDecimal_nearestEven (by norm_num), f64OfDecimal_nearestEven (by norm_num)⟩ ?_
    exact .nil

end Sys2Proof.Machine
end

section
/-! O46, O47: CALCULATE_FINGERPRINT, and the fingerprint of silence. -/

namespace Sys2Proof.Machine

/-! ## CALCULATE_FINGERPRINT -/

/-- An element past a run that was written from index 0 on reads as before. -/
theorem Memory.getD_read?_splice_outside {β : Type} (m : Memory β) {vs : List β} {j : Nat} (d : β)
    (hj : vs.length ≤ j) : ((Memory.splice m 0 vs).read? j).getD d = (m.read? j).getD d := by
  rw [Memory.read?_splice_outside m 0 vs j (.inr (by rwa [Nat.zero_add]))]

theorem execCalculateFingerprint_rows {s : State} (hlive : s.live = true)
    (hfinal : s.finalized = false) (hrow : 17 ≤ s.row.toNat) :
    exec .calculateFingerprint s = .next (s.fingerprint (s.row.toNat - 15)).complete := by
  show execCalculateFingerprint s = _
  rw [execCalculateFingerprint, if_neg (by simp [hlive, hfinal]),
    if_neg (by simpa [maxWidth] using hrow)]
  rfl

/-- The fingerprint writes these fields and no other (45_controller.md R262). -/
theorem State.fingerprint_frame (s : State) (l : Nat) :
    s.fingerprint l = { s with
      finalized := true, img := true, chroma := (s.fingerprint l).chroma
      subfp := (s.fingerprint l).subfp, sym := (s.fingerprint l).sym
      raw := (s.fingerprint l).raw, out := (s.fingerprint l).out
      fpLen := (s.fingerprint l).fpLen, bitsIndex := (s.fingerprint l).bitsIndex
      bytesLen := (s.fingerprint l).bytesLen, outLen := (s.fingerprint l).outLen } := rfl

theorem State.fingerprint_chromaAt_inside (s : State) (l : Nat) {i : Nat}
    (hi : i < 12 * s.row.toNat) : some ((s.fingerprint l).chromaAt i) = s.imageOf[i]? :=
  Memory.getD_read?_splice s.chroma _ (s.imageOf_length.symm ▸ hi)

theorem State.fingerprint_chromaAt_outside (s : State) (l : Nat) {i : Nat}
    (hi : 12 * s.row.toNat ≤ i) : (s.fingerprint l).chromaAt i = s.chromaAt i :=
  Memory.getD_read?_splice_outside s.chroma _ (s.imageOf_length ▸ hi)

theorem State.fingerprint_subfpAt_inside (s : State) {l i : Nat} (hi : i < l) :
    (s.fingerprint l).subfpAt i = subFp s.imageOf.toArray i := by
  have hread := Memory.getD_read?_splice s.subfp (vs := subFingerprints s.imageOf l)
    (s.unwritten 32 .subfp i) (by simpa using hi)
  refine Option.some.inj (hread.trans ?_)
  simp [subFingerprints, hi]

theorem State.fingerprint_subfpAt_outside (s : State) {l i : Nat} (hi : l ≤ i) :
    (s.fingerprint l).subfpAt i = s.subfpAt i :=
  Memory.getD_read?_splice_outside s.subfp _ ((subFingerprints_length _ l).symm ▸ hi)

theorem State.fingerprint_outAt_outside (s : State) {l i : Nat}
    (hi : (base64 (rawBytes (subFingerprints s.imageOf l))).length ≤ i) :
    (s.fingerprint l).outAt i = s.outAt i :=
  Memory.getD_read?_splice_outside s.out _ hi

theorem State.fingerprint_bitsIndex (s : State) {l : Nat} (hl : l ≤ subfpCap) :
    (s.fingerprint l).bitsIndex.toNat = (symbols (subFingerprints s.imageOf l)).length := by
  have hlen := symbols_length_le (subFingerprints s.imageOf l)
  simp only [subFingerprints_length, subfpCap] at hlen hl
  refine (BitVec.toNat_ofNat _ _).trans (Nat.mod_eq_of_lt ?_)
  omega

/-- What holds a fingerprint has its string as the text of `OUT`. -/
theorem State.HoldsFingerprint.outText {s : State} {fp : List Word} (h : s.HoldsFingerprint fp) :
    s.outText = base64 (rawBytes fp) := by
  refine List.ext_getElem? fun j => ?_
  by_cases hj : j < s.outLen.toNat
  · rw [h.text j hj]
    simp [State.outText, hj]
  · rw [List.getElem?_eq_none (by simpa [State.outText] using hj),
      List.getElem?_eq_none (h.chars ▸ Nat.not_lt.1 hj)]

theorem State.fingerprint_holdsSubFingerprints (s : State) {l : Nat} (hl : l ≤ subfpCap) :
    (s.fingerprint l).HoldsFingerprint (subFingerprints s.imageOf l) :=
  (State.compress_holdsFingerprint _ (by simpa using hl)).finalize

theorem State.sessionState_of_finalized {s : State} (hlive : s.live = true)
    (hfinal : s.finalized = true) : s.sessionState = .finalized := by
  simp [State.sessionState, hlive, hfinal]

theorem State.complete_chromaAt (s : State) : s.complete.chromaAt = s.chromaAt := rfl

theorem State.complete_subfpAt (s : State) : s.complete.subfpAt = s.subfpAt := rfl

theorem State.complete_outAt (s : State) : s.complete.outAt = s.outAt := rfl

/-- Settles O46: the three writes of the command fill separate arrays, each read back where it was
written and unchanged elsewhere; `ROW` bounds the length, so the lengths fit their registers. -/
theorem calculateFingerprintCompletes : Obligations.CalculateFingerprintCompletes := by
  intro s hlive hfinal hrow hmax
  have hl : s.row.toNat - 15 ≤ subfpCap := by simp only [subfpCap]; omega
  have held := (s.fingerprint_holdsSubFingerprints hl).complete
  refine ⟨_, execCalculateFingerprint_rows hlive hfinal hrow,
    State.sessionState_of_finalized hlive rfl, ?_⟩
  rw [State.complete_chromaAt, State.complete_subfpAt, State.complete_outAt]
  exact ⟨congrArg State.complete (s.fingerprint_frame _),
    fun i hi => s.fingerprint_chromaAt_inside _ hi, fun i hi => s.fingerprint_subfpAt_inside hi,
    fun i hi => s.fingerprint_subfpAt_outside hi, fun i hi => s.fingerprint_chromaAt_outside _ hi,
    held.values.trans (subFingerprints_length _ _), s.fingerprint_bitsIndex hl, held.bytes,
    held.outText, fun i hi => s.fingerprint_outAt_outside (held.chars.ge.trans hi)⟩

/-! ## Silence -/

theorem fadd_zero_zero : fadd f64PlusZero f64PlusZero = f64PlusZero := by decide

theorem fsub_zero_zero : fsub f64PlusZero f64PlusZero = f64PlusZero := by decide

/-- An image all of whose cells are +0.0. -/
def ZeroImage (img : Array F64) : Prop := ∀ i, elem img i = f64PlusZero

theorem zeroImage_replicate (n : Nat) : ZeroImage (Array.replicate n f64PlusZero) := by
  intro i
  by_cases hi : i < n <;> simp [elem, hi]

theorem ZeroImage.area_eq {img : Array F64} (h : ZeroImage img) (x1 y1 x2 y2 : Int) :
    area img x1 y1 x2 y2 = f64PlusZero := by
  simp only [area, h _, fsub_zero_zero, fadd_zero_zero, ite_self]

theorem ZeroImage.shapeSums_eq {img : Array F64} (h : ZeroImage img) (shape : Shape)
    (x y n w : Int) :
    shapeSums img shape x y n w = (f64PlusZero, f64PlusZero) := by
  cases shape <;> simp only [shapeSums, h.area_eq, fadd_zero_zero]

theorem compareAreas_zero : compareAreas f64PlusZero f64PlusZero = f64PlusZero := by
  have hone : fadd f64One f64PlusZero = f64One := by decide +kernel
  rw [compareAreas, hone, flog_one, fsub_zero_zero]

/-- The codes of silence: those of a response of +0.0 (43_classifier.md R197). -/
theorem quantise_zero_codes :
    classifiers.map (fun c => quantise f64PlusZero c.t0 c.t1 c.t2) =
      [0, 2, 1, 1, 1, 2, 3, 1, 3, 3, 2, 1, 1, 3, 1, 3] := by
  decide +kernel

theorem ZeroImage.codes_eq {img : Array F64} (h : ZeroImage img) (i : Nat) :
    classifiers.map (Classifier.code img i) =
      [0, 2, 1, 1, 1, 2, 3, 1, 3, 3, 2, 1, 1, 3, 1, 3] := by
  rw [← quantise_zero_codes]
  refine List.map_congr_left fun c _ => ?_
  rw [Classifier.code, h.shapeSums_eq, compareAreas_zero]

theorem ZeroImage.subFp_eq {img : Array F64} (h : ZeroImage img) (i : Nat) :
    subFp img i = 0x256DF977#32 := by
  rw [subFp_eq_foldl_pushCode, h.codes_eq]
  rfl

/-- The image of rows that are all +0.0, by the recurrence of 43_classifier.md R181. -/
theorem State.imageOf_zeroImage {s : State}
    (h : ∀ i < 12 * s.row.toNat, s.chromaAt i = f64PlusZero) : ZeroImage s.imageOf.toArray := by
  intro i
  by_cases hi : i < 12 * s.row.toNat
  · induction i using Nat.strong_induction_on with
    | h i ih =>
      obtain ⟨x, y, hy, rfl⟩ : ∃ x y, y < 12 ∧ i = 12 * x + y :=
        ⟨i / 12, i % 12, Nat.mod_lt _ (by decide), (Nat.div_add_mod i 12).symm⟩
      refine (integralImageRecurrence s x y (by omega) hy).trans ?_
      dsimp only
      split_ifs with hx0 hy0 hy0
      · exact h _ (by omega)
      · rw [h _ (by omega), ih _ (by omega) (by omega), fadd_zero_zero]
      · rw [h _ (by omega), ih _ (by omega) (by omega), fadd_zero_zero]
      · rw [h _ hi, ih _ (by omega) (by omega), ih _ (by omega) (by omega),
          ih _ (by omega) (by omega), fadd_zero_zero, fadd_zero_zero, fsub_zero_zero]
  · rw [elem_toArray, List.getD_eq_default _ _ (by simpa [s.imageOf_length, notes] using hi)]

/-- Settles O47: the image of silence is zero by the recurrence, and on a zero image every
area is. -/
theorem silenceFingerprint : Obligations.SilenceFingerprint := by
  refine ⟨fun s hlive hfinal hrow _ hzero => ?_, fun r i _ => ?_⟩
  · refine ⟨_, execCalculateFingerprint_rows hlive hfinal hrow, fun i hi => ?_⟩
    exact (s.fingerprint_subfpAt_inside hi).trans ((State.imageOf_zeroImage hzero).subFp_eq i)
  · have hz := zeroImage_replicate (12 * r)
    refine ⟨hz.area_eq, fun c _ => ?_, hz.codes_eq i⟩
    simp only [hz.shapeSums_eq, compareAreas_zero]

end Sys2Proof.Machine
end

section
/-! O48, O49: deltas and symbols, and how the decoder undoes each. -/

namespace Sys2Proof.Machine

/-! ## Deltas -/

theorem deltasAfter_getElem? (previous : Word) (s : List Word) {i : Nat} (h : i < s.length) :
    (deltasAfter previous s)[i]? =
      some (s[i] ^^^ (previous :: s)[i]'(Nat.lt_succ_of_lt h)) := by
  induction s generalizing previous i with
  | nil => simp at h
  | cons x xs ih =>
    cases i with
    | zero => rfl
    | succ i => exact ih x (Nat.lt_of_succ_lt_succ h)

/-- Settles O48: past the first value, the value before is the element one earlier of the whole
sequence. -/
theorem deltasXorNeighbours : Obligations.DeltasXorNeighbours := by
  intro s
  refine ⟨deltas_length s, fun h => ?_, fun i h => ?_⟩
  · obtain ⟨x, xs, rfl⟩ := List.exists_cons_of_length_pos h
    rfl
  · obtain ⟨x, xs, rfl⟩ := List.exists_cons_of_length_pos (Nat.zero_lt_of_lt h)
    exact deltasAfter_getElem? x xs (Nat.lt_of_succ_lt_succ h)

theorem undelta_deltasAfter (previous : Word) (s : List Word) :
    undelta previous (deltasAfter previous s) = s := by
  induction s generalizing previous with
  | nil => rfl
  | cons x xs ih =>
    rw [deltasAfter, undelta, BitVec.xor_assoc, BitVec.xor_self, BitVec.xor_zero, ih]

theorem undelta_deltas (s : List Word) : undelta 0 (deltas s) = s := by
  cases s with
  | nil => rfl
  | cons x xs => simp [deltas, undelta, undelta_deltasAfter]

/-! ## Gaps -/

/-- The gaps between the listed bit positions, `last` being the 1-based position the first gap is
counted from (44_compress.md R212). -/
def gapsFrom : (last : Nat) → (positions : List Nat) → List Nat
  | _, [] => []
  | last, p :: ps => (p + 1 - last) :: gapsFrom (p + 1) ps

/-- The positions of the set bits of a delta, in increasing order. -/
def setBits (d : Word) : List Nat := (List.range 32).filter fun p => d.getLsbD p

/-- The gaps between the set bits of a delta. -/
def deltaGaps (d : Word) : List Nat := gapsFrom 0 (setBits d)

theorem symbolsFrom_eq_gapsFrom (d : Word) (positions : List Nat) (last : Nat) :
    symbolsFrom d positions last =
      gapsFrom last (positions.filter fun p => d.getLsbD p) ++ [0] := by
  induction positions generalizing last with
  | nil => rfl
  | cons p ps ih =>
    rw [symbolsFrom]
    split
    next hset => rw [List.filter_cons_of_pos hset, gapsFrom, ih, List.cons_append]
    next hclear => rw [List.filter_cons_of_neg hclear, ih]

theorem deltaSymbols_eq_deltaGaps (d : Word) : deltaSymbols d = deltaGaps d ++ [0] :=
  symbolsFrom_eq_gapsFrom d _ 0

/-- Positions that strictly rise, from `last` on. -/
def RisingFrom (last : Nat) (ps : List Nat) : Prop := (∀ p ∈ ps, last ≤ p) ∧ ps.Pairwise (· < ·)

theorem RisingFrom.tail {last p : Nat} {ps : List Nat} (h : RisingFrom last (p :: ps)) :
    RisingFrom (p + 1) ps :=
  ⟨(List.pairwise_cons.1 h.2).1, (List.pairwise_cons.1 h.2).2⟩

theorem RisingFrom.add_gap {last p : Nat} {ps : List Nat} (h : RisingFrom last (p :: ps)) :
    last + (p + 1 - last) = p + 1 := by
  have := h.1 p (by simp)
  omega

theorem setBits_rising (d : Word) : RisingFrom 0 (setBits d) :=
  ⟨fun _ _ => Nat.zero_le _, List.pairwise_lt_range.filter _⟩

theorem setBits_lt {d : Word} {p : Nat} (h : p ∈ setBits d) : p < 32 :=
  List.mem_range.1 (List.mem_filter.1 h).1

theorem gapsFrom_pos {last : Nat} {ps : List Nat} (h : RisingFrom last ps) {g : Nat}
    (hg : g ∈ gapsFrom last ps) : 1 ≤ g := by
  induction ps generalizing last with
  | nil => simp [gapsFrom] at hg
  | cons p ps ih =>
    rcases List.mem_cons.1 hg with rfl | hg
    · have := h.1 p (by simp)
      omega
    · exact ih h.tail hg

/-- The gaps lead from `last` to the 1-based position of the last bit. -/
theorem add_sum_gapsFrom_le {last bound : Nat} {ps : List Nat} (h : RisingFrom last ps)
    (hlast : last ≤ bound) (hbound : ∀ p ∈ ps, p < bound) :
    last + (gapsFrom last ps).sum ≤ bound := by
  induction ps generalizing last with
  | nil => simpa [gapsFrom] using hlast
  | cons p ps ih =>
    rw [gapsFrom, List.sum_cons, ← Nat.add_assoc, h.add_gap]
    exact ih h.tail (hbound p (by simp)) fun q hq => hbound q (by simp [hq])

/-- The running sums of the gaps are the 1-based positions. -/
theorem runningSums_gapsFrom {last : Nat} {ps : List Nat} (h : RisingFrom last ps) :
    (List.range (gapsFrom last ps).length).map
      (fun i => last + ((gapsFrom last ps).take (i + 1)).sum) = ps.map (· + 1) := by
  induction ps generalizing last with
  | nil => rfl
  | cons p ps ih =>
    simp only [gapsFrom, List.length_cons, List.range_succ_eq_map, List.map_cons, List.map_map,
      List.take_succ_cons, List.sum_cons, ← Nat.add_assoc, h.add_gap]
    exact congrArg _ (ih h.tail)

theorem deltaGaps_bounds {d : Word} :
    (∀ g ∈ deltaGaps d, 1 ≤ g ∧ g ≤ 32) ∧ (deltaGaps d).sum ≤ 32 := by
  have hsum := add_sum_gapsFrom_le (setBits_rising d) (Nat.zero_le 32) fun _ => setBits_lt
  rw [Nat.zero_add] at hsum
  exact ⟨fun g hg => ⟨gapsFrom_pos (setBits_rising d) hg, (List.le_sum_of_mem hg).trans hsum⟩, hsum⟩

/-- Settles O49: the symbols before the terminator are the gaps between the set bits, which rise. -/
theorem symbolsAreGapsOfSetBits : Obligations.SymbolsAreGapsOfSetBits := by
  refine ⟨fun d => ?_, fun s => List.flatMap_def⟩
  obtain ⟨hgaps, hsum⟩ := deltaGaps_bounds (d := d)
  refine ⟨deltaGaps d, deltaSymbols_eq_deltaGaps d, hgaps, hsum, ?_⟩
  have hrunning := runningSums_gapsFrom (setBits_rising d)
  simp only [Nat.zero_add] at hrunning
  exact hrunning

/-! ## Words from gaps -/

/-- The decoder puts a bit at each position the gaps came from (44_compress.md R221). -/
theorem wordOfGaps_gapsFrom {last : Nat} {ps : List Nat} (h : RisingFrom last ps) :
    wordOfGaps last (gapsFrom last ps) = BitVec.ofNat 32 (ps.map (2 ^ ·)).sum := by
  induction ps generalizing last with
  | nil => rfl
  | cons p ps ih =>
    rw [gapsFrom, wordOfGaps, h.add_gap, ih h.tail, List.map_cons, List.sum_cons,
      BitVec.ofNat_add, Nat.add_sub_cancel]

theorem sum_two_pow_testBit (n x : Nat) :
    (((List.range n).filter x.testBit).map (2 ^ ·)).sum = x % 2 ^ n := by
  induction n with
  | zero => simp [Nat.mod_one]
  | succ n ih =>
    rw [List.range_succ, List.filter_append, List.map_append, List.sum_append, ih,
      Nat.mod_pow_succ, ← Nat.toNat_testBit]
    cases hbit : x.testBit n <;> simp [hbit]

theorem wordOfGaps_deltaGaps (d : Word) : wordOfGaps 0 (deltaGaps d) = d := by
  rw [deltaGaps, wordOfGaps_gapsFrom (setBits_rising d)]
  refine BitVec.eq_of_toNat_eq ?_
  rw [BitVec.toNat_ofNat, show setBits d = (List.range 32).filter d.toNat.testBit from rfl,
    sum_two_pow_testBit, Nat.mod_mod, Nat.mod_eq_of_lt d.isLt]

end Sys2Proof.Machine
end

section
/-! O50: packing, bit by bit. -/

namespace Sys2Proof.Machine

/-! ## Bits of a number -/

/-- The low `n` bits of a number, the least significant first. -/
def bitsOf (n x : Nat) : List Bool := (List.range n).map x.testBit

@[simp] theorem bitsOf_length (n x : Nat) : (bitsOf n x).length = n := by simp [bitsOf]

theorem bitsOf_add (m n x : Nat) : bitsOf (m + n) x = bitsOf m x ++ bitsOf n (x >>> m) := by
  simp [bitsOf, List.range_add, Function.comp_def]

theorem bitsOf_zero_right (n : Nat) : bitsOf n 0 = List.replicate n false :=
  List.eq_replicate_iff.2 ⟨bitsOf_length n 0, by simp [bitsOf]⟩

theorem bitsOf_congr {n x y : Nat} (h : ∀ i < n, x.testBit i = y.testBit i) :
    bitsOf n x = bitsOf n y :=
  List.map_congr_left fun i hi => h i (List.mem_range.1 hi)

theorem bitsOf_getElem? {n : Nat} (x : Nat) {i : Nat} (h : i < n) :
    (bitsOf n x)[i]? = some (x.testBit i) := by
  simp [bitsOf, h]

/-- The value of the low bits. -/
theorem bitsValue_bitsOf (n x : Nat) : bitsValue (bitsOf n x) = x % 2 ^ n := by
  induction n generalizing x with
  | zero => simp [bitsOf, bitsValue, Nat.mod_one]
  | succ n ih =>
    have hbit : (x.testBit 0).toNat = x % 2 := by rw [Nat.toNat_testBit, pow_zero, Nat.div_one]
    rw [Nat.add_comm n 1, bitsOf_add, Nat.shiftRight_one, pow_add, pow_one, Nat.mod_mul, ← ih,
      ← hbit]
    rfl

/-! ## Streams -/

@[simp] theorem streamBits_append (a b : List Byte) :
    streamBits (a ++ b) = streamBits a ++ streamBits b := List.flatMap_append

/-- One byte holds the low 8 bits. -/
theorem streamBits_byte (x : Nat) : streamBits [BitVec.ofNat 8 x] = bitsOf 8 x := by
  rw [streamBits, List.flatMap_singleton]
  refine List.map_congr_left fun i hi => ?_
  rw [BitVec.getLsbD_ofNat, decide_eq_true (List.mem_range.1 hi), Bool.true_and]

theorem streamBits_lowBytes (count acc : Nat) :
    streamBits (lowBytes count acc) = bitsOf (8 * count) acc := by
  induction count generalizing acc with
  | zero => rfl
  | succ count ih =>
    rw [lowBytes, ← List.singleton_append, streamBits_append, streamBits_byte, ih,
      show 8 * (count + 1) = 8 + 8 * count by omega, bitsOf_add, Nat.shiftRight_eq_div_pow]

/-! ## The accumulator -/

/-- The low bits of `v` enter an accumulator above the `n` bits it holds (44_compress.md R214). -/
def pushBits (width acc n v : Nat) : Nat := acc ||| (v % 2 ^ width) <<< n

theorem pushBits_lt {width acc n : Nat} (v : Nat) (h : acc < 2 ^ n) :
    pushBits width acc n v < 2 ^ (n + width) := by
  refine Nat.or_lt_two_pow (h.trans_le (Nat.pow_le_pow_right two_pos (Nat.le_add_right _ _))) ?_
  rw [Nat.shiftLeft_eq, pow_add, Nat.mul_comm]
  exact Nat.mul_lt_mul_of_pos_left (Nat.mod_lt _ (by positivity)) (by positivity)

theorem bitsOf_pushBits {width acc n : Nat} (v : Nat) (h : acc < 2 ^ n) :
    bitsOf (n + width) (pushBits width acc n v) = bitsOf n acc ++ bitsOf width v := by
  have hlow : bitsOf n (pushBits width acc n v) = bitsOf n acc :=
    bitsOf_congr fun i hi => by
      simp [pushBits, Nat.testBit_shiftLeft, hi]
  have hhigh : bitsOf width (pushBits width acc n v >>> n) = bitsOf width v :=
    bitsOf_congr fun i hi => by
      have hacc : acc.testBit (n + i) = false :=
        Nat.testBit_lt_two_pow (h.trans_le (Nat.pow_le_pow_right two_pos (Nat.le_add_right _ _)))
      simp [pushBits, Nat.testBit_shiftRight, Nat.testBit_shiftLeft, hacc, hi]
  rw [bitsOf_add, hlow, hhigh]

/-- The bits that stay once the whole bytes have left. -/
theorem shiftRight_bytes_lt {acc n : Nat} (h : acc < 2 ^ n) :
    acc >>> (8 * (n / 8)) < 2 ^ (n % 8) := by
  rw [Nat.shiftRight_eq_div_pow, Nat.div_lt_iff_lt_mul (by positivity), ← pow_add]
  rwa [show n % 8 + 8 * (n / 8) = n by omega]

theorem packFrom_cons (width acc n v : Nat) (vs : List Nat) :
    packFrom width acc n (v :: vs) =
      lowBytes ((n + width) / 8) (pushBits width acc n v) ++
        packFrom width (pushBits width acc n v >>> (8 * ((n + width) / 8))) ((n + width) % 8) vs :=
  rfl

/-- The stream is what the accumulator holds, the low bits of each value, and zeros. -/
theorem streamBits_packFrom (width : Nat) {acc n : Nat} (v : List Nat) (hn : n < 8)
    (hacc : acc < 2 ^ n) :
    ∃ pad, streamBits (packFrom width acc n v) =
      bitsOf n acc ++ v.flatMap (bitsOf width) ++ List.replicate pad false := by
  induction v generalizing acc n with
  | nil =>
    refine ⟨if 0 < n then 8 - n else 0, ?_⟩
    rw [packFrom, List.flatMap_nil, List.append_nil]
    split
    · rw [streamBits_byte, ← bitsOf_zero_right, ← Nat.shiftRight_eq_zero acc n hacc, ← bitsOf_add,
        Nat.add_sub_cancel' hn.le]
    next hempty =>
      rw [Nat.eq_zero_of_not_pos hempty]
      rfl
  | cons x xs ih =>
    obtain ⟨pad, hrest⟩ := ih (Nat.mod_lt _ (by decide))
      (shiftRight_bytes_lt (pushBits_lt (width := width) x hacc))
    refine ⟨pad, ?_⟩
    rw [packFrom_cons, streamBits_append, streamBits_lowBytes, hrest, ← List.append_assoc,
      ← List.append_assoc, ← bitsOf_add, Nat.div_add_mod, bitsOf_pushBits x hacc,
      List.flatMap_cons, List.append_assoc (bitsOf n acc)]

theorem streamBits_pack (width : Nat) (v : List Nat) :
    ∃ pad, streamBits (pack width v) =
      v.flatMap (bitsOf width) ++ List.replicate pad false :=
  streamBits_packFrom width v (by decide) Nat.one_pos

/-! ## Single bits -/

/-- An element of blocks of equal length put one after another. -/
theorem getElem?_flatMap_blocks {α β : Type} {f : α → List β} {width : Nat}
    (hf : ∀ a, (f a).length = width) (hw : 0 < width) (l : List α) (j : Nat) :
    (l.flatMap f)[j]? = l[j / width]?.bind fun a => (f a)[j % width]? := by
  induction l generalizing j with
  | nil => simp
  | cons a l ih =>
    rw [List.flatMap_cons]
    by_cases hj : j < width
    · rw [List.getElem?_append_left (by rwa [hf]), Nat.div_eq_of_lt hj, Nat.mod_eq_of_lt hj]
      rfl
    · have hle := Nat.not_lt.1 hj
      rw [List.getElem?_append_right (by rwa [hf]), hf, ih, Nat.div_eq_sub_div hw hle,
        Nat.mod_eq_sub_mod hle, List.getElem?_cons_succ]

theorem streamBit_eq_getD (bytes : List Byte) (j : Nat) :
    streamBit bytes j = (streamBits bytes)[j]?.getD false := by
  have hj : j % 8 < 8 := Nat.mod_lt _ (by decide)
  rw [streamBits, getElem?_flatMap_blocks (width := 8) (by simp) (by decide), streamBit,
    List.getD_eq_getElem?_getD]
  cases bytes[j / 8]? with
  | none => simp
  | some b => simp [hj]

theorem flatMap_bitsOf_length (width : Nat) (v : List Nat) :
    (v.flatMap (bitsOf width)).length = v.length * width := by
  simp [List.length_flatMap]

/-- Settles O50: the stream is the low bits of the values, in blocks of `width`, and zeros. -/
theorem packPlacesEveryBit : Obligations.PackPlacesEveryBit := by
  refine fun width v => ⟨by rw [pack_length, Nat.mul_comm], fun j _ => ?_⟩
  obtain ⟨pad, hstream⟩ := streamBits_pack width v
  rw [streamBit_eq_getD, hstream]
  split
  next hj =>
    have hw : 0 < width := Nat.pos_of_lt_mul_left hj
    have hv : j / width < v.length := (Nat.div_lt_iff_lt_mul hw).2 hj
    rw [List.getElem?_append_left (by rwa [flatMap_bitsOf_length]),
      getElem?_flatMap_blocks (bitsOf_length width) hw, List.getElem?_eq_getElem hv,
      List.getD_eq_getElem _ _ hv, Option.bind_some, bitsOf_getElem? _ (Nat.mod_lt _ hw),
      Option.getD_some]
  next hj =>
    rw [List.getElem?_append_right (by rw [flatMap_bitsOf_length]; exact Nat.not_lt.1 hj),
      List.getElem?_replicate]
    split <;> rfl

end Sys2Proof.Machine
end

section
/-! O53: the decoder undoes the compressor. -/

namespace Sys2Proof.Machine

/-! ## Reading back the two passes -/

/-- Reading the next value of a stream of low bits. -/
theorem bitsValue_take_bitsOf (width v : Nat) (vs : List Nat) (rest : List Bool)
    (hv : v < 2 ^ width) :
    bitsValue (((v :: vs).flatMap (bitsOf width) ++ rest).take width) = v := by
  rw [List.flatMap_cons, List.append_assoc, List.take_left' (bitsOf_length width v),
    bitsValue_bitsOf, Nat.mod_eq_of_lt hv]

theorem drop_bitsOf (width v : Nat) (vs : List Nat) (rest : List Bool) :
    ((v :: vs).flatMap (bitsOf width) ++ rest).drop width = vs.flatMap (bitsOf width) ++ rest := by
  rw [List.flatMap_cons, List.append_assoc, List.drop_left' (bitsOf_length width v)]

/-- A list of symbols that is empty or ends in a terminator. -/
def Terminated (sym : List Nat) : Prop := ∀ x ∈ sym.getLast?, x = 0

theorem Terminated.tail {v : Nat} {vs : List Nat} (h : Terminated (v :: vs)) : Terminated vs := by
  cases vs with
  | nil => simp [Terminated]
  | cons x xs => simpa [Terminated, List.getLast?_cons] using h

theorem Terminated.zero_mem {v : Nat} {vs : List Nat} (h : Terminated (v :: vs)) : 0 ∈ v :: vs := by
  obtain ⟨x, hx⟩ := Option.isSome_iff_exists.1 (List.getLast?_isSome.2 (List.cons_ne_nil v vs))
  exact h x hx ▸ List.mem_of_getLast? hx

/-- Pass 1 is read until as many zeros have come as there are terminators. -/
theorem readNormals_flatMap {vs : List Nat} (hv : ∀ v ∈ vs, v < 2 ^ normalBits)
    (hend : Terminated vs) (rest : List Bool) {fuel : Nat} (hfuel : vs.length ≤ fuel) :
    readNormals fuel (vs.count 0) (vs.flatMap (bitsOf normalBits) ++ rest) = vs := by
  induction vs generalizing fuel with
  | nil => cases fuel <;> rfl
  | cons v vs ih =>
    obtain ⟨fuel, rfl⟩ := Nat.exists_eq_add_of_lt (Nat.zero_lt_of_lt hfuel)
    obtain ⟨zeros, hzeros⟩ := Nat.exists_eq_add_of_lt (List.count_pos_iff.2 hend.zero_mem)
    have hcount : (if v = 0 then zeros else zeros + 1) = vs.count 0 := by
      rw [List.count_cons] at hzeros
      split <;> simp_all
    rw [Nat.zero_add] at hzeros hfuel ⊢
    rw [hzeros, readNormals, bitsValue_take_bitsOf _ _ _ _ (hv v (by simp)), drop_bitsOf, hcount,
      ih (fun x hx => hv x (by simp [hx])) hend.tail (Nat.le_of_succ_le_succ hfuel)]

/-- Pass 2 gives back what pass 1 cut off, symbol by symbol. -/
theorem readExceptions_flatMap {sym : List Nat} (hsym : ∀ x ∈ sym, x < maxNormal + 2 ^ excBits)
    (rest : List Bool) :
    readExceptions (sym.map fun x => min x maxNormal)
      (((exceptional sym).map fun x => x - maxNormal).flatMap (bitsOf excBits) ++ rest) = sym := by
  induction sym with
  | nil => rfl
  | cons x xs ih =>
    have htail := ih fun y hy => hsym y (by simp [hy])
    by_cases hx : maxNormal ≤ x
    · rw [exceptional, List.filter_cons_of_pos (by simpa using hx), ← exceptional, List.map_cons,
        List.map_cons, readExceptions, if_pos (Nat.min_eq_right hx),
        bitsValue_take_bitsOf _ _ _ _ (by have := hsym x (by simp); omega), drop_bitsOf, htail,
        Nat.add_sub_cancel' hx]
    · rw [exceptional, List.filter_cons_of_neg (by simpa using hx), ← exceptional, List.map_cons,
        readExceptions, if_neg (by omega), htail, Nat.min_eq_left (by omega)]

/-! ## The symbols of a sequence -/

theorem symbols_eq_flatMap_gaps (s : List Word) :
    symbols s = (deltas s).flatMap fun d => deltaGaps d ++ [0] :=
  List.flatMap_congr fun d _ => deltaSymbols_eq_deltaGaps d

theorem zero_notMem_deltaGaps (d : Word) : 0 ∉ deltaGaps d := fun h =>
  absurd (deltaGaps_bounds.1 0 h).1 (by decide)

theorem symbols_le {s : List Word} {x : Nat} (h : x ∈ symbols s) : x ≤ 32 := by
  rw [symbols_eq_flatMap_gaps] at h
  obtain ⟨d, -, hx⟩ := List.mem_flatMap.1 h
  rcases List.mem_append.1 hx with hgap | hzero
  · exact (deltaGaps_bounds.1 x hgap).2
  · rw [List.mem_singleton.1 hzero]
    exact Nat.zero_le 32

theorem count_zero_groups (ds : List Word) :
    (ds.flatMap fun d => deltaGaps d ++ [0]).count 0 = ds.length := by
  induction ds with
  | nil => rfl
  | cons d ds ih =>
    rw [List.flatMap_cons, List.count_append, List.count_append, ih,
      List.count_eq_zero_of_not_mem (zero_notMem_deltaGaps d), List.count_singleton_self,
      List.length_cons]
    omega

/-- One terminator for each value. -/
theorem count_zero_symbols (s : List Word) : (symbols s).count 0 = s.length := by
  rw [symbols_eq_flatMap_gaps, count_zero_groups, deltas_length]

theorem symbols_terminated (s : List Word) : Terminated (symbols s) := by
  rw [symbols_eq_flatMap_gaps]
  generalize deltas s = ds
  induction ds with
  | nil => simp [Terminated]
  | cons d ds ih =>
    intro x hx
    rw [List.flatMap_cons, List.getLast?_append, Option.mem_def, Option.or_eq_some_iff] at hx
    obtain hlast | ⟨-, hlast⟩ := hx
    · exact ih x hlast
    · simpa using hlast.symm

theorem splitGroups_append (group : List Nat) {gs : List Nat} (h : 0 ∉ gs) (rest : List Nat) :
    splitGroups group (gs ++ [0] ++ rest) = (group ++ gs) :: splitGroups [] rest := by
  induction gs generalizing group with
  | nil => simp [splitGroups]
  | cons g gs ih =>
    obtain ⟨hg, hgs⟩ := List.ne_and_not_mem_of_not_mem_cons h
    rw [List.cons_append, List.cons_append, splitGroups, if_neg hg.symm, ih _ hgs,
      List.append_assoc, List.singleton_append]

/-- The terminators cut the symbols into the gaps of each delta. -/
theorem splitGroups_symbols (s : List Word) :
    splitGroups [] (symbols s) = (deltas s).map deltaGaps := by
  rw [symbols_eq_flatMap_gaps]
  generalize deltas s = ds
  induction ds with
  | nil => rfl
  | cons d ds ih =>
    rw [List.flatMap_cons, splitGroups_append [] (zero_notMem_deltaGaps d), ih, List.map_cons,
      List.nil_append]

theorem map_wordOfGaps_splitGroups_symbols (s : List Word) :
    (splitGroups [] (symbols s)).map (wordOfGaps 0) = deltas s := by
  rw [splitGroups_symbols, List.map_map]
  exact List.map_id'' wordOfGaps_deltaGaps _

/-! ## The byte sequence -/

theorem rawBytes_drop_four (s : List Word) :
    (rawBytes s).drop 4 = pass1 (symbols s) ++ pass2 (symbols s) := rfl

/-- Bytes 1 to 3 of the header, big-endian (44_compress.md R216). -/
theorem header_length {l : Nat} (h : l < 2 ^ 24) :
    (BitVec.ofNat 8 (l >>> 16)).toNat * 65536 + (BitVec.ofNat 8 (l >>> 8)).toNat * 256 +
      (BitVec.ofNat 8 l).toNat = l := by
  simp only [BitVec.toNat_ofNat, Nat.shiftRight_eq_div_pow]
  omega

/-- The values of pass 1. -/
def normals (sym : List Nat) : List Nat := sym.map fun x => min x maxNormal

theorem normals_lt {sym : List Nat} {v : Nat} (h : v ∈ normals sym) : v < 2 ^ normalBits := by
  obtain ⟨x, -, rfl⟩ := List.mem_map.1 h
  exact Nat.lt_of_le_of_lt (Nat.min_le_right _ _) (by decide)

theorem normals_terminated {sym : List Nat} (h : Terminated sym) : Terminated (normals sym) := by
  intro v hv
  rw [normals, List.getLast?_map, Option.mem_map] at hv
  obtain ⟨x, hx, rfl⟩ := hv
  rw [h x hx]
  rfl

theorem count_zero_normals (sym : List Nat) : (normals sym).count 0 = sym.count 0 := by
  rw [normals, List.count_eq_countP, List.countP_map, List.count_eq_countP]
  refine List.countP_congr fun x _ => ?_
  simp [maxNormal]

theorem readNormals_pass1 {sym : List Nat} (hend : Terminated sym) (rest : List Byte) :
    readNormals (streamBits (pass1 sym ++ rest)).length (sym.count 0)
      (streamBits (pass1 sym ++ rest)) = normals sym := by
  obtain ⟨pad, hstream⟩ := streamBits_pack normalBits (normals sym)
  rw [streamBits_append, pass1, ← normals, hstream, List.append_assoc, ← count_zero_normals]
  refine readNormals_flatMap (fun v => normals_lt) (normals_terminated hend) _ ?_
  rw [List.length_append, flatMap_bitsOf_length, normalBits]
  omega

theorem drop_pass1 (sym : List Nat) (rest : List Byte) :
    (pass1 sym ++ rest).drop ((normalBits * (normals sym).length + 7) / 8) = rest :=
  List.drop_left' (pack_length normalBits (normals sym))

theorem readExceptions_pass2 {sym : List Nat} (hsym : ∀ x ∈ sym, x ≤ 32) :
    readExceptions (normals sym) (streamBits (pass2 sym)) = sym := by
  obtain ⟨pad, hstream⟩ :=
    streamBits_pack excBits ((exceptional sym).map fun x => x - maxNormal)
  rw [pass2, ← exceptional, hstream]
  exact readExceptions_flatMap (fun x hx => (hsym x hx).trans_lt (by decide)) _

/-- Settles O53: the header gives the number of terminators to read, pass 1 and pass 2 give the
symbols back, the symbols the deltas, and the deltas the sequence. -/
theorem compressionRoundTrip : Obligations.CompressionRoundTrip := by
  intro s _ hmax
  have hcount : ((rawBytes s).getD 1 0).toNat * 65536 + ((rawBytes s).getD 2 0).toNat * 256 +
      ((rawBytes s).getD 3 0).toNat = (symbols s).count 0 := by
    rw [count_zero_symbols]
    exact header_length (by omega)
  simp only [decompress, hcount, rawBytes_drop_four, readNormals_pass1 (symbols_terminated s),
    drop_pass1, readExceptions_pass2 fun _ => symbols_le, map_wordOfGaps_splitGroups_symbols,
    undelta_deltas]

end Sys2Proof.Machine
end

section
/-! O51, O52: the capacities of the compressor, and base64. -/

namespace Sys2Proof.Machine

/-- Settles O51: at most 33 symbols and 4 exceptional ones for each value bound every length. -/
theorem compressorCapacity : Obligations.CompressorCapacity := by
  refine ⟨exceptional_deltaSymbols_le, fun s hs => ?_⟩
  have hsym := symbols_length_le s
  have hexc := exceptional_symbols_le s
  have hraw := rawBytes_length_le s hs
  have hpass1 : (pass1 (symbols s)).length = (3 * (symbols s).length + 7) / 8 := by
    simp [pass1, normalBits]
  have hpass2 : (pass2 (symbols s)).length = (5 * (exceptional (symbols s)).length + 7) / 8 := by
    simp [pass2, exceptional, excBits]
  have htext := base64_length (rawBytes s)
  simp only [rawCap, symCap, subfpCap, outCap] at hraw ⊢
  omega

/-! ## The bytes as one number -/

theorem foldl_bigEndian (bytes : List Byte) (n : Nat) :
    bytes.foldl (fun n b => n * 256 + b.toNat) n = n * 256 ^ bytes.length + bigEndian bytes := by
  induction bytes generalizing n with
  | nil => simp [bigEndian]
  | cons b bytes ih =>
    rw [bigEndian, List.foldl_cons, List.foldl_cons, ih, ih (0 * 256 + b.toNat), List.length_cons,
      pow_succ]
    ring

theorem bigEndian_cons (b : Byte) (bytes : List Byte) :
    bigEndian (b :: bytes) = b.toNat * 256 ^ bytes.length + bigEndian bytes := by
  rw [bigEndian, List.foldl_cons, foldl_bigEndian, Nat.zero_mul, Nat.zero_add]

theorem bigEndian_lt (bytes : List Byte) : bigEndian bytes < 256 ^ bytes.length := by
  induction bytes with
  | nil => simp [bigEndian]
  | cons b bytes ih =>
    rw [bigEndian_cons, List.length_cons, pow_succ]
    have hb : b.toNat + 1 ≤ 256 := b.isLt
    nlinarith [Nat.mul_le_mul_right (256 ^ bytes.length) hb]

/-- The number the 6-bit groups are read from: the bytes, padded with zero bits to whole groups
(44_compress.md R217). -/
def groupNumber (r : List Byte) : Nat :=
  bigEndian r * 2 ^ (6 * ((4 * r.length + 2) / 3) - 8 * r.length)

/-- The zero bits fill the bytes up to whole groups. -/
theorem sixBitGroups_pow (bytes : Nat) :
    64 ^ ((4 * bytes + 2) / 3) = 256 ^ bytes * 2 ^ (6 * ((4 * bytes + 2) / 3) - 8 * bytes) := by
  rw [show 64 = 2 ^ 6 from rfl, show 256 = 2 ^ 8 from rfl, ← pow_mul, ← pow_mul, ← pow_add,
    Nat.add_sub_cancel' (by omega)]

/-- Three bytes are four groups. -/
theorem groupNumber_cons₃ (a b c : Byte) (r : List Byte) :
    groupNumber (a :: b :: c :: r) =
      (a.toNat * 65536 + b.toNat * 256 + c.toNat) * 64 ^ ((4 * r.length + 2) / 3) +
        groupNumber r := by
  have hgroups : (4 * (r.length + 3) + 2) / 3 = (4 * r.length + 2) / 3 + 4 := by omega
  have hpad : 6 * ((4 * r.length + 2) / 3 + 4) - 8 * (r.length + 3) =
      6 * ((4 * r.length + 2) / 3) - 8 * r.length := by omega
  rw [groupNumber, groupNumber, sixBitGroups_pow]
  simp only [bigEndian_cons, List.length_cons, hgroups, hpad, pow_succ]
  ring

theorem groupNumber_lt (r : List Byte) : groupNumber r < 64 ^ ((4 * r.length + 2) / 3) := by
  rw [groupNumber, sixBitGroups_pow]
  exact Nat.mul_lt_mul_of_pos_right (bigEndian_lt r) (by positivity)

/-! ## Characters -/

theorem or_two_bytes (a b : Byte) :
    a.toNat <<< 16 ||| b.toNat <<< 8 = (a.toNat * 256 + b.toNat) <<< 8 := by
  rw [show a.toNat <<< 16 = a.toNat <<< 8 <<< 8 from Nat.shiftLeft_add _ 8 8,
    ← Nat.shiftLeft_or_distrib, ← Nat.shiftLeft_add_eq_or_of_lt b.isLt,
    Nat.shiftLeft_eq a.toNat 8]

theorem or_three_bytes (a b c : Byte) :
    a.toNat <<< 16 ||| b.toNat <<< 8 ||| c.toNat =
      a.toNat * 65536 + b.toNat * 256 + c.toNat := by
  rw [or_two_bytes, ← Nat.shiftLeft_add_eq_or_of_lt c.isLt, Nat.shiftLeft_eq]
  ring

/-- The characters of a 24-bit group, the highest 6 bits first. -/
theorem base64Group_getElem? (t : Nat) {j : Nat} (hj : j < 4) :
    (base64Group t)[j]? = some (base64Char (t / 64 ^ (3 - j) % 64)) := by
  simp only [base64Group, Nat.shiftRight_eq_div_pow]
  interval_cases j <;> simp

/-- A group of `t` above `n` groups of `m`. -/
theorem groups_above {n m : Nat} (t : Nat) (h : m < 64 ^ n) (k : Nat) :
    (t * 64 ^ n + m) / 64 ^ (n + k) = t / 64 ^ k := by
  rw [pow_add, ← Nat.div_div_eq_div_mul, Nat.mul_comm t, Nat.mul_add_div (by positivity),
    Nat.div_eq_of_lt h, Nat.add_zero]

/-- A group of `m` below `t`. -/
theorem groups_below {n k : Nat} (t m : Nat) (h : k < n) :
    (t * 64 ^ n + m) / 64 ^ k % 64 = m / 64 ^ k % 64 := by
  obtain ⟨i, rfl⟩ := Nat.exists_eq_add_of_lt h
  rw [show t * 64 ^ (k + i + 1) = 64 ^ k * (64 * (t * 64 ^ i)) by ring,
    Nat.mul_add_div (by positivity), Nat.mul_add_mod]

/-- The characters in order are those of the 6-bit groups in order. A last group of one or two bytes
is encoded as the 24-bit group that whole 6-bit groups of zeros complete, and cut there. -/
theorem base64_getElem? : ∀ (r : List Byte) {j : Nat}, j < (4 * r.length + 2) / 3 →
    (base64 r)[j]? =
      some (base64Char (groupNumber r / 64 ^ ((4 * r.length + 2) / 3 - 1 - j) % 64))
  | [], j, hj => by simp at hj
  | [a], j, hj => by
    have hgroups : (4 * List.length [a] + 2) / 3 = 2 := by simp
    rw [hgroups] at hj ⊢
    have hpad : a.toNat <<< 16 = groupNumber [a] * 64 ^ 2 + 0 := by
      simp [groupNumber, bigEndian, Nat.shiftLeft_eq, Nat.mul_assoc]
    rw [base64, List.getElem?_take_of_lt hj, base64Group_getElem? _ (by omega), hpad,
      show 3 - j = 2 + (1 - j) by omega, groups_above _ (by decide)]
  | [a, b], j, hj => by
    have hgroups : (4 * List.length [a, b] + 2) / 3 = 3 := by simp
    rw [hgroups] at hj ⊢
    have hpad : a.toNat <<< 16 ||| b.toNat <<< 8 = groupNumber [a, b] * 64 ^ 1 + 0 := by
      rw [or_two_bytes]
      simp [groupNumber, bigEndian, Nat.shiftLeft_eq, Nat.mul_assoc]
    rw [base64, List.getElem?_take_of_lt hj, base64Group_getElem? _ (by omega), hpad,
      show 3 - j = 1 + (2 - j) by omega, groups_above _ (by decide)]
  | a :: b :: c :: r, j, hj => by
    have hgroups : (4 * (a :: b :: c :: r).length + 2) / 3 = (4 * r.length + 2) / 3 + 4 := by
      simp only [List.length_cons]; omega
    rw [hgroups] at hj ⊢
    rw [base64, or_three_bytes, groupNumber_cons₃]
    by_cases hfirst : j < 4
    · rw [List.getElem?_append_left hfirst, base64Group_getElem? _ hfirst,
        show (4 * r.length + 2) / 3 + 4 - 1 - j = (4 * r.length + 2) / 3 + (3 - j) by omega,
        groups_above _ (groupNumber_lt r)]
    · rw [List.getElem?_append_right (Nat.not_lt.1 hfirst),
        show (base64Group _).length = 4 from rfl, base64_getElem? r (by omega),
        groups_below _ _ (by omega),
        show (4 * r.length + 2) / 3 + 4 - 1 - j = (4 * r.length + 2) / 3 - 1 - (j - 4) by omega]

/-- No character of the alphabet is the equals sign. -/
theorem base64Char_ne_equals (v : Nat) : base64Char v ≠ 0x3D#8 := by
  intro h
  have hcode := congrArg BitVec.toNat h
  simp only [base64Char, BitVec.toNat_ofNat] at hcode
  split_ifs at hcode <;> omega

/-- Settles O52: each step of the recursion turns three bytes into the four groups above those of
the rest, and a short last group is one padded with zeros. -/
theorem base64GivesSixBitGroups : Obligations.Base64GivesSixBitGroups := by
  refine ⟨by decide, fun r => ⟨base64_length r, fun j hj => base64_getElem? r hj, fun hmem => ?_⟩⟩
  obtain ⟨j, hj, hchar⟩ := List.getElem_of_mem hmem
  have hgroup := base64_getElem? r (base64_length r ▸ hj)
  rw [List.getElem?_eq_getElem hj, hchar] at hgroup
  exact base64Char_ne_equals _ (Option.some.inj hgroup).symm

end Sys2Proof.Machine
end

section
/-! O54: COMPRESS. -/

namespace Sys2Proof.Machine

theorem execCompress_admitted {s : State} (hleast : 2 ≤ s.arg) (hmost : s.arg ≤ subfpCap) :
    exec .compress s =
      .next (s.compress ((List.range s.arg0.toNat).map s.subfpAt)).complete := by
  show execCompress s = _
  rw [execCompress, if_neg (Nat.not_lt.2 hleast), if_neg (Nat.not_lt.2 hmost),
    State.subfpSlice_eq]
  rfl

/-- The compressor writes these fields and no other (44_compress.md R218). -/
theorem State.compress_frame (s : State) {fp : List Word} {l : Word}
    (h : (s.compress fp).fpLen = l) :
    s.compress fp = { s with
      sym := (s.compress fp).sym, raw := (s.compress fp).raw, out := (s.compress fp).out
      fpLen := l, bitsIndex := (s.compress fp).bitsIndex
      bytesLen := (s.compress fp).bytesLen, outLen := (s.compress fp).outLen } := by
  subst h
  rfl

theorem State.compress_bitsIndex_toNat (s : State) {fp : List Word} (h : fp.length ≤ subfpCap) :
    (s.compress fp).bitsIndex.toNat = (symbols fp).length := by
  have hlen := symbols_length_le fp
  rw [State.compress_bitsIndex, BitVec.toNat_ofNat]
  simp only [subfpCap] at h
  omega

theorem State.compress_rawAt (s : State) {fp : List Word} {i : Nat}
    (hi : i < (rawBytes fp).length) : some ((s.compress fp).rawAt i) = (rawBytes fp)[i]? :=
  Memory.getD_read?_splice s.raw _ hi

theorem State.compress_rawSlice (s : State) (fp : List Word) :
    (List.range (rawBytes fp).length).map (s.compress fp).rawAt = rawBytes fp := by
  refine (congrArg (List.map _) List.range_eq_range').trans ?_
  exact Memory.slice_splice s.raw (s.unwritten 8 .raw) 0 (rawBytes fp)

theorem State.compress_outAt_outside (s : State) {fp : List Word} {i : Nat}
    (hi : (base64 (rawBytes fp)).length ≤ i) : (s.compress fp).outAt i = s.outAt i :=
  Memory.getD_read?_splice_outside s.out _ hi

/-- The four bytes of the header lie in `RAW`. -/
theorem four_le_rawBytes_length (fp : List Word) : 4 ≤ (rawBytes fp).length := by
  simp [rawBytes]

/-- The header in `RAW`: the algorithm, then the count, big-endian (44_compress.md R216). -/
theorem State.compress_header (s : State) {fp : List Word} (h : fp.length < 2 ^ 24) :
    (s.compress fp).rawAt 0 = 1 ∧
      ((s.compress fp).rawAt 1).toNat * 2 ^ 16 + ((s.compress fp).rawAt 2).toNat * 2 ^ 8 +
        ((s.compress fp).rawAt 3).toNat = fp.length := by
  have hat (i : Nat) (hi : i < 4) : some ((s.compress fp).rawAt i) = (rawBytes fp)[i]? :=
    s.compress_rawAt (hi.trans_le (four_le_rawBytes_length fp))
  rw [Option.some.inj (hat 0 (by decide)), Option.some.inj (hat 1 (by decide)),
    Option.some.inj (hat 2 (by decide)), Option.some.inj (hat 3 (by decide))]
  exact ⟨rfl, header_length h⟩

theorem State.complete_rawAt (s : State) : s.complete.rawAt = s.rawAt := rfl

/-- Settles O54: the compressor writes `RAW` and `OUT` from index 0 on, and at most 256 values leave
every length within its register. -/
theorem compressWritesFingerprintString : Obligations.CompressWritesFingerprintString := by
  intro s hleast hmost fp
  have hlen : fp.length = s.arg0.toNat := by simp [fp]
  have hl : fp.length ≤ subfpCap := hlen.trans_le hmost
  have held := (s.compress_holdsFingerprint hl).complete
  have hfp : (s.compress fp).fpLen = s.arg0 :=
    BitVec.eq_of_toNat_eq (held.values.trans hlen)
  obtain ⟨hid, hcount⟩ := s.compress_header (fp := fp) (by simp only [subfpCap] at hl; omega)
  refine ⟨_, execCompress_admitted hleast hmost, ?_⟩
  rw [State.complete_rawAt, State.complete_outAt]
  refine ⟨congrArg State.complete (s.compress_frame hfp), s.compress_bitsIndex_toNat hl,
    held.bytes, (congrArg (fun n => (List.range n).map _) held.bytes).trans
      (s.compress_rawSlice fp), hid, hcount.trans hlen,
    rawBytes_drop_four fp, held.outText,
    fun i hi => s.compress_outAt_outside (held.chars.ge.trans hi)⟩

end Sys2Proof.Machine
end

section
/-! O23 to O27: NOP, the session commands and the queries. -/

namespace Sys2Proof.Machine

/-- Settles O23. -/
theorem nopWritesOnlyErr : Obligations.NopWritesOnlyErr := fun _ => rfl

/-! ## The session slot -/

theorem execSessionOpen_free {s : State} (h : s.live = false) :
    exec .sessionOpen s = .next s.openSession.complete := by
  show execSessionOpen s = _
  simp [execSessionOpen, h]

theorem execSessionOpen_used {s : State} (h : s.live = true) :
    exec .sessionOpen s = .next (s.raise .alreadyInUse) := by
  show execSessionOpen s = _
  simp [execSessionOpen, h]

theorem execSessionClose_used {s : State} (h : s.live = true) :
    exec .sessionClose s = .next s.closeSession.complete := by
  show execSessionClose s = _
  simp [execSessionClose, h]

theorem execSessionClose_free {s : State} (h : s.live = false) :
    exec .sessionClose s = .next (s.raise .invalidState) := by
  show execSessionClose s = _
  simp [execSessionClose, h]

/-- Settles O24. -/
theorem sessionOpenTakesTheSlot : Obligations.SessionOpenTakesTheSlot := fun _ =>
  ⟨fun hfree => ⟨_, execSessionOpen_free hfree, rfl, rfl⟩, execSessionOpen_used⟩

/-- Settles O25. -/
theorem sessionCloseReleasesTheSlot : Obligations.SessionCloseReleasesTheSlot := fun _ =>
  ⟨fun hused => ⟨_, execSessionClose_used hused, rfl, rfl⟩, execSessionClose_free⟩

/-! ## The queries -/

theorem State.answer_complete (s : State) (b : Bool) :
    (s.answer b).complete = { s with err := .ok, result := b } := rfl

/-- Settles O26: the predicate of the query is that of 45_controller.md R241. -/
theorem needsSamplesAnswers : Obligations.NeedsSamplesAnswers := by
  intro s
  rw [← State.needsSamples_eq]
  refine ⟨fun hlive => ?_, fun hfree => ?_⟩ <;> show execNeedsSamples s = _
  · rw [execNeedsSamples, if_pos hlive, State.answer_complete]
  · exact if_neg (by simp [hfree])

/-- Settles O27: the predicate of the query is that of 45_controller.md R242. -/
theorem canCalculateAnswers : Obligations.CanCalculateAnswers := by
  intro s
  rw [← State.canCalculate_eq]
  refine ⟨fun hlive => ?_, fun hfree => ?_⟩ <;> show execCanCalculate s = _
  · rw [execCanCalculate, if_pos hlive, State.answer_complete]
  · exact if_neg (by simp [hfree])

end Sys2Proof.Machine
end

section
/-! O41, and what ADD_SAMPLES does when it completes. -/

namespace Sys2Proof.Machine

/-- The samples a chunk of words holds (41_window.md R131). -/
def samplesOf (fmt : SampleFormat) (ws : List Word) : List F64 := ws.filterMap (norm fmt)

/-- The operands of ADD_SAMPLES pass their checks: a session that takes samples, and an admitted
length (60_exceptions.md R282, R283). -/
structure State.AdmitsChunk (s : State) : Prop where
  live : s.live = true
  unfinished : s.finalized = false
  least : minChunk ≤ s.arg
  most : s.arg ≤ sinCap

theorem State.AdmitsChunk.checks {s : State} (h : s.AdmitsChunk) :
    ¬ (!s.live || s.finalized) = true ∧ ¬ sinCap < s.arg ∧ ¬ s.arg < minChunk :=
  ⟨by simp [h.live, h.unfinished], Nat.not_lt.2 h.most, Nat.not_lt.2 h.least⟩

/-- Once the budget is reached an admitted chunk is not looked at (45_controller.md R253). -/
theorem execAddSamples_budget {s : State} (h : s.AdmitsChunk) (hbudget : s.needsSamples = false) :
    exec .addSamples s = .next s.complete := by
  obtain ⟨hsession, hmost, hleast⟩ := h.checks
  show execAddSamples s = _
  rw [execAddSamples, if_neg hsession, if_neg hmost, if_neg hleast, if_pos (by simp [hbudget])]

/-- Settles O41. -/
theorem addSamplesAfterBudgetIsNoOp : Obligations.AddSamplesAfterBudgetIsNoOp := by
  intro s hlive hfinal hleast hmost hbudget
  refine execAddSamples_budget ⟨hlive, hfinal, hleast, hmost⟩ ?_
  rw [State.needsSamples_eq]
  exact decide_eq_false (Nat.not_lt.2 hbudget)

theorem State.ensureTables_of_available {s : State} {k : Nat}
    (havail : s.tablesAvailable k = true) :
    ∃ s₁, s.ensureTables k = (true, s₁) ∧ TablesReady s k s₁ := by
  obtain h | he := s.ensureTables_ready k
  · exact h
  · rw [← s.ensureTables_fst, he] at havail
    exact absurd havail nofun

/-- Below the budget, with no NaN and the tables available, the chunk is consumed on the state
`EnsureTables` leaves. -/
theorem execAddSamples_consumes {s : State} (h : s.AdmitsChunk) (hneeds : s.needsSamples = true)
    (hnan : noNaN s.sessionFmt ((List.range s.arg).map s.sinAt) = true)
    (havail : s.tablesAvailable 12 = true) :
    ∃ s₁, s.ensureTables 12 = (true, s₁) ∧ TablesReady s 12 s₁ ∧ exec .addSamples s =
      .next (s₁.consume (samplesOf s.sessionFmt ((List.range s.arg).map s.sinAt))).complete := by
  obtain ⟨hsession, hmost, hleast⟩ := h.checks
  have hnorm := normAll_eq s.sessionFmt (s.sinSlice s.arg)
  rw [State.sinSlice_eq, if_pos hnan, ← samplesOf] at hnorm
  obtain ⟨s₁, he, ready⟩ := State.ensureTables_of_available havail
  refine ⟨s₁, he, ready, ?_⟩
  show execAddSamples s = _
  rw [execAddSamples, if_neg hsession, if_neg hmost, if_neg hleast, if_neg (by simp [hneeds]),
    State.sinSlice_eq, hnorm, he]

/-- Where ADD_SAMPLES has completed, its checks are passed, and either the budget was reached or a
chunk is consumed. -/
theorem execAddSamples_completes {s t : State} (hexec : exec .addSamples s = .next t)
    (herr : t.err = .ok) : s.AdmitsChunk ∧
      (s.needsSamples = false ∧ t = s.complete ∨
        s.needsSamples = true ∧ ∃ (x : List F64) (s₁ : State), x.length = s.arg ∧
          TablesReady s 12 s₁ ∧ t = (s₁.consume x).complete) := by
  change execAddSamples s = _ at hexec
  unfold execAddSamples at hexec
  split at hexec
  · cases hexec; exact absurd herr nofun
  next hsession =>
  split at hexec
  · cases hexec; exact absurd herr nofun
  next hmost =>
  split at hexec
  · cases hexec; exact absurd herr nofun
  next hleast =>
  simp only [Bool.or_eq_true, Bool.not_eq_true', not_or, Bool.not_eq_false,
    Bool.not_eq_true] at hsession
  refine ⟨⟨hsession.1, hsession.2, Nat.not_lt.1 hleast, Nat.not_lt.1 hmost⟩, ?_⟩
  split at hexec
  next hbudget =>
    cases hexec
    exact .inl ⟨by simpa using hbudget, rfl⟩
  next hneeds =>
  cases hx : normAll s.sessionFmt (s.sinSlice s.arg) with
  | none => rw [hx] at hexec; cases hexec; exact absurd herr nofun
  | some x =>
    obtain ⟨s₁, he, ready⟩ | he := s.ensureTables_ready 12 <;> simp only [hx, he] at hexec <;>
      cases hexec
    · exact .inr ⟨by simpa using hneeds, x, s₁, by rw [normAll_length hx, State.sinSlice_length],
        ready, rfl⟩
    · exact absurd herr nofun

end Sys2Proof.Machine
end

section
/-! The frames of ADD_SAMPLES: the frame loop in closed form, and what it leaves of the stream. -/

namespace Sys2Proof.Machine

/-! ## The frames of a stream -/

/-- Frame `k` of a stream: 4096 samples from sample `1365 k` on (45_controller.md R250). -/
def frameAt (b : List F64) (k : Nat) : List F64 := (b.drop (1365 * k)).take 4096

/-- The first `n` frames of a stream. -/
def framesOf (b : List F64) (n : Nat) : List (List F64) := (List.range n).map (frameAt b)

/-- The frames processed one after another. -/
def State.processFrames (s : State) (frames : List (List F64)) : State :=
  frames.foldl State.processFrame s

theorem State.processFrames_cons (s : State) (f : List F64) (fs : List (List F64)) :
    s.processFrames (f :: fs) = (s.processFrame f).processFrames fs := rfl

theorem framesOf_cons (b : List F64) (n : Nat) :
    framesOf b (n + 1) = b.take 4096 :: framesOf (b.drop 1365) n := by
  have hnext (k : Nat) : frameAt b (k + 1) = frameAt (b.drop 1365) k := by
    simp [frameAt, Nat.mul_add, Nat.add_comm]
  rw [framesOf, List.range_succ_eq_map, List.map_cons, List.map_map]
  exact congrArg _ (List.map_congr_left fun k _ => hnext k)

theorem framesOf_concat (b : List F64) (n : Nat) :
    framesOf b (n + 1) = framesOf b n ++ [frameAt b n] := by
  simp [framesOf, List.range_succ]

/-- The last frame is processed in the state the others leave. -/
theorem State.processFrames_concat (s : State) (b : List F64) (n : Nat) :
    s.processFrames (framesOf b (n + 1)) =
      (s.processFrames (framesOf b n)).processFrame (frameAt b n) := by
  simp [State.processFrames, framesOf_concat]

/-- What every processed frame keeps, any number of them keeps. -/
theorem State.processFrames_keeps {P : State → Prop} (step : ∀ s f, P s → P (s.processFrame f))
    {s : State} (h : P s) (frames : List (List F64)) : P (s.processFrames frames) :=
  List.foldlRecOn frames State.processFrame h fun t ht f _ => step t f ht

/-! ## The number of frames -/

/-- The frames the loop processes of `blen` samples once `fp` samples are consumed: none where no
frame is whole or the budget is reached (45_controller.md R250, R253). -/
def frameCount (fp blen : Nat) : Nat :=
  if 4096 ≤ blen ∧ fp + 4095 < 1323000 then framesAdded fp blen else 0

theorem frameCount_of_chunk {fp blen : Nat} (hblen : 4096 ≤ blen) (hfp : fp + 4095 < 1323000) :
    frameCount fp blen = framesAdded fp blen := if_pos ⟨hblen, hfp⟩

theorem frameCount_succ {fp blen : Nat} (hblen : 4096 ≤ blen) (hfp : fp + 4095 < 1323000) :
    frameCount fp blen = frameCount (fp + 1365) (blen - 1365) + 1 := by
  rw [frameCount_of_chunk hblen hfp]
  unfold frameCount framesAdded
  split <;> omega

theorem framesAdded_pos (fp blen : Nat) : 0 < framesAdded fp blen := by
  unfold framesAdded
  omega

/-! ## The loop -/

/-- Below the budget a frame counts 1365 samples, and the counter does not wrap. -/
theorem State.processFrame_consumed {s : State} (hneeds : s.needsSamples = true) (f : List F64) :
    (s.processFrame f).framesProcessed.toNat = s.framesProcessed.toNat + 1365 := by
  rw [State.needsSamples_eq, decide_eq_true_eq] at hneeds
  rw [State.processFrame_framesProcessed, BitVec.toNat_add, BitVec.toNat_ofNat]
  simp only [overlap]
  omega

/-- With passes enough the loop processes its number of frames, and drops 1365 samples for each. -/
theorem frameLoop_eq (passes : Nat) (b : List F64) (s : State) (hpasses : b.length ≤ passes) :
    let n := frameCount s.framesProcessed.toNat b.length
    frameLoop passes b s = (b.drop (1365 * n), s.processFrames (framesOf b n)) ∧
      (s.processFrames (framesOf b n)).framesProcessed.toNat =
        s.framesProcessed.toNat + 1365 * n := by
  induction passes generalizing b s with
  | zero =>
    obtain rfl : b = [] := List.eq_nil_of_length_eq_zero (Nat.le_zero.1 hpasses)
    exact ⟨rfl, rfl⟩
  | succ passes ih =>
    intro n
    by_cases hframe : frameSize ≤ b.length ∧ s.needsSamples = true
    · obtain ⟨hblen, hneeds⟩ := hframe
      obtain ⟨hloop, hconsumed⟩ := ih (b.drop overlap) (s.processFrame (b.take frameSize)) (by
        simp only [List.length_drop, overlap, frameSize] at hblen ⊢
        omega)
      have hbudget : s.framesProcessed.toNat + 4095 < 1323000 := by
        simpa only [State.needsSamples_eq, decide_eq_true_eq] using hneeds
      have hn : n = frameCount (s.framesProcessed.toNat + 1365) (b.length - 1365) + 1 :=
        frameCount_succ hblen hbudget
      rw [State.processFrame_consumed hneeds, List.length_drop, overlap] at hloop hconsumed
      rw [frameLoop, if_pos ⟨hblen, hneeds⟩, overlap, hloop, hn, framesOf_cons, List.drop_drop,
        State.processFrames_cons, ← frameSize, hconsumed]
      exact ⟨by rw [Nat.mul_add, Nat.add_comm], by omega⟩
    · have hn : n = 0 := if_neg (by simpa [State.needsSamples_eq, frameSize] using hframe)
      rw [frameLoop, if_neg hframe, hn]
      exact ⟨rfl, rfl⟩

theorem frameLoop_passes {passes : Nat} {b : List F64} (s : State) (h : b.length ≤ passes) :
    frameLoop passes b s = frameLoop b.length b s :=
  (frameLoop_eq passes b s h).1.trans (frameLoop_eq b.length b s le_rfl).1.symm

/-! ## The carry-over -/

theorem State.carrySlice_eq (s : State) (n : Nat) :
    s.carrySlice n = (List.range n).map s.carryAt := by
  rw [List.range_eq_range']
  rfl

theorem State.carrySamples_length (s : State) : s.carrySamples.length = s.carryLen.toNat := by
  simp [State.carrySamples]

/-- What ADD_SAMPLES keeps of the stream: the samples left after the last frame, or none once the
budget is reached (45_controller.md R250, R253). -/
theorem State.keepRest_carrySamples {s : State} {rest : List F64}
    (hrest : rest.length < frameSize ∨ s.needsSamples = false) :
    (s.keepRest rest).carrySamples = if s.needsSamples then rest else [] := by
  unfold State.keepRest
  split
  next hneeds =>
    have hlen : (s.storeCarry rest).carryLen.toNat = rest.length := by
      have hshort := hrest.resolve_right (by simp [hneeds])
      rw [frameSize] at hshort
      rw [State.storeCarry_carryLen, BitVec.toNat_ofNat]
      omega
    rw [State.carrySamples, hlen, ← State.carrySlice_eq]
    exact Memory.slice_splice s.carry _ 0 rest
  · rfl

/-- Past the carry-over `CARRY` is as it was. -/
theorem State.keepRest_carryAt {s : State} {rest : List F64}
    (hrest : rest.length < frameSize ∨ s.needsSamples = false) {i : Nat}
    (hi : (s.keepRest rest).carryLen.toNat ≤ i) : (s.keepRest rest).carryAt i = s.carryAt i := by
  have hlen := congrArg List.length (State.keepRest_carrySamples hrest)
  rw [State.carrySamples_length] at hlen
  rw [hlen] at hi
  revert hi
  unfold State.keepRest
  split
  · exact fun hi => Memory.getD_read?_splice_outside s.carry _ hi
  · exact fun _ => rfl

/-- Nothing else is written with the carry-over. -/
theorem State.keepRest_frame (s : State) (rest : List F64) :
    s.keepRest rest = { s with
      carry := (s.keepRest rest).carry, carryLen := (s.keepRest rest).carryLen } := by
  unfold State.keepRest
  split <;> rfl

/-! ## A chunk -/

/-- Building the tables leaves the stream and the place in it alone. -/
theorem TablesReady.sameStream {s t : State} {k : Nat} (ready : TablesReady s k t) :
    t.framesProcessed = s.framesProcessed ∧ t.carryLen = s.carryLen ∧
      t.carrySamples = s.carrySamples := by
  cases ready <;> exact ⟨rfl, rfl, rfl⟩

theorem State.consume_eq_frameLoop (s : State) (x : List F64) :
    let b := s.carrySamples ++ x
    s.consume x = (frameLoop b.length b s).2.keepRest (frameLoop b.length b s).1 := by
  show (let b := s.carrySlice s.carryLen.toNat ++ x
    (frameLoop b.length b s).2.keepRest (frameLoop b.length b s).1) = _
  rw [State.carrySlice_eq]
  rfl

/-- A chunk after the loop: the frames of the stream, carry-over and new samples, are processed and
what is left of it is kept. -/
theorem State.consume_eq (s : State) (x : List F64) :
    let b := s.carrySamples ++ x
    let n := frameCount s.framesProcessed.toNat b.length
    s.consume x = (s.processFrames (framesOf b n)).keepRest (b.drop (1365 * n)) ∧
      ((b.drop (1365 * n)).length < frameSize ∨
        (s.processFrames (framesOf b n)).needsSamples = false) := by
  intro b n
  obtain ⟨hloop, -⟩ := frameLoop_eq b.length b s le_rfl
  have hdone := frameLoop_done b.length b s le_rfl
  rw [hloop] at hdone
  exact ⟨(s.consume_eq_frameLoop x).trans (by rw [hloop]), hdone⟩

end Sys2Proof.Machine
end

section
/-! O28: the session state moves only along the table, and makes its moves. -/

namespace Sys2Proof.Machine

/-! ## The session state -/

theorem State.sessionState_congr {s t : State} (hlive : t.live = s.live)
    (hfinal : t.finalized = s.finalized) (hfp : t.framesProcessed = s.framesProcessed) :
    t.sessionState = s.sessionState := by
  unfold State.sessionState State.canCalculate
  rw [hlive, hfinal, hfp]

theorem State.sessionState_eq_none_iff (s : State) : s.sessionState = .none ↔ s.live = false := by
  unfold State.sessionState
  cases s.live
  · simp
  · simp only [Bool.not_true, Bool.false_eq_true, if_false]
    split_ifs <;> simp

theorem State.consumed_of_empty {s : State} (h : s.sessionState = .empty) :
    s.framesProcessed.toNat = 0 := by
  unfold State.sessionState at h
  split_ifs at h with _ _ hzero
  rw [hzero]
  rfl

/-- In a session that takes samples the consumed samples tell the state (10_state.md R41). -/
theorem State.sessionState_of_consumed {s : State} (hlive : s.live = true)
    (hfinal : s.finalized = false) :
    s.sessionState = if s.framesProcessed.toNat = 0 then .empty
      else if 77175 ≤ s.framesProcessed.toNat then .ready else .accumulating := by
  have hzero : s.framesProcessed = 0#32 ↔ s.framesProcessed.toNat = 0 := BitVec.toNat_eq
  simp [State.sessionState, hlive, hfinal, hzero, State.canCalculate_eq]

/-! ## Commands that make no move -/

/-- What 45_controller.md R243 says of one run of a command. -/
def MovesAlongTable (i : Instr) (s t : State) : Prop :=
  (t.sessionState ≠ s.sessionState → (s.sessionState, i, t.sessionState) ∈ sessionMoves) ∧
  (t.err = .ok →
    (i = .sessionOpen → s.sessionState = .none ∧ t.sessionState = .empty) ∧
    (i = .sessionClose → s.sessionState ≠ .none ∧ t.sessionState = .none) ∧
    (i = .addSamples → s.sessionState = .empty → t.sessionState = .accumulating) ∧
    (i = .addSamples → s.sessionState = .accumulating → 77175 ≤ t.framesProcessed.toNat →
      t.sessionState = .ready) ∧
    (i = .addSamples → t.framesProcessed = s.framesProcessed → t.sessionState = s.sessionState) ∧
    (i = .calculateFingerprint → s.sessionState = .ready ∧ t.sessionState = .finalized))

/-- A failed command writes `ERR` only (O18), so it makes no move. -/
theorem movesAlongTable_of_failed {i : Instr} {s t : State} (hexec : exec i s = .next t)
    (herr : t.err ≠ .ok) : MovesAlongTable i s t := by
  obtain ⟨t', hexec', hkept⟩ := failedCommandLeavesNoTrace i s
  obtain rfl : t = t' := Host.Outcome.next.inj (hexec.symm.trans hexec')
  have hsame : t.sessionState = s.sessionState := by
    rw [hkept herr]
    rfl
  exact ⟨fun hmoved => absurd hsame hmoved, fun hok => absurd hok herr⟩

/-- The commands that are not in the table write none of the registers the state is computed from
(O22). -/
theorem movesAlongTable_of_other {i : Instr} {s t : State} (hexec : exec i s = .next t)
    (hi : i ∉ [Instr.sessionOpen, .sessionClose, .addSamples, .calculateFingerprint]) :
    MovesAlongTable i s t := by
  obtain ⟨t', hexec', -, -, -, -, -, -, -, hcounters, hlive, hfinal, -⟩ :=
    onlyTheNamedCommandsWrite i s
  obtain rfl : t = t' := Host.Outcome.next.inj (hexec.symm.trans hexec')
  simp only [List.mem_cons, List.not_mem_nil, or_false, not_or] at hi hcounters hlive hfinal
  obtain ⟨hopen, hclose, hadd, hcalculate⟩ := hi
  have hsame : t.sessionState = s.sessionState :=
    State.sessionState_congr (hlive ⟨hopen, hclose⟩) (hfinal ⟨hopen, hclose, hcalculate⟩).1
      (hcounters ⟨hopen, hclose, hadd⟩).1
  exact ⟨fun hmoved => absurd hsame hmoved, fun _ => ⟨fun h => absurd h hopen,
    fun h => absurd h hclose, fun h => absurd h hadd, fun h => absurd h hadd,
    fun h => absurd h hadd, fun h => absurd h hcalculate⟩⟩

/-! ## Opening and closing -/

theorem sessionOpen_moves {s t : State} (hexec : exec .sessionOpen s = .next t)
    (herr : t.err = .ok) : MovesAlongTable .sessionOpen s t := by
  cases hlive : s.live with
  | true =>
    cases (execSessionOpen_used hlive).symm.trans hexec
    exact absurd herr nofun
  | false =>
    cases (execSessionOpen_free hlive).symm.trans hexec
    have hnone := s.sessionState_eq_none_iff.2 hlive
    have hempty : s.openSession.complete.sessionState = .empty := rfl
    refine ⟨fun _ => ?_, fun _ => ⟨fun _ => ⟨hnone, hempty⟩, nofun, nofun, nofun, nofun, nofun⟩⟩
    rw [hnone, hempty]
    decide

theorem sessionClose_moves {s t : State} (hexec : exec .sessionClose s = .next t)
    (herr : t.err = .ok) : MovesAlongTable .sessionClose s t := by
  cases hlive : s.live with
  | false =>
    cases (execSessionClose_free hlive).symm.trans hexec
    exact absurd herr nofun
  | true =>
    cases (execSessionClose_used hlive).symm.trans hexec
    have hsome : s.sessionState ≠ .none := fun h =>
      absurd (hlive.symm.trans (s.sessionState_eq_none_iff.1 h)) nofun
    have hnone : s.closeSession.complete.sessionState = .none := rfl
    refine ⟨fun _ => ?_, fun _ => ⟨nofun, fun _ => ⟨hsome, hnone⟩, nofun, nofun, nofun, nofun⟩⟩
    rw [hnone]
    revert hsome
    cases s.sessionState <;> decide

/-! ## Adding samples -/

theorem State.consume_framesProcessed (s : State) (x : List F64) :
    (s.consume x).framesProcessed.toNat = s.framesProcessed.toNat +
      1365 * frameCount s.framesProcessed.toNat (s.carryLen.toNat + x.length) := by
  obtain ⟨hconsume, -⟩ := s.consume_eq x
  obtain ⟨-, hconsumed⟩ := frameLoop_eq _ (s.carrySamples ++ x) s le_rfl
  rw [List.length_append, State.carrySamples_length] at hconsume hconsumed
  rw [hconsume, State.keepRest_frame]
  exact hconsumed

/-- What a chunk holds, and not the budget, bounds its frames: 46 for the longest. -/
theorem framesAdded_le {fp blen : Nat} (h : blen ≤ 65536) : framesAdded fp blen ≤ 46 :=
  (Nat.min_le_left _ _).trans (by omega)

/-- The consumed samples only rise; from EMPTY, with its empty carry-over, one chunk processes a
frame at least and stays below the samples a fingerprint needs. -/
theorem addSamples_consumed {s t : State} (h : s.Inv) (hexec : exec .addSamples s = .next t)
    (herr : t.err = .ok) :
    t.live = true ∧ t.finalized = false ∧ s.live = true ∧ s.finalized = false ∧
      s.framesProcessed.toNat ≤ t.framesProcessed.toNat ∧
      (s.framesProcessed.toNat = 0 → 0 < t.framesProcessed.toNat ∧
        t.framesProcessed.toNat < 77175) := by
  obtain ⟨⟨hlive, hfinal, hleast, hmost⟩, ⟨hbudget, rfl⟩ | ⟨hneeds, x, s₁, hx, ready, rfl⟩⟩ :=
    execAddSamples_completes hexec herr
  · refine ⟨hlive, hfinal, hlive, hfinal, le_rfl, fun hzero => ?_⟩
    rw [State.needsSamples_eq, hzero] at hbudget
    exact absurd hbudget (by decide)
  · obtain ⟨n, -, ⟨hn, -⟩, -, -, -, hempty, -⟩ := (State.sessionWf_live_iff hlive).1 h.session
    have hkept := ready.stream_eq (s₁.consume_sameButStream x)
    have hconsumed : (s₁.consume x).framesProcessed.toNat = s.framesProcessed.toNat +
        1365 * frameCount s.framesProcessed.toNat (s.carryLen.toNat + x.length) := by
      obtain ⟨hfp, hlen, -⟩ := ready.sameStream
      rw [State.consume_framesProcessed, hfp, hlen]
    generalize s₁.consume x = u at hkept hconsumed ⊢
    refine ⟨(congrArg State.live hkept).trans hlive, (congrArg State.finalized hkept).trans hfinal,
      hlive, hfinal, ?_⟩
    rw [State.complete_framesProcessed, hconsumed]
    refine ⟨Nat.le_add_right _ _, fun hzero => ?_⟩
    have hcarry : s.carryLen.toNat = 0 := by rw [hempty (by omega)]; rfl
    rw [minChunk, frameSize, ← hx] at hleast
    rw [sinCap, ← hx] at hmost
    have hpos := framesAdded_pos 0 (0 + x.length)
    have hmax : framesAdded 0 (0 + x.length) ≤ 46 := framesAdded_le (by omega)
    rw [hzero, hcarry, frameCount_of_chunk (by omega) (by omega)]
    omega

theorem addSamples_moves {s t : State} (h : s.Inv) (hexec : exec .addSamples s = .next t)
    (herr : t.err = .ok) : MovesAlongTable .addSamples s t := by
  obtain ⟨hlive', hfinal', hlive, hfinal, hle, hempty⟩ := addSamples_consumed h hexec herr
  have hs := State.sessionState_of_consumed hlive hfinal
  have ht := State.sessionState_of_consumed hlive' hfinal'
  have hfirst (hzero : s.framesProcessed.toNat = 0) : t.sessionState = .accumulating := by
    obtain ⟨hpos, hlt⟩ := hempty hzero
    rw [ht, if_neg hpos.ne', if_neg (Nat.not_le.2 hlt)]
  have hreaches (hready : 77175 ≤ t.framesProcessed.toNat) : t.sessionState = .ready := by
    rw [ht, if_neg (by omega), if_pos hready]
  refine ⟨fun hmoved => ?_, fun _ => ⟨nofun, nofun,
    fun _ hstate => hfirst (State.consumed_of_empty hstate), fun _ _ hready => hreaches hready,
    fun _ hsame =>
      State.sessionState_congr (hlive'.trans hlive.symm) (hfinal'.trans hfinal.symm) hsame, nofun⟩⟩
  split_ifs at hs with hzero hready
  · rw [hs, hfirst hzero]
    decide
  · exact absurd ((hreaches (hready.trans hle)).trans hs.symm) hmoved
  · by_cases hready' : 77175 ≤ t.framesProcessed.toNat
    · rw [hs, hreaches hready']
      decide
    · rw [if_neg (by omega), if_neg hready', ← hs] at ht
      exact absurd ht hmoved

/-! ## Finalizing -/

theorem execCalculateFingerprint_completes {s t : State}
    (hexec : exec .calculateFingerprint s = .next t) (herr : t.err = .ok) :
    s.live = true ∧ s.finalized = false ∧ 17 ≤ s.row.toNat ∧
      t = (s.fingerprint (s.row.toNat - 15)).complete := by
  change execCalculateFingerprint s = _ at hexec
  unfold execCalculateFingerprint at hexec
  split at hexec
  · cases hexec; exact absurd herr nofun
  next hsession =>
  split at hexec
  · cases hexec; exact absurd herr nofun
  next hrows =>
  cases hexec
  simp only [Bool.or_eq_true, Bool.not_eq_true', not_or, Bool.not_eq_false,
    Bool.not_eq_true] at hsession
  exact ⟨hsession.1, hsession.2, Nat.not_lt.1 hrows, rfl⟩

/-- The 17 rows of a fingerprint are 85 frames, more than READY asks for (45_controller.md R242). -/
theorem calculateFingerprint_moves {s t : State} (h : s.Inv)
    (hexec : exec .calculateFingerprint s = .next t) (herr : t.err = .ok) :
    MovesAlongTable .calculateFingerprint s t := by
  obtain ⟨hlive, hfinal, hrows, rfl⟩ := execCalculateFingerprint_completes hexec herr
  obtain ⟨n, -, ⟨hn, hrow, -⟩⟩ := h.session.atFrame
  have hready : s.sessionState = .ready := by
    rw [State.sessionState_of_consumed hlive hfinal, if_neg (by omega), if_pos (by omega)]
  have hfinalized := State.sessionState_of_finalized
    (s := (s.fingerprint (s.row.toNat - 15)).complete) hlive rfl
  refine ⟨fun _ => ?_, fun _ => ⟨nofun, nofun, nofun, nofun, nofun, fun _ => ⟨hready, hfinalized⟩⟩⟩
  rw [hready, hfinalized]
  decide

/-- Settles O28: a failed command moves nothing, and of those that complete only the four of the
table write what the state is computed from. -/
theorem sessionStateMovesAlongTheTable : Obligations.SessionStateMovesAlongTheTable := by
  intro i s h
  obtain ⟨t, hexec, -⟩ := exec_effect i s
  refine ⟨t, hexec, ?_⟩
  show MovesAlongTable i s t
  by_cases herr : t.err = .ok
  · cases i with
    | sessionOpen => exact sessionOpen_moves hexec herr
    | sessionClose => exact sessionClose_moves hexec herr
    | addSamples => exact addSamples_moves h hexec herr
    | calculateFingerprint => exact calculateFingerprint_moves h hexec herr
    | _ => exact movesAlongTable_of_other hexec (by decide)
  · exact movesAlongTable_of_failed hexec herr

end Sys2Proof.Machine
end

section
/-! O40: what the frames of a chunk write, and what they leave alone. -/

namespace Sys2Proof.Machine

/-! ## Arrays after one frame -/

theorem State.touchAux_read?_other (s : State) {k j : Nat} (hj : j ≠ k) :
    (s.touchAux k).caches.read? j = s.caches.read? j := by
  rw [State.touchAux_caches]
  cases s.caches.read? k with
  | none => rfl
  | some c => rw [Memory.read?_splice_one, if_neg hj]

theorem State.processFrame_fbAt_outside (s : State) (f : List F64) {i : Nat} (hi : 4096 ≤ i) :
    (s.processFrame f).fbAt i = s.fbAt i := by
  rw [State.processFrame_fbAt]
  exact s.writeFb_fbAt_outside (by rwa [State.fft_length])

theorem State.processFrame_ringAt_outside (s : State) (f : List F64) {i : Nat} (hi : 96 ≤ i) :
    (s.processFrame f).ringAt i = s.ringAt i := by
  have hslot := s.noteIndex.isLt
  have hread := Memory.read?_splice_outside s.ring (notes * s.noteIndex.toNat)
    (noteEnergies (s.fft 12 (windowFn f)).toArray).toList i (.inr (by
      rw [Array.length_toList, noteEnergies_size, notes]
      omega))
  simp only [State.ringAt, State.unwritten, State.processFrame_ring, State.processFrame_resetCount,
    hread]

theorem State.processFrame_carryAt (s : State) (f : List F64) :
    (s.processFrame f).carryAt = s.carryAt := by
  funext i
  simp only [State.carryAt, State.unwritten, State.processFrame_carry,
    State.processFrame_resetCount]

theorem State.beforeGate_chromaAt (s : State) (f : List F64) :
    (s.beforeGate f).chromaAt = s.chromaAt := by
  funext i
  simp [State.chromaAt, State.unwritten, State.beforeGate]

theorem State.countFrame_chromaAt (s : State) : s.countFrame.chromaAt = s.chromaAt := by
  funext i
  simp only [State.chromaAt, State.unwritten, State.countFrame_chroma, State.countFrame_resetCount]

theorem State.setCoeff_chromaAt (s : State) (v : BitVec 3) :
    (s.setCoeff v).chromaAt = s.chromaAt := rfl

/-- A frame emits a row or none, and writes `CHROMA` in the row it emits only (42_chroma.md R157,
R161). -/
theorem State.processFrame_row_cases (s : State) (f : List F64) :
    ((s.processFrame f).row = s.row ∧ (s.processFrame f).chromaAt = s.chromaAt) ∨
    ((s.processFrame f).row = s.row + 1 ∧ ∀ i,
      i < 12 * s.row.toNat ∨ 12 * s.row.toNat + 12 ≤ i →
        (s.processFrame f).chromaAt i = s.chromaAt i) := by
  have hrow : (s.beforeGate f).row = s.row := by simp [State.beforeGate]
  rw [s.processFrame_eq_gateRow f, State.countFrame_row, State.countFrame_chromaAt,
    ← s.beforeGate_chromaAt f, ← hrow]
  generalize s.beforeGate f = u
  obtain ⟨-, he⟩ | ⟨-, he⟩ := u.gateRow_cases <;> rw [he]
  · rw [← u.setCoeff_chromaAt 0]
    exact .inr ⟨rfl, fun i hi => (u.setCoeff 0).emitRow_chromaAt_outside hi⟩
  · exact .inl ⟨rfl, rfl⟩

/-! ## Arrays after any number of frames -/

/-- What frames processed since the first state leave alone of its arrays and tables (42_chroma.md
R156, R161, 40_fft.md R103): each array outside the elements the frames write. -/
structure State.KeepsAround (s t : State) : Prop where
  fb : ∀ i, 4096 ≤ i → t.fbAt i = s.fbAt i
  ring : ∀ i, 96 ≤ i → t.ringAt i = s.ringAt i
  carry : t.carryAt = s.carryAt
  row : s.row.toNat ≤ t.row.toNat
  chroma : ∀ i, i < 12 * s.row.toNat ∨ 12 * t.row.toNat ≤ i → t.chromaAt i = s.chromaAt i
  caches : ∀ j, j ≠ 12 → t.caches.read? j = s.caches.read? j

theorem TablesReady.keepsAround {s t : State} (ready : TablesReady s 12 t) : s.KeepsAround t where
  fb _ _ := congrFun ready.fbAt _
  ring _ _ := by cases ready <;> rfl
  carry := by cases ready <;> rfl
  row := by cases ready <;> exact le_rfl
  chroma _ _ := by cases ready <;> rfl
  caches _ hj := ready.read?_other hj

theorem State.row_succ_toNat {s : State} (h : s.row.toNat ≤ rowsCap) :
    (s.row + 1).toNat = s.row.toNat + 1 := by
  have hcap : rowsCap = 193 := rfl
  rw [BitVec.toNat_add]
  exact Nat.mod_eq_of_lt (by simp; omega)

/-- Within the rows `CHROMA` holds, one more frame leaves the same alone. -/
theorem State.KeepsAround.processFrame {s t : State} (h : s.KeepsAround t)
    (hrow : t.row.toNat ≤ rowsCap) (f : List F64) : s.KeepsAround (t.processFrame f) where
  fb i hi := (t.processFrame_fbAt_outside f hi).trans (h.fb i hi)
  ring i hi := (t.processFrame_ringAt_outside f hi).trans (h.ring i hi)
  carry := (t.processFrame_carryAt f).trans h.carry
  row := by
    obtain ⟨he, -⟩ | ⟨he, -⟩ := t.processFrame_row_cases f <;> rw [he]
    · exact h.row
    · rw [State.row_succ_toNat hrow]
      exact h.row.trans (Nat.le_succ _)
  chroma i hi := by
    obtain ⟨he, hsame⟩ | ⟨he, hsame⟩ := t.processFrame_row_cases f <;> rw [he] at hi
    · rw [hsame, h.chroma i hi]
    · rw [State.row_succ_toNat hrow] at hi
      have hle := h.row
      rw [hsame i (by omega), h.chroma i (by omega)]
  caches j hj := by
    rw [State.processFrame_caches, State.touchAux_read?_other t hj, h.caches j hj]

/-- The frames of a chunk, from a state that satisfies the invariant: the position they end at, and
what they leave alone. -/
theorem frameLoop_keepsAround {s s₁ : State} (h : s₁.Streaming 0) (hkept : s.KeepsAround s₁)
    (passes : Nat) (b : List F64) :
    (frameLoop passes b s₁).2.Streaming 0 ∧ s.KeepsAround (frameLoop passes b s₁).2 :=
  frameLoop_keeps (P := fun t => t.Streaming 0 ∧ s.KeepsAround t)
    (fun t f hneeds _ ⟨ht, hk⟩ => by
      obtain ⟨n, -, hmax, hn⟩ := ht.position
      exact ⟨(ht.processFrame hneeds f).mono (Nat.zero_le _), hk.processFrame (hn.row_le hmax) f⟩)
    passes b s₁ ⟨h, hkept⟩

/-- The spectrum of the last frame stands in `FB` (45_controller.md R254, 40_fft.md R111). -/
theorem State.processFrames_fbAt {s : State} {c : SizeCache} (hc : s.caches.read? 12 = some c)
    (htab : IsTablesOf 12 c) (b : List F64) (n : Nat) {i : Nat} (hi : i < 4096) :
    some ((s.processFrames (framesOf b (n + 1))).fbAt i) =
      (fftWith (cosTable 12).toArray (sinTable 12).toArray 12
        (windowFn (frameAt b n)).toArray)[i]? := by
  have hkept : s.TablesKept (s.processFrames (framesOf b n)) :=
    State.processFrames_keeps (fun t f ht => ht.trans (t.processFrame_tablesKept f))
      (State.tablesKept_of_caches_eq rfl) _
  obtain ⟨c', hc', hcos, hsin, haux⟩ := hkept 12 c hc
  obtain ⟨h2, hcos', hsin', haux'⟩ := htab
  have htab' : IsTablesOf 12 c' := ⟨h2, hcos.trans hcos', hsin.trans hsin', haux.trans haux'⟩
  rw [State.processFrames_concat, State.processFrame_fbAt,
    State.writeFb_fbAt_inside _ (by rwa [State.fft_length]), State.fft_eq hc' htab',
    Array.getElem?_toList]

/-! ## A chunk of samples -/

/-- Once its checks are passed, a chunk processes the frames of 45_controller.md R255 on the state
whose tables are ready, and keeps the rest of the stream. -/
theorem State.Inv.consume_frames {s s₁ : State} (h : s.Inv) (ready : TablesReady s 12 s₁)
    (hneeds : s.needsSamples = true) {x : List F64} (hx : minChunk ≤ x.length) :
    let b := s.carrySamples ++ x
    let n := framesAdded s.framesProcessed.toNat (s.carryLen.toNat + x.length)
    let u := s₁.processFrames (framesOf b n)
    s₁.consume x = u.keepRest (b.drop (1365 * n)) ∧
      ((b.drop (1365 * n)).length < frameSize ∨ u.needsSamples = false) ∧
      u.framesProcessed.toNat = s.framesProcessed.toNat + 1365 * n ∧
      u.Streaming 0 ∧ s.KeepsAround u := by
  intro b n u
  obtain ⟨hfp, hlen, hsamples⟩ := ready.sameStream
  have hb : b.length = s.carryLen.toNat + x.length := by
    rw [List.length_append, State.carrySamples_length]
  have hcount : frameCount s₁.framesProcessed.toNat b.length = n := by
    rw [State.needsSamples_eq, decide_eq_true_eq] at hneeds
    rw [minChunk, frameSize] at hx
    rw [hfp, hb]
    exact frameCount_of_chunk (by omega) hneeds
  obtain ⟨hconsume, hrest⟩ := s₁.consume_eq x
  obtain ⟨hloop, hconsumed⟩ := frameLoop_eq b.length b s₁ le_rfl
  have hkeeps := frameLoop_keepsAround (ready.inv h (by decide)).streaming ready.keepsAround
    b.length b
  rw [hsamples, hcount] at hconsume hrest
  rw [hcount] at hloop hconsumed
  rw [hloop] at hkeeps
  rw [hfp] at hconsumed
  exact ⟨hconsume, hrest, hconsumed, hkeeps⟩

/-- The counters after frames that have consumed 1365 samples each (10_state.md R50). -/
theorem State.Inv.counters_after {s u : State} (h : s.Inv) (hu : u.Streaming 0) {n : Nat}
    (hconsumed : u.framesProcessed.toNat = s.framesProcessed.toNat + 1365 * n) :
    u.row.toNat = s.row.toNat + (s.coeff.toNat + n) / 5 ∧
      u.coeff.toNat = (s.coeff.toNat + n) % 5 ∧
      u.noteIndex.toNat = (s.noteIndex.toNat + n) % 8 := by
  obtain ⟨m, -, hfp, hrow, hcoeff, hnote⟩ := h.session.atFrame
  obtain ⟨m', -, -, hfp', hrow', hcoeff', hnote'⟩ := hu.position
  omega

theorem State.SameButStream.tableValid {s t : State} (h : s.SameButStream t) :
    t.tableValid = s.tableValid := by
  unfold State.SameButStream at h
  exact (congrArg State.tableValid h :)

/-- Beyond the stream and the tables, a completed ADD_SAMPLES writes `ERR`. -/
theorem TablesReady.complete_stream_eq {s s₁ t : State} {k : Nat} (ready : TablesReady s k s₁)
    (same : s₁.SameButStream t) :
    t.complete = { s with
      err := .ok, framesProcessed := t.framesProcessed, row := t.row, coeff := t.coeff
      noteIndex := t.noteIndex, carryLen := t.carryLen, tableValid := t.tableValid, fb := t.fb
      carry := t.carry, ring := t.ring, chroma := t.chroma, caches := t.caches
      allocDraws := t.allocDraws, drawCount := t.drawCount } :=
  congrArg State.complete (ready.stream_eq same)

/-- Settles O40: the counters by the session's position after the frames, the arrays by what each
frame leaves alone, and the spectrum by the last frame. -/
theorem addSamplesProcessesFrames : Obligations.AddSamplesProcessesFrames := by
  intro s h hlive hfinal hleast hmost hbudget hnan havail
  have hneeds : s.needsSamples = true := by
    rw [State.needsSamples_eq]
    exact decide_eq_true hbudget
  obtain ⟨s₁, he, ready, hexec⟩ :=
    execAddSamples_consumes ⟨hlive, hfinal, hleast, hmost⟩ hneeds hnan havail
  have hx : (samplesOf s.sessionFmt ((List.range s.arg).map s.sinAt)).length = s.arg0.toNat :=
    (filterMap_norm_length _ _ hnan).trans (by simp)
  obtain ⟨hconsume, hrest, hconsumed, hstreaming, hkeeps⟩ :=
    h.consume_frames ready hneeds (hleast.trans_eq hx.symm)
  have same := s₁.consume_sameButStream (samplesOf s.sessionFmt ((List.range s.arg).map s.sinAt))
  have hpos := framesAdded_pos s.framesProcessed.toNat (s.carryLen.toNat + s.arg0.toNat)
  rw [hconsume] at same hexec
  rw [hx] at hexec same hrest hconsumed hstreaming hkeeps
  generalize framesAdded s.framesProcessed.toNat (s.carryLen.toNat + s.arg0.toNat) = n at *
  obtain ⟨k, rfl⟩ : ∃ k, n = k + 1 := Nat.exists_eq_succ_of_ne_zero hpos.ne'
  intro n stream frame u
  have hstream : s.carrySamples ++ samplesOf s.sessionFmt ((List.range s.arg).map s.sinAt) =
    stream := rfl
  have hu : s₁.processFrames (framesOf stream (k + 1)) = u := by
    show _ = (framesOf stream (k + 1)).foldl _ (s.ensureTables 12).2
    rw [he]
    rfl
  obtain ⟨c, hc, htab⟩ := ready.entry h (by decide)
  have hspectrum (i : Nat) (hi : i < 4096) := State.processFrames_fbAt hc htab stream k hi
  rw [hstream, hu] at hexec same hrest hconsumed hstreaming hkeeps
  rw [hu] at hspectrum
  clear_value u
  have hsamples := State.keepRest_carrySamples hrest
  have hcarryAt (i : Nat) := State.keepRest_carryAt hrest (i := i)
  have hframe := ready.complete_stream_eq same
  have hvalid := same.tableValid
  obtain ⟨hrow, hcoeff, hnote⟩ := h.counters_after hstreaming hconsumed
  have hkeep := u.keepRest_frame (stream.drop (1365 * (k + 1)))
  generalize u.keepRest (stream.drop (1365 * (k + 1))) = v at *
  have field {α : Type} (f : State → α) := congrArg f hkeep
  have hfp : v.framesProcessed = u.framesProcessed := field State.framesProcessed
  have hrow' : v.row = u.row := field State.row
  refine ⟨v.complete, hexec, hframe, hpos, field State.ring, field State.chroma, field State.fb,
    ?_, ?_, ?_, ?_, ?_, ?_, ?_, ?_, ?_, ?_, ?_, ?_⟩
  · exact (congrArg BitVec.toNat hfp).trans hconsumed
  · exact (congrArg BitVec.toNat hrow').trans hrow
  · exact (congrArg BitVec.toNat (field State.coeff)).trans hcoeff
  · exact (congrArg BitVec.toNat (field State.noteIndex)).trans hnote
  · refine hsamples.trans ?_
    rw [State.complete_framesProcessed, hfp, State.needsSamples_eq]
    simp only [decide_eq_true_eq]
    rfl
  · exact fun i hi => (congrArg some (congrFun (field State.fbAt) i)).trans (hspectrum i hi)
  · exact fun i hi => (congrFun (field State.fbAt) i).trans (hkeeps.fb i hi)
  · exact fun i hi => (hcarryAt i hi).trans (congrFun hkeeps.carry i)
  · exact fun i hi => (congrFun (field State.ringAt) i).trans (hkeeps.ring i hi)
  · exact fun i hi => (congrFun (field State.chromaAt) i).trans (hkeeps.chroma i (hrow' ▸ hi))
  · exact fun j hj => (congrArg (·.getLsbD j) hvalid).trans (ready.getLsbD hj)
  · exact fun j hj => (congrArg (·.read? j) (field State.caches)).trans (hkeeps.caches j hj)

end Sys2Proof.Machine
end

section
/-! O42: the session depends on the stream, not on how it is cut into chunks. -/

namespace Sys2Proof.Machine

/-! ## The session apart from how its samples came in -/

/-- The state without what holds the samples of a chunk: what the host wrote, `ERR`, and the
carry-over. -/
def State.core (s : State) : State :=
  { s with err := .ok, arg0 := 0, carryLen := 0, sin := [], carry := [] }

/-- The two states are one session: they differ at most in what the host wrote, `ERR`, and `CARRY`
past the carry-over. -/
def State.SameSession (s t : State) : Prop :=
  s.core = t.core ∧ s.carrySamples = t.carrySamples

theorem State.SameSession.symm {s t : State} (h : s.SameSession t) : t.SameSession s :=
  ⟨h.1.symm, h.2.symm⟩

theorem State.SameSession.trans {s t u : State} (h : s.SameSession t) (h' : t.SameSession u) :
    s.SameSession u := ⟨h.1.trans h'.1, h.2.trans h'.2⟩

theorem State.complete_sameSession (s : State) : s.complete.SameSession s := ⟨rfl, rfl⟩

theorem State.placeChunk_sameSession (s : State) (ws : List Word) :
    (s.placeChunk ws).SameSession s := ⟨rfl, rfl⟩

/-! ## Frames act on the core -/

theorem State.gateRow_core (s : State) : s.gateRow.core = s.core.gateRow := by
  obtain ⟨hcount, he⟩ | ⟨hcount, he⟩ := s.gateRow_cases <;> rw [he]
  · exact (if_pos hcount).symm
  · exact (if_neg hcount).symm

theorem State.chromaStep_core (s : State) (y : List F64) :
    (s.chromaStep y).core = s.core.chromaStep y :=
  State.gateRow_core (s.writeRingSlot s.noteIndex.toNat (noteEnergies y.toArray).toList).advanceNote

theorem State.touchAux_core (s : State) (k : Nat) : (s.touchAux k).core = s.core.touchAux k := by
  unfold State.touchAux
  rw [show s.core.caches = s.caches from rfl]
  cases s.caches.read? k <;> rfl

theorem State.processFrame_core (s : State) (f : List F64) :
    (s.processFrame f).core = s.core.processFrame f := by
  show (State.chromaStep _ _).core.countFrame = _
  rw [State.chromaStep_core, State.touchAux_core]
  rfl

theorem State.core_needsSamples (s : State) : s.core.needsSamples = s.needsSamples := rfl

theorem frameLoop_core (passes : Nat) (b : List F64) (s : State) :
    frameLoop passes b s.core = ((frameLoop passes b s).1, (frameLoop passes b s).2.core) := by
  induction passes generalizing b s with
  | zero => rfl
  | succ passes ih =>
    by_cases hframe : frameSize ≤ b.length ∧ s.needsSamples = true
    · rw [frameLoop, frameLoop, if_pos hframe, ← State.processFrame_core, ← ih]
      exact if_pos hframe
    · rw [frameLoop, frameLoop, if_neg hframe]
      exact if_neg hframe

theorem State.ensureTables_core (s : State) (k : Nat) :
    (s.ensureTables k).2.core = (s.core.ensureTables k).2 := by
  have hcore : s.core.tableValid = s.tableValid ∧ s.core.nextDraw = s.nextDraw := ⟨rfl, rfl⟩
  unfold State.ensureTables
  rw [hcore.1, hcore.2]
  split
  · rfl
  · split <;> rfl

/-! ## A chunk after a chunk -/

theorem frameLoop_budget (passes : Nat) (b : List F64) {s : State}
    (hbudget : s.needsSamples = false) : frameLoop passes b s = (b, s) := by
  cases passes with
  | zero => rfl
  | succ passes => exact if_neg (by simp [hbudget])

/-- Frames that were whole in the first part of a stream are processed alike when more samples
follow. -/
theorem frameLoop_append {passes : Nat} {b : List F64} (s : State) (hpasses : b.length ≤ passes)
    (y : List F64) :
    let r := frameLoop passes b s
    frameLoop (b ++ y).length (b ++ y) s = frameLoop (r.1 ++ y).length (r.1 ++ y) r.2 := by
  induction passes generalizing b s with
  | zero => rfl
  | succ passes ih =>
    intro r
    by_cases hframe : frameSize ≤ b.length ∧ s.needsSamples = true
    · obtain ⟨hblen, hneeds⟩ := hframe
      have hlong : overlap ≤ b.length := le_trans (by decide) hblen
      have hfirst : frameLoop (b ++ y).length (b ++ y) s =
          frameLoop (b.drop overlap ++ y).length (b.drop overlap ++ y)
            (s.processFrame (b.take frameSize)) := by
        rw [← frameLoop_passes s (Nat.le_succ (b ++ y).length), frameLoop,
          if_pos ⟨by rw [List.length_append]; omega, hneeds⟩, List.drop_append_of_le_length hlong,
          List.take_append_of_le_length hblen]
        exact frameLoop_passes _ (by simp)
      have hrest : r = frameLoop passes (b.drop overlap) (s.processFrame (b.take frameSize)) :=
        if_pos ⟨hblen, hneeds⟩
      rw [hfirst, hrest]
      refine ih _ ?_
      rw [List.length_drop]
      simp only [overlap] at hlong ⊢
      omega
    · rw [show r = (b, s) from if_neg hframe]

theorem State.keepRest_core (s : State) (rest : List F64) : (s.keepRest rest).core = s.core := by
  unfold State.keepRest
  split <;> rfl

/-- What a chunk leaves of the session is determined by the core and the stream. -/
theorem State.consume_core (s : State) (x : List F64) :
    let b := s.carrySamples ++ x
    let r := frameLoop b.length b s.core
    (s.consume x).core = r.2 ∧
      (s.consume x).carrySamples = if r.2.needsSamples then r.1 else [] := by
  intro b r
  have hr : r = ((frameLoop b.length b s).1, (frameLoop b.length b s).2.core) :=
    frameLoop_core b.length b s
  rw [hr, s.consume_eq_frameLoop x]
  exact ⟨State.keepRest_core _ _, State.keepRest_carrySamples (frameLoop_done _ _ _ le_rfl)⟩

theorem State.SameSession.consume {s t : State} (h : s.SameSession t) (x : List F64) :
    (s.consume x).SameSession (t.consume x) := by
  obtain ⟨hcore, hsamples⟩ := h
  obtain ⟨hs, hs'⟩ := s.consume_core x
  obtain ⟨ht, ht'⟩ := t.consume_core x
  rw [hcore, hsamples] at hs hs'
  exact ⟨hs.trans ht.symm, hs'.trans ht'.symm⟩

/-- While samples are needed, a second chunk goes on where the first has stopped. -/
theorem State.consume_consume {s : State} {x : List F64} (y : List F64)
    (hneeds : (s.consume x).needsSamples = true) :
    ((s.consume x).consume y).SameSession (s.consume (x ++ y)) := by
  obtain ⟨hfirst, hkept⟩ := s.consume_core x
  obtain ⟨hcut, hcut'⟩ := (s.consume x).consume_core y
  obtain ⟨hwhole, hwhole'⟩ := s.consume_core (x ++ y)
  have happend := frameLoop_append s.core (b := s.carrySamples ++ x) le_rfl y
  dsimp only at happend
  rw [← hfirst] at hkept happend
  rw [if_pos ((State.core_needsSamples _).trans hneeds)] at hkept
  rw [← List.append_assoc, happend, ← hkept] at hwhole hwhole'
  exact ⟨hcut.trans hwhole.symm, hcut'.trans hwhole'.symm⟩

/-- Once the budget is reached more samples would have made no difference. -/
theorem State.consume_append_of_budget {s : State} {x : List F64} (y : List F64)
    (hbudget : (s.consume x).needsSamples = false) :
    (s.consume x).SameSession (s.consume (x ++ y)) := by
  obtain ⟨hfirst, hkept⟩ := s.consume_core x
  obtain ⟨hwhole, hwhole'⟩ := s.consume_core (x ++ y)
  have happend := frameLoop_append s.core (b := s.carrySamples ++ x) le_rfl y
  dsimp only at happend
  rw [← hfirst] at hkept happend
  have hcore : (s.consume x).core.needsSamples = false :=
    (State.core_needsSamples _).trans hbudget
  have hbudget' : ¬ (s.consume x).core.needsSamples = true := by simp [hcore]
  rw [if_neg hbudget'] at hkept
  rw [frameLoop_budget _ _ hcore] at happend
  rw [← List.append_assoc, happend] at hwhole hwhole'
  exact ⟨hwhole.symm, hkept.trans (hwhole'.trans (if_neg hbudget')).symm⟩

/-! ## Samples a session takes -/

/-- The effect on the session of samples that pass the checks: none once the budget is reached
(45_controller.md R253). -/
def State.absorb (s : State) (x : List F64) : State :=
  if s.needsSamples then (s.ensureTables 12).2.consume x else s

theorem State.absorb_of_budget {s : State} (hbudget : s.needsSamples = false) (x : List F64) :
    s.absorb x = s := if_neg (by simp [hbudget])

theorem State.absorb_of_needs {s s₁ : State} (hneeds : s.needsSamples = true)
    (he : s.ensureTables 12 = (true, s₁)) (x : List F64) : s.absorb x = s₁.consume x := by
  rw [State.absorb, if_pos hneeds, he]

theorem State.SameSession.needsSamples_eq {s t : State} (h : s.SameSession t) :
    s.needsSamples = t.needsSamples := by
  rw [← s.core_needsSamples, h.1, t.core_needsSamples]

theorem State.ensureTables_carrySamples (s : State) (k : Nat) :
    (s.ensureTables k).2.carrySamples = s.carrySamples := by
  obtain ⟨-, he⟩ | ⟨-, -, he⟩ | ⟨-, -, he⟩ := s.ensureTables_cases k <;> rw [he] <;> rfl

theorem State.SameSession.absorb {s t : State} (h : s.SameSession t) (x : List F64) :
    (s.absorb x).SameSession (t.absorb x) := by
  unfold State.absorb
  rw [h.needsSamples_eq]
  split
  · refine State.SameSession.consume ⟨?_, ?_⟩ x
    · rw [State.ensureTables_core, State.ensureTables_core, h.1]
    · rw [State.ensureTables_carrySamples, State.ensureTables_carrySamples, h.2]
  · exact h

/-- Once samples have been taken the tables stand. -/
theorem TablesReady.consume_valid {s s₁ : State} (ready : TablesReady s 12 s₁) (x : List F64) :
    (s₁.consume x).tableValid.getLsbD 12 = true := by
  rw [(s₁.consume_sameButStream x).tableValid, ready.getLsbD (by decide)]
  simp

/-- Two runs of samples taken one after the other are taken like one. -/
theorem State.absorb_absorb {s : State} (havail : s.tablesAvailable 12 = true) (x y : List F64) :
    ((s.absorb x).absorb y).SameSession (s.absorb (x ++ y)) := by
  cases hneeds : s.needsSamples with
  | false =>
    simp only [State.absorb_of_budget hneeds]
    exact ⟨rfl, rfl⟩
  | true =>
    obtain ⟨s₁, he, ready⟩ := State.ensureTables_of_available havail
    simp only [State.absorb_of_needs hneeds he]
    cases hneeds' : (s₁.consume x).needsSamples with
    | false =>
      rw [State.absorb_of_budget hneeds']
      exact State.consume_append_of_budget y hneeds'
    | true =>
      rw [State.absorb_of_needs hneeds' (if_pos (ready.consume_valid x))]
      exact State.consume_consume y hneeds'

/-! ## A session that takes samples -/

/-- A session that takes samples in a format, its tables built or to be built. -/
structure State.Accepts (s : State) (fmt : SampleFormat) : Prop where
  live : s.live = true
  unfinished : s.finalized = false
  format : s.sessionFmt = fmt
  tables : s.tablesAvailable 12 = true

theorem State.Accepts.congr {s t : State} {fmt : SampleFormat} (h : s.Accepts fmt)
    (same : t.SameSession s) : t.Accepts fmt where
  live := (congrArg State.live same.1).trans h.live
  unfinished := (congrArg State.finalized same.1).trans h.unfinished
  format := (congrArg State.sessionFmt same.1).trans h.format
  tables := (congrArg (State.tablesAvailable · 12) same.1).trans h.tables

theorem State.Accepts.absorb {s : State} {fmt : SampleFormat} (h : s.Accepts fmt) (x : List F64) :
    (s.absorb x).Accepts fmt := by
  cases hneeds : s.needsSamples with
  | false => rwa [State.absorb_of_budget hneeds]
  | true =>
    obtain ⟨s₁, he, ready⟩ := State.ensureTables_of_available h.tables
    have hkept := ready.stream_eq (s₁.consume_sameButStream x)
    have hvalid := ready.consume_valid x
    rw [State.absorb_of_needs hneeds he]
    generalize s₁.consume x = u at hkept hvalid ⊢
    exact ⟨(congrArg State.live hkept).trans h.live,
      (congrArg State.finalized hkept).trans h.unfinished,
      (congrArg State.sessionFmt hkept).trans h.format, by rw [State.tablesAvailable, hvalid]; rfl⟩

/-! ## A chunk from the host -/

/-- A chunk the host may hand over in the format. -/
structure ChunkOk (fmt : SampleFormat) (ws : List Word) : Prop where
  least : 8192 ≤ ws.length
  most : ws.length ≤ 65536
  noNaN : noNaN fmt ws = true

theorem State.placeChunk_arg (s : State) {ws : List Word} (h : ws.length ≤ 65536) :
    (s.placeChunk ws).arg = ws.length :=
  (BitVec.toNat_ofNat _ _).trans (Nat.mod_eq_of_lt (by omega))

/-- ADD_SAMPLES reads back the chunk the host has placed. -/
theorem State.map_sinAt_placeChunk (s : State) (ws : List Word) :
    (List.range ws.length).map (s.placeChunk ws).sinAt = ws := by
  rw [← State.sinSlice_eq]
  exact Memory.slice_splice ..

theorem execAddSamples_absorbs {s : State} {fmt : SampleFormat} (h : s.Accepts fmt)
    {ws : List Word} (hws : ChunkOk fmt ws) :
    ∃ t, exec .addSamples (s.placeChunk ws) = .next t ∧ t.err = .ok ∧
      t.SameSession (s.absorb (samplesOf fmt ws)) := by
  have hplaced := s.placeChunk_sameSession ws
  obtain ⟨hlive, hfinal, hfmt, havail⟩ := h.congr hplaced
  have harg := s.placeChunk_arg hws.most
  have hread := s.map_sinAt_placeChunk ws
  have hadmits : (s.placeChunk ws).AdmitsChunk :=
    ⟨hlive, hfinal, hws.least.trans_eq harg.symm, harg.trans_le hws.most⟩
  have hsame := hplaced.absorb (samplesOf fmt ws)
  rw [← harg] at hread
  cases hneeds : (s.placeChunk ws).needsSamples with
  | false =>
    rw [State.absorb_of_budget hneeds] at hsame
    exact ⟨_, execAddSamples_budget hadmits hneeds, rfl,
      (State.complete_sameSession _).trans hsame⟩
  | true =>
    obtain ⟨s₁, he, -, hexec⟩ := execAddSamples_consumes hadmits hneeds
      (by rw [hread, hfmt]; exact hws.noNaN) havail
    rw [State.absorb_of_needs hneeds he] at hsame
    rw [hread, hfmt] at hexec
    exact ⟨_, hexec, rfl, (State.complete_sameSession _).trans hsame⟩

/-! ## Any splitting -/

theorem feed_cons {s t : State} {ws : List Word} (rest : List (List Word))
    (hexec : exec .addSamples (s.placeChunk ws) = .next t) (herr : t.err = .ok) :
    feed s (ws :: rest) = feed t rest := by
  simp only [feed, hexec, herr, if_true]

theorem samplesOf_append (fmt : SampleFormat) (ws ws' : List Word) :
    samplesOf fmt (ws ++ ws') = samplesOf fmt ws ++ samplesOf fmt ws' :=
  List.filterMap_append

/-- Chunks fed to a session that has taken the samples `x` leave the session that has taken `x` and
theirs at once. -/
theorem feed_absorbs {s₀ : State} {fmt : SampleFormat} (h : s₀.Accepts fmt)
    (chunks : List (List Word)) (hchunks : ∀ ws ∈ chunks, ChunkOk fmt ws) {s : State}
    {x : List F64} (hs : s.SameSession (s₀.absorb x)) :
    ∃ t, feed s chunks = some t ∧
      t.SameSession (s₀.absorb (x ++ samplesOf fmt chunks.flatten)) := by
  induction chunks generalizing s x with
  | nil => exact ⟨s, rfl, by simpa [samplesOf] using hs⟩
  | cons ws rest ih =>
    obtain ⟨t, hexec, herr, ht⟩ :=
      execAddSamples_absorbs ((h.absorb x).congr hs) (hchunks ws List.mem_cons_self)
    rw [feed_cons rest hexec herr, List.flatten_cons, samplesOf_append, ← List.append_assoc]
    exact ih (fun ws' h' => hchunks ws' (List.mem_cons_of_mem _ h'))
      (ht.trans ((hs.absorb _).trans (State.absorb_absorb h.tables _ _)))

theorem feed_nonempty {s : State} {fmt : SampleFormat} (h : s.Accepts fmt)
    {chunks : List (List Word)} (hne : chunks ≠ []) (hchunks : ∀ ws ∈ chunks, ChunkOk fmt ws) :
    ∃ t, feed s chunks = some t ∧ t.SameSession (s.absorb (samplesOf fmt chunks.flatten)) := by
  obtain ⟨ws, rest, rfl⟩ := List.exists_cons_of_ne_nil hne
  obtain ⟨t, hexec, herr, ht⟩ := execAddSamples_absorbs h (hchunks ws List.mem_cons_self)
  rw [feed_cons rest hexec herr, List.flatten_cons, samplesOf_append]
  exact feed_absorbs h rest (fun ws' h' => hchunks ws' (List.mem_cons_of_mem _ h')) ht

theorem eq_nil_of_flatten_eq_nil {fmt : SampleFormat} {chunks : List (List Word)}
    (hchunks : ∀ ws ∈ chunks, ChunkOk fmt ws) (hnil : chunks.flatten = []) : chunks = [] := by
  refine List.eq_nil_iff_forall_not_mem.2 fun ws hws => ?_
  have hleast := (hchunks ws hws).least
  rw [List.flatten_eq_nil_iff.1 hnil ws hws] at hleast
  exact absurd hleast (by decide)

/-- Two splittings of one stream leave one session. -/
theorem feed_sameSession {s : State} {fmt : SampleFormat} (h : s.Accepts fmt)
    {a b : List (List Word)} (ha : ∀ ws ∈ a, ChunkOk fmt ws) (hb : ∀ ws ∈ b, ChunkOk fmt ws)
    (hflat : a.flatten = b.flatten) :
    ∃ ta tb, feed s a = some ta ∧ feed s b = some tb ∧ ta.SameSession tb := by
  by_cases hne : a = []
  · obtain rfl : b = [] := eq_nil_of_flatten_eq_nil hb (by rw [← hflat, hne]; rfl)
    exact ⟨s, s, by rw [hne]; rfl, rfl, rfl, rfl⟩
  · have hne' : b ≠ [] := fun hnil => hne (eq_nil_of_flatten_eq_nil ha (by rw [hflat, hnil]; rfl))
    obtain ⟨ta, hta, hsa⟩ := feed_nonempty h hne ha
    obtain ⟨tb, htb, hsb⟩ := feed_nonempty h hne' hb
    exact ⟨ta, tb, hta, htb, hsa.trans (hflat ▸ hsb.symm)⟩

/-! ## The fingerprint -/

/-- The fingerprint is made from the core: on it the command ends alike and leaves the same core. -/
theorem execCalculateFingerprint_core (s : State) :
    ∃ u, exec .calculateFingerprint s = .next u ∧
      exec .calculateFingerprint s.core = .next { u.core with err := u.err } := by
  show ∃ u, execCalculateFingerprint s = _ ∧ execCalculateFingerprint s.core = _
  unfold execCalculateFingerprint
  by_cases hsession : (!s.live || s.finalized) = true
  · exact ⟨_, if_pos hsession, if_pos hsession⟩
  by_cases hrows : s.row.toNat < maxWidth - 1 + 2
  · exact ⟨_, (if_neg hsession).trans (if_pos hrows), (if_neg hsession).trans (if_pos hrows)⟩
  · exact ⟨_, (if_neg hsession).trans (if_neg hrows), (if_neg hsession).trans (if_neg hrows)⟩

theorem State.SameSession.fingerprint {s t : State} (h : s.SameSession t) :
    ∃ u v, exec .calculateFingerprint s = .next u ∧ exec .calculateFingerprint t = .next v ∧
      u.err = v.err ∧ u.outText = v.outText := by
  obtain ⟨u, hu, hu'⟩ := execCalculateFingerprint_core s
  obtain ⟨v, hv, hv'⟩ := execCalculateFingerprint_core t
  have hcore := Host.Outcome.next.inj (hu'.symm.trans ((congrArg _ h.1).trans hv'))
  exact ⟨u, v, hu, hv, (congrArg State.err hcore :), (congrArg State.outText hcore :)⟩

/-- A state is its core and what holds the samples of a chunk. -/
theorem State.SameSession.eq_up_to_chunk {s t : State} (h : s.SameSession t) :
    { s with sin := t.sin, arg0 := t.arg0, carry := t.carry, err := t.err } = t := by
  have hlen : s.carryLen = t.carryLen := BitVec.eq_of_toNat_eq (by
    rw [← s.carrySamples_length, h.2, t.carrySamples_length])
  calc { s with sin := t.sin, arg0 := t.arg0, carry := t.carry, err := t.err }
      = { s.core with
          sin := t.sin, arg0 := t.arg0, carry := t.carry, err := t.err
          carryLen := s.carryLen } := rfl
    _ = { t.core with
          sin := t.sin, arg0 := t.arg0, carry := t.carry, err := t.err
          carryLen := t.carryLen } := by rw [h.1, hlen]
    _ = t := rfl

/-- Settles O42: a chunk acts on the session as its samples do, and frames that follow one another
are the same however the stream is cut. -/
theorem streamingEquivalence : Obligations.StreamingEquivalence := by
  intro s a b hlive hfinal havail hlengths hnan hflat
  have hok (chunks : List (List Word)) (hsub : ∀ ws ∈ chunks, ws ∈ a ++ b)
      (hnan : noNaN s.sessionFmt chunks.flatten = true) :
      ∀ ws ∈ chunks, ChunkOk s.sessionFmt ws := fun ws hws =>
    ⟨(hlengths ws (hsub ws hws)).1, (hlengths ws (hsub ws hws)).2, List.all_eq_true.2 fun w hw =>
      List.all_eq_true.1 hnan w (List.mem_flatten.2 ⟨ws, hws, hw⟩)⟩
  obtain ⟨ta, tb, hta, htb, same⟩ := feed_sameSession ⟨hlive, hfinal, rfl, havail⟩
    (hok a (fun _ => List.mem_append_left b) hnan)
    (hok b (fun _ => List.mem_append_right a) (hflat ▸ hnan)) hflat
  obtain ⟨ua, ub, hua, hub, herr, htext⟩ := same.fingerprint
  exact ⟨ta, tb, ua, ub, hta, htb, same.eq_up_to_chunk, same.2, hua, hub, herr, htext⟩

end Sys2Proof.Machine
end

section
/-! O9: an idle step. O17: each command stops at the first of its checks that fails. -/

namespace Sys2Proof.Machine

/-- Settles O9: with an empty list of actions there is nothing to perform. -/
theorem idleKeepsState : Obligations.IdleKeepsState := by
  intro s hidle
  rw [step, hidle]

/-! ## Commands as chains of checks -/

/-- The command ends in a next state, with this error in `ERR`. -/
def Reports (outcome : Host.Outcome State Fault Refusal) (e : ErrCode) : Prop :=
  ∃ t, outcome = .next t ∧ t.err = e

theorem Reports.raise (s : State) (e : ErrCode) : Reports (.next (s.raise e)) e := ⟨_, rfl, rfl⟩

theorem Reports.complete (s : State) : Reports (.next s.complete) .ok := ⟨_, rfl, rfl⟩

/-- One check: the command and the list of errors branch on equivalent conditions. -/
theorem Reports.ite {c c' : Prop} [Decidable c] [Decidable c']
    {o o' : Host.Outcome State Fault Refusal} {e e' : ErrCode} (hcheck : c ↔ c')
    (hthen : Reports o e) (helse : Reports o' e') :
    Reports (if c then o else o') (if c' then e else e') := by
  by_cases hc : c
  · rwa [if_pos hc, if_pos (hcheck.1 hc)]
  · rwa [if_neg hc, if_neg (mt hcheck.2 hc)]

/-! ## The conditions of the checks -/

/-- The session check of ADD_SAMPLES and CALCULATE_FINGERPRINT (60_exceptions.md R283). -/
theorem State.sessionClosed_iff (s : State) :
    (!s.live || s.finalized) = true ↔ s.sessionState = .none ∨ s.sessionState = .finalized := by
  cases hlive : s.live with
  | false => simp [s.sessionState_eq_none_iff.2 hlive]
  | true =>
    cases hfinal : s.finalized with
    | false =>
      rw [State.sessionState_of_consumed hlive hfinal]
      split_ifs <;> simp
    | true => simp [State.sessionState_of_finalized hlive hfinal]

/-- The budget check of ADD_SAMPLES (45_controller.md R241, R253). -/
theorem State.budgetReached_iff (s : State) :
    (!s.needsSamples) = true ↔ 1323000 ≤ s.framesProcessed.toNat + 4095 := by
  simp [State.needsSamples_eq]

/-- The admitted transform sizes, written out (40_fft.md R112). -/
theorem transformSize_mem_iff (n : Nat) :
    n ∈ [4, 8, 16, 32, 64, 128, 256, 512, 1024, 2048, 4096] ↔ ∃ k, transformLog? n = some k := by
  have hpowers : [4, 8, 16, 32, 64, 128, 256, 512, 1024, 2048, 4096] =
      (List.range' 2 11).map (2 ^ ·) := by decide
  simp only [hpowers, List.mem_map, List.mem_range'_1, transformLog?_eq_some]
  exact exists_congr fun k => by omega

theorem log2_of_transformLog? {n k : Nat} (h : transformLog? n = some k) : Nat.log2 n = k := by
  obtain ⟨-, -, rfl⟩ := (transformLog?_eq_some _ _).1 h
  exact Nat.log2_two_pow

/-- The check of a transform size. -/
theorem Reports.ofSize {n : Nat} {o : Host.Outcome State Fault Refusal} {e : ErrCode}
    (hrefused : transformLog? n = none → Reports o .invalidArgument)
    (hadmitted : ∀ k, transformLog? n = some k → Reports o e) :
    Reports o (if n ∉ [4, 8, 16, 32, 64, 128, 256, 512, 1024, 2048, 4096] then .invalidArgument
      else e) := by
  have hsize := transformSize_mem_iff n
  cases hlog : transformLog? n with
  | none =>
    rw [if_pos (mt hsize.1 (by simp [hlog]))]
    exact hrefused hlog
  | some k =>
    rw [if_neg (not_not.2 (hsize.2 ⟨k, hlog⟩))]
    exact hadmitted k hlog

/-- The check of the first `n` words of `SIN` for NaNs. -/
theorem Reports.ofSamples {s : State} {fmt : SampleFormat} {n : Nat}
    {o : Host.Outcome State Fault Refusal} {e : ErrCode}
    (hrefused : normAll fmt (s.sinSlice n) = none → Reports o .invalidArgument)
    (hadmitted : ∀ x, normAll fmt (s.sinSlice n) = some x → Reports o e) :
    Reports o (if noNaN fmt ((List.range n).map s.sinAt) = false then .invalidArgument
      else e) := by
  rw [← State.sinSlice_eq]
  have hnorm := normAll_eq fmt (s.sinSlice n)
  cases hnan : noNaN fmt (s.sinSlice n) with
  | false => exact hrefused (by rw [hnorm, hnan]; rfl)
  | true => exact hadmitted _ (by rw [hnorm, hnan]; rfl)

/-- The last check, the tables (40_fft.md R101). -/
theorem Reports.ofTables {s : State} {k : Nat} {o : Host.Outcome State Fault Refusal}
    (hrefused : ∀ s₁, s.ensureTables k = (false, s₁) → Reports o .allocationFailed)
    (hready : ∀ s₁, s.ensureTables k = (true, s₁) → Reports o .ok) :
    Reports o (if s.tablesAvailable k then .ok else .allocationFailed) := by
  rw [← s.ensureTables_fst]
  cases he : s.ensureTables k with
  | mk available s₁ =>
    cases available with
    | false => exact hrefused s₁ he
    | true => exact hready s₁ he

/-! ## Each command -/

theorem execAddSamples_reports (s : State) :
    Reports (execAddSamples s) (expectedError .addSamples s) := by
  refine .ite s.sessionClosed_iff (.raise s _) (.ite Iff.rfl (.raise s _)
    (.ite Iff.rfl (.raise s _) (.ite s.budgetReached_iff (.complete s) ?_)))
  refine .ofSamples (fun hnan => ?_) fun x hx => .ofTables (fun s₁ he => ?_) fun s₁ he => ?_
  · rw [State.arg, hnan]
    exact .raise s _
  · rw [State.arg, hx, he]
    exact .raise s₁ _
  · rw [State.arg, hx, he]
    exact .complete _

theorem execCalculateFingerprint_reports (s : State) :
    Reports (execCalculateFingerprint s) (expectedError .calculateFingerprint s) := by
  have hrows : s.row.toNat < maxWidth - 1 + 2 ↔ (s.row.toNat : Int) - 15 < 2 := by
    simp only [maxWidth]
    omega
  exact .ite s.sessionClosed_iff (.raise s _) (.ite hrows (.raise s _) (.complete _))

theorem execFftForward_reports (s : State) :
    Reports (execFftForward s) (expectedError .fftForward s) := by
  unfold execFftForward
  refine .ofSize (n := s.arg) (fun hlog => ?_) fun k hlog => ?_
  · rw [hlog]
    exact .raise s _
  show Reports _ (if s.tablesAvailable (Nat.log2 s.arg) then _ else _)
  rw [log2_of_transformLog? hlog, hlog]
  refine .ofTables (fun s₁ he => ?_) fun s₁ he => ?_ <;> simp only [he]
  · exact .raise s₁ _
  · exact .complete _

theorem execWindow_reports (s : State) : Reports (execWindow s) (expectedError .window s) := by
  refine .ite Iff.rfl (.raise s _) (.ofSamples (fun hnan => ?_) fun x hx => ?_)
  · rw [frameSize, hnan]
    exact .raise s _
  · rw [frameSize, hx]
    exact .complete _

theorem execCompress_reports (s : State) :
    Reports (execCompress s) (expectedError .compress s) :=
  .ite Iff.rfl (.raise s _) (.ite Iff.rfl (.raise s _) (.complete _))

theorem exec_reports (i : Instr) (s : State) : Reports (exec i s) (expectedError i s) := by
  cases i with
  | nop => exact .complete s
  | sessionOpen => exact .ite Iff.rfl (.raise s _) (.complete _)
  | sessionClose => exact .ite Iff.rfl (.complete _) (.raise s _)
  | addSamples => exact execAddSamples_reports s
  | needsSamples => exact .ite Iff.rfl (.complete _) (.raise s _)
  | canCalculate => exact .ite Iff.rfl (.complete _) (.raise s _)
  | calculateFingerprint => exact execCalculateFingerprint_reports s
  | fftForward => exact execFftForward_reports s
  | window => exact execWindow_reports s
  | compress => exact execCompress_reports s

/-- Settles O17: the checks of each command stand in the order of R284, and a word that does not
decode runs none of them. -/
theorem commandReportsFirstError : Obligations.CommandReportsFirstError :=
  ⟨exec_reports, fun _ _ _ _ hpending hdecode => ⟨_, step_of_decode_error hpending hdecode, rfl⟩⟩

end Sys2Proof.Machine
end

section
/-! O16: the platform's reset as a step. -/

namespace Sys2Proof.Machine

/-- A reset is always admitted and issues no command (70_reset_and_hazards.md R301). -/
theorem step_reset {s : State} {rest : List HostAction} (hpending : s.pending = .reset :: rest) :
    step s = .next (s.withPending rest).platformReset :=
  step_of_admitted hpending rfl rfl

/-- Taking the reset off the actions to come shows in no other field of the state after it. -/
theorem State.platformReset_withPending (s : State) (rest : List HostAction) :
    (s.withPending rest).platformReset =
      { State.reset with
        pending := rest, lastRead := s.lastRead, allocDraws := s.allocDraws,
        drawCount := s.drawCount, resetCount := s.resetCount + 1 } := rfl

/-- Settles O16: the step is `platformReset` on the state with the action removed. -/
theorem platformResetClearsTheBlock : Obligations.PlatformResetClearsTheBlock := by
  intro s rest hpending
  rw [step_reset hpending, State.platformReset_withPending]

end Sys2Proof.Machine
end
